-- ==== Sys2Proof/Word.lean ====
section
/-! DEFINITION. The word types of the block and their plainest byte arithmetic (rules R9, R61). -/

namespace Sys2Proof

/-- One byte, `u8` (R9). -/
abbrev Byte := BitVec 8

/-- A 16-bit value, `u16`: a HueColor, a pixel, a raster dimension (R9, R20). -/
abbrev Half := BitVec 16

/-- A 32-bit value, `u32`: a register, a command word, a byte address (R9). -/
abbrev Word := BitVec 32

/-- The number of a record slot, 0 to 7 (R30, R82). -/
abbrev Slot := Fin 8

end Sys2Proof
end

