-- ==== Sys2Proof/Syntax.lean ====
section
/-! DEFINITION. The commands of the block: one constructor per row of spec/opcode_table.json (R81). A slot
number carries its bound in its type, so no ill-formed command can be built (R82). -/

namespace Sys2Proof

inductive Instr where
  /-- `ENC` (R100): 8-bit RGB to HueColor. -/
  | enc
  /-- `DEC` (R102): HueColor to 8-bit RGB. -/
  | dec
  /-- `MKSET` (R104): set the marker bit. -/
  | mkset
  /-- `MKCLR` (R105): flip the marker bit. -/
  | mkclr
  /-- `RLOAD s` (R127): decode one record from memory into slot `s`. -/
  | rload (s : Slot)
  /-- `RSTORE s` (R130): encode slot `s` into one record in memory. -/
  | rstore (s : Slot)
  /-- `RCLR s` (R129): set slot `s` to the default record. -/
  | rclr (s : Slot)
  /-- `BLOAD` (R131): decode one block into HDR and all slots. -/
  | bload
  /-- `BSTORE` (R134): encode HDR and all slots into one block. -/
  | bstore
  /-- `REMAP.F s` (R160): full-mode remap of a raster buffer. -/
  | remapF (s : Slot)
  /-- `REMAP.G s` (R161): gray-only remap of a raster buffer. -/
  | remapG (s : Slot)
  /-- `PIX.F s` (R157): full-mode remap of one pixel value. -/
  | pixF (s : Slot)
  /-- `PIX.G s` (R158): gray-only remap of one pixel value. -/
  | pixG (s : Slot)
deriving DecidableEq, Repr

end Sys2Proof
end

