-- ==== Sys2Proof/WellFormed.lean ====
section
/-! DEFINITION. Well-formedness of a command as it is written: the assembler line of R90, its three checks,
and the command a checked line stands for. Every term of `Instr` is well-formed, because its slot carries the
bound in its type; a LINE is what can be ill-formed. -/

namespace Sys2Proof

/-- The thirteen mnemonics of R81. -/
inductive Mnemonic where
  | enc | dec | mkset | mkclr | rload | rstore | rclr | bload | bstore
  | remapF | remapG | pixF | pixG
deriving DecidableEq, Repr

/-- One assembler line: a mnemonic and, where one is written, a decimal slot number (R90). -/
structure AsmLine where
  mnemonic : Mnemonic
  operand  : Option Nat
deriving DecidableEq, Repr

/-- Why a line stands for no command. -/
inductive LineError where
  /-- The mnemonic takes a slot number and none is written (R90). -/
  | operandMissing
  /-- The mnemonic takes no operand and one is written (R90). -/
  | operandUnexpected
  /-- The slot number written is not in 0..7 (R82, R90). -/
  | slotOutOfRange
deriving DecidableEq, Repr

namespace AsmLine

/-- A line whose mnemonic takes no operand (R90). -/
def plain (i : Instr) : Option Nat → Except LineError Instr
  | none => .ok i
  | some _ => .error .operandUnexpected

/-- A line whose mnemonic takes one slot number in 0..7 (R90). -/
def slotted (f : Slot → Instr) : Option Nat → Except LineError Instr
  | none => .error .operandMissing
  | some n => if h : n < 8 then .ok (f ⟨n, h⟩) else .error .slotOutOfRange

/-- The command a line stands for, or the check it fails (R90). -/
def toInstr (l : AsmLine) : Except LineError Instr :=
  match l.mnemonic with
  | .enc    => plain .enc l.operand
  | .dec    => plain .dec l.operand
  | .mkset  => plain .mkset l.operand
  | .mkclr  => plain .mkclr l.operand
  | .rload  => slotted .rload l.operand
  | .rstore => slotted .rstore l.operand
  | .rclr   => slotted .rclr l.operand
  | .bload  => plain .bload l.operand
  | .bstore => plain .bstore l.operand
  | .remapF => slotted .remapF l.operand
  | .remapG => slotted .remapG l.operand
  | .pixF   => slotted .pixF l.operand
  | .pixG   => slotted .pixG l.operand

end AsmLine

/-- The line that writes a command (R90). -/
def Instr.toLine : Instr → AsmLine
  | .enc      => ⟨.enc, none⟩
  | .dec      => ⟨.dec, none⟩
  | .mkset    => ⟨.mkset, none⟩
  | .mkclr    => ⟨.mkclr, none⟩
  | .rload s  => ⟨.rload, some s.val⟩
  | .rstore s => ⟨.rstore, some s.val⟩
  | .rclr s   => ⟨.rclr, some s.val⟩
  | .bload    => ⟨.bload, none⟩
  | .bstore   => ⟨.bstore, none⟩
  | .remapF s => ⟨.remapF, some s.val⟩
  | .remapG s => ⟨.remapG, some s.val⟩
  | .pixF s   => ⟨.pixF, some s.val⟩
  | .pixG s   => ⟨.pixG, some s.val⟩

/-- A command is well-formed when the line that writes it passes the checks of R90 and stands for it. -/
abbrev Instr.WellFormed (i : Instr) : Prop := i.toLine.toInstr = .ok i

end Sys2Proof
end

