-- ==== Sys2Proof/Decode.lean ====
section
/-! DEFINITION. The command decoder, total on every 32-bit word and rejecting by name (R80 to R89), the
encoder (R90), the opcode table as rows of mask and pattern (R87), and the host's view of the decoder. -/

namespace Sys2Proof

/-- Why a word is ILLEGAL (R88). Every one of them is performed as error ILLEGAL (R175). -/
inductive DecodeError where
  /-- A bit of RSV, 31:12, is not 0. -/
  | reservedBits
  /-- OP is not in the opcode map. -/
  | reservedOp
  /-- SLOT is not 0 in a command that names no slot. -/
  | slotUnused
  /-- G is not 0 in a command that has no mode. -/
  | modeUnused
deriving DecidableEq, Repr

/-- `OP`, bits 7:0 of a command word (R80). -/
def opField (v : Word) : BitVec 8 := v.extractLsb' 0 8

/-- `SLOT`, bits 10:8 of a command word (R80). -/
def slotField (v : Word) : Slot := (v.extractLsb' 8 3).toFin

/-- `G`, bit 11 of a command word (R80). -/
def modeField (v : Word) : Bool := v.getLsbD 11

/-- `RSV`, bits 31:12 of a command word (R80). -/
def reservedField (v : Word) : BitVec 20 := v.extractLsb' 12 20

/-- A command that uses neither SLOT nor G: both must be 0 (R81, R82, R83). -/
def decodePlain (i : Instr) (v : Word) : Except DecodeError Instr :=
  if slotField v = 0 then (if modeField v then .error .modeUnused else .ok i) else .error .slotUnused

/-- A command that uses SLOT and no G: G must be 0 (R81, R83). -/
def decodeSlotted (f : Slot → Instr) (v : Word) : Except DecodeError Instr :=
  if modeField v then .error .modeUnused else .ok (f (slotField v))

/-- A command that uses SLOT and whose mode G selects (R83). -/
def decodeModal (full gray : Slot → Instr) (v : Word) : Except DecodeError Instr :=
  .ok (if modeField v then gray (slotField v) else full (slotField v))

/-- The decode function of R87, with the reason a word is ILLEGAL. -/
def decode (v : Word) : Except DecodeError Instr :=
  if reservedField v = 0 then
    match (opField v).toNat with
    | 0x01 => decodePlain .enc v
    | 0x02 => decodePlain .dec v
    | 0x03 => decodePlain .mkset v
    | 0x04 => decodePlain .mkclr v
    | 0x10 => decodeSlotted .rload v
    | 0x11 => decodeSlotted .rstore v
    | 0x12 => decodeSlotted .rclr v
    | 0x13 => decodePlain .bload v
    | 0x14 => decodePlain .bstore v
    | 0x20 => decodeModal .remapF .remapG v
    | 0x21 => decodeModal .pixF .pixG v
    | _    => .error .reservedOp
  else .error .reservedBits

/-- The word of a line, `(G << 11) | (s << 8) | OP` (R90). -/
def commandWord (g : Bool) (s : Slot) (op : BitVec 8) : Word :=
  ((BitVec.ofBool g).setWidth 32 <<< 11) ||| (BitVec.ofNat 32 s.val <<< 8) ||| op.setWidth 32

/-- The word of a command, from the opcode map (R81, R90). -/
def encode : Instr → Word
  | .enc      => commandWord false 0 0x01
  | .dec      => commandWord false 0 0x02
  | .mkset    => commandWord false 0 0x03
  | .mkclr    => commandWord false 0 0x04
  | .rload s  => commandWord false s 0x10
  | .rstore s => commandWord false s 0x11
  | .rclr s   => commandWord false s 0x12
  | .bload    => commandWord false 0 0x13
  | .bstore   => commandWord false 0 0x14
  | .remapF s => commandWord false s 0x20
  | .remapG s => commandWord true s 0x20
  | .pixF s   => commandWord false s 0x21
  | .pixG s   => commandWord true s 0x21

/-- One row of spec/opcode_table.json: the word `v` is the row's when `v & mask = bits`. -/
structure OpcodeRow where
  mnemonic : Mnemonic
  bits     : Word
  mask     : Word
deriving DecidableEq, Repr

/-- Whether a word is a row's (R87). -/
def OpcodeRow.covers (r : OpcodeRow) (v : Word) : Bool := v &&& r.mask == r.bits

/-- The rows of spec/opcode_table.json, in its order (R87). -/
def opcodeRows : List OpcodeRow :=
  [⟨.enc, 0x00000001, 0xFFFFFFFF⟩, ⟨.dec, 0x00000002, 0xFFFFFFFF⟩,
   ⟨.mkset, 0x00000003, 0xFFFFFFFF⟩, ⟨.mkclr, 0x00000004, 0xFFFFFFFF⟩] ++
  [⟨.rload, 0x00000010, 0xFFFFF8FF⟩, ⟨.rstore, 0x00000011, 0xFFFFF8FF⟩,
   ⟨.rclr, 0x00000012, 0xFFFFF8FF⟩, ⟨.bload, 0x00000013, 0xFFFFFFFF⟩,
   ⟨.bstore, 0x00000014, 0xFFFFFFFF⟩] ++
  [⟨.remapF, 0x00000020, 0xFFFFF8FF⟩, ⟨.remapG, 0x00000820, 0xFFFFF8FF⟩,
   ⟨.pixF, 0x00000021, 0xFFFFF8FF⟩, ⟨.pixG, 0x00000821, 0xFFFFF8FF⟩]

/-- The decoder as the host asks for it: a command is one 32-bit word, whose bits are the table's bits (R89). -/
def decodeTableWord (nbits w : Nat) : Option Instr :=
  match decode (BitVec.ofNat 32 (w % 2 ^ nbits)) with
  | .ok i => some i
  | .error _ => none

end Sys2Proof
end

