-- ==== Sys2Proof/Config.lean ====
section
/-! DEFINITION. What is fixed for the block (R7) and the free values: constants with no body, which the
spec leaves open (R57, R191). No proof can see a value of them. -/

namespace Sys2Proof.Config

/-- `REC_BYTES`, bytes of one serialized record (R7). -/
abbrev recBytes : Nat := 88

/-- `HDR_BYTES`, bytes of a block header (R7). -/
abbrev hdrBytes : Nat := 4

/-- `BLOCK_BYTES`, bytes of one block: a header and eight records (R7). -/
abbrev blockBytes : Nat := 708

/-- `MARKER`, bit 15 of a 16-bit color (R7). -/
abbrev marker : Half := 0x8000

/-- The highest byte address of the memory port, `AW` = 32 (R7, R66). -/
abbrev topAddress : Nat := 0xFFFFFFFF

/-- FREE VALUE (R57, U1; log entry 4). What the `n`-th draw gives a host read of RESULT, HDR, ERRADDR or the
REC window while BUSY = 1, before the register's reserved bits are forced to 0. -/
opaque busyRead : Nat → Word

/-- FREE VALUE (R191, U3; log entry 5). Whether, in the `n`-th draw, the byte at an address of the write
footprint of a command that a reset abandons holds the value the command would have written (`true`) or the
value it had before (`false`). -/
opaque resetTakesNew : Nat → Nat → Bool

end Sys2Proof.Config
end

