-- ==== Sys2Proof/Machine/State.lean ====
section
/-! DEFINITION. The whole state of the block and of what stands around it, as plain data: the registers (R21 to
R29, R33 to R35), the record bank (R30), the hidden latch (R36), host memory (R60), the admission map
(R8), the windows of exclusive use (R196) and the host's accesses still to come (R6); the reasons a step
can stop; and the state right after reset (R40, R190). -/

namespace Sys2Proof.Machine

/-- The two agents of the block (R6), as `phase` sees them: an engine that waits or one that performs (R36). -/
inductive Phase where
  | idle
  | busy
deriving DecidableEq, Repr

/-- STATUS (R23), one field for each field of the register. Bits 7:5 and 31:12 hold nothing: they read 0 and
ignore writes. `busy` is also the hidden `phase` (R36). -/
structure Status where
  busy    : Bool
  done    : Bool
  err     : Bool
  hdrv    : Bool
  ovr     : Bool
  errCode : BitVec 4
deriving DecidableEq, Repr

/-- One record slot (R30). -/
structure Rec where
  ramp   : Vector Half 32
  tstart : Half
  tend   : Half
  name   : Vector Byte 20
deriving DecidableEq, Repr

/-- The default record (R128): an all-zero ramp, zero TSTART and TEND, and the name "Null". -/
def Rec.default : Rec where
  ramp   := Vector.replicate 32 0
  tstart := 0
  tend   := 0
  name   := #v[0x4E, 0x75, 0x6C, 0x6C, 0, 0, 0, 0, 0, 0, 0, 0, 0, 0, 0, 0, 0, 0, 0, 0]

/-- The kinds of a one-byte access at the memory port (R8). -/
inductive AccessKind where
  | read
  | write
deriving DecidableEq, Repr

/-- A range of addresses at which the memory system refuses accesses of one kind. A list of them is the
parameter `P_ADMIT` (R8) as plain data: what no entry covers is admitted (log entry 3). -/
structure Denied where
  first : Word
  last  : Word
  kind  : AccessKind
deriving DecidableEq, Repr

/-- The footprint of a command (R65), as data; its bytes are `Footprint.bytes`. -/
inductive Footprint where
  /-- No byte of memory. -/
  | empty
  /-- `len` bytes from `base`, each needing one kind of access. -/
  | span (base len : Nat) (kind : AccessKind)
  /-- The pixels of a raster buffer, each byte needing both kinds. -/
  | raster (base width height stride : Nat)
deriving DecidableEq, Repr

/-- The width of a host access at the register port (R21, R58). -/
inductive BusWidth where
  | byte
  | half
  | word
  | double
deriving DecidableEq, Repr

/-- What the outside world does to the block: the host's register accesses (R50 to R59), accesses of the host or
of another bus master to host memory (R72, R196), a change of the admission map (R8) and the reset
input (R190). -/
inductive HostAction where
  /-- A host read at a window offset. -/
  | readReg (offset : BitVec 12) (width : BusWidth)
  /-- A host write at a window offset. -/
  | writeReg (offset : BitVec 12) (width : BusWidth) (value : Word)
  /-- A read of one byte of host memory from outside the block. -/
  | readMem (address : Word)
  /-- A write of one byte of host memory from outside the block. -/
  | writeMem (address : Word) (value : Byte)
  /-- The platform's memory system takes another admission map. -/
  | setAdmission (map : List Denied)
  /-- The reset input is asserted. -/
  | reset
deriving DecidableEq, Repr

/-- One action to come, with its place in the interleaving (R6, R171): where a command is in flight when the
action is the next one, it reaches the block before the engine's perform step if it is `early`, and
after it if it is not (log entry 2). -/
structure HostInput where
  early  : Bool
  action : HostAction
deriving DecidableEq, Repr

/-- The state. -/
structure State where
  /-- STATUS (R23), the hidden phase (R36) in its BUSY. -/
  status     : Status
  /-- ADDR (R24). -/
  addr       : Word
  /-- WIDTH, the 16 bits it has (R25). -/
  width      : Half
  /-- HEIGHT, the 16 bits it has (R26). -/
  height     : Half
  /-- STRIDE, the 16 bits it has (R27). -/
  stride     : Half
  /-- OPND (R28). -/
  opnd       : Word
  /-- RESULT (R29). -/
  result     : Word
  /-- HDR (R33). -/
  hdr        : Word
  /-- ERRADDR (R35). -/
  errAddr    : Word
  /-- CMDLATCH, hidden (R36). -/
  cmdLatch   : Word
  /-- The record bank (R30). -/
  bank       : Vector Rec 8
  /-- Host memory (R60) in canonical form: what is not listed reads as `Memory.unlisted`. -/
  mem        : List Host.Cell
  /-- The admission map `P_ADMIT` (R8). -/
  denied     : List Denied
  /-- The footprints of the accepted commands whose end the host has not seen yet, newest first (R72, R196; log
  entry 9). -/
  unobserved : List Footprint
  /-- The outside world's actions to come, in the order it issues them (R6, R200). -/
  pending    : List HostInput
  /-- THE MODEL'S OWN: the value the last read from outside returned (log entry 7). -/
  readData   : Word
  /-- THE MODEL'S OWN: how many free values have been drawn (log entries 4 and 5). -/
  draws      : Nat
deriving DecidableEq, Repr

/-- Why a run is at fault. -/
inductive Fault where
  /-- Raised by a memory access from outside to a byte of the footprint of a command that the host has not
  seen end (R72, R196, U7). Safe: the spec itself makes the run a hazard fault. -/
  | footprintHazard
deriving DecidableEq, Repr

/-- Why the model has no meaning for a step. -/
inductive Refusal where
  /-- Raised by the dispatch for a command that has no meaning yet; no arm of it does. Safe. -/
  | notModelled (mnemonic : String)
  /-- Raised by a host access to the register window that is not a 32-bit access at a multiple of 4: the open
  parameter `P_HOST_SUBWORD` (R8, R58, U4). Safe: the spec says the model refuses it. -/
  | hostSubword
  /-- Raised by a change of the admission map while a command is in flight, which the spec excludes:
  `P_ADMIT` is fixed for the duration of a command (R8). Safe. -/
  | admissionFixedInFlight
deriving DecidableEq, Repr

namespace State

/-- The state right after power-on reset (R40, R190, R192): every register 0, every slot the default record, the
engine idle; memory with nothing listed (log entry 1). The fields that are not the block's start at values the
model chose, DESIGN CHOICE: every access admitted, no window, no action to come, 0 (log entries 2, 3, 4, 7, 9). -/
def reset : State where
  status     := { busy := false, done := false, err := false, hdrv := false, ovr := false, errCode := 0 }
  addr       := 0
  width      := 0
  height     := 0
  stride     := 0
  opnd       := 0
  result     := 0
  hdr        := 0
  errAddr    := 0
  cmdLatch   := 0
  bank       := Vector.replicate 8 Rec.default
  mem        := []
  denied     := []
  unobserved := []
  pending    := []
  readData   := 0
  draws      := 0

/-- The hidden `phase` (R36): a view of STATUS.BUSY. -/
def phase (s : State) : Phase := if s.status.busy then .busy else .idle

end State

end Sys2Proof.Machine
end

