-- ==== Sys2Proof/Machine/Flags.lean ====
section
/-! DEFINITION. STATUS: its word (R23), and every way a field of it is computed: acceptance (R51), completion
(R172, R173), the host's write of it (R52), overrun (R51, R56, R185) and the header flag (R34). -/

namespace Sys2Proof.Machine

/-- The errors a command can end with (R170). -/
inductive ErrorCode where
  | illegal
  | geometry
  | range
  | bus
  | nohdr
deriving DecidableEq, Repr

/-- The code of an error, as STATUS.ERRCODE holds it (R170). -/
def ErrorCode.bits : ErrorCode → BitVec 4
  | .illegal  => 0x1
  | .geometry => 0x2
  | .range    => 0x3
  | .bus      => 0x4
  | .nohdr    => 0x5

namespace Status

/-- STATUS as the host reads it (R23): 31:12 zero, ERRCODE, 7:5 zero, OVR, HDRV, ERR, DONE, BUSY. -/
def toWord (t : Status) : Word :=
  (0#20) ++ t.errCode ++ (0#3) ++ BitVec.ofBool t.ovr ++ BitVec.ofBool t.hdrv ++ BitVec.ofBool t.err ++
    BitVec.ofBool t.done ++ BitVec.ofBool t.busy

/-- A command is accepted (R51). -/
def accept (t : Status) : Status := { t with done := false, busy := true }

/-- A command ends without error (R172). -/
def finishDone (t : Status) : Status := { t with busy := false, done := true }

/-- A command ends with an error (R173). -/
def finishError (t : Status) (c : ErrorCode) : Status :=
  { t with busy := false, err := true, errCode := c.bits }

/-- A host write is dropped (R51, R56, R185). -/
def overrun (t : Status) : Status := { t with ovr := true }

/-- A header is established (R34). -/
def establishHeader (t : Status) : Status := { t with hdrv := true }

/-- The host writes `v` to STATUS (R52): DONE, ERR (and with it ERRCODE) and OVR are cleared by a 1. -/
def hostWrite (t : Status) (v : Word) : Status :=
  { t with
    done    := t.done && !v.getLsbD 1
    err     := t.err && !v.getLsbD 2
    errCode := if v.getLsbD 2 then 0 else t.errCode
    ovr     := t.ovr && !v.getLsbD 4 }

end Status

end Sys2Proof.Machine
end

