-- ==== Sys2Proof/Machine/Operands.lean ====
section
/-! DEFINITION. The operand forms and the field helpers: color fields (R13), the fields of OPND (R84), the raster
operands (R86, R151) and pixel addresses (R150), bytes of wider values (R11, R61). -/

namespace Sys2Proof.Machine

/-- `red5(c) = c[14:10]` (R13). -/
def red5 (c : Half) : BitVec 5 := c.extractLsb' 10 5

/-- `green5(c) = c[9:5]` (R13). -/
def green5 (c : Half) : BitVec 5 := c.extractLsb' 5 5

/-- `blue5(c) = c[4:0]` (R13). -/
def blue5 (c : Half) : BitVec 5 := c.extractLsb' 0 5

/-- `marker(c) = c[15]` (R13). -/
def marker (c : Half) : Bool := c.getLsbD 15

/-- `pack555`, bit 15 zero (R13). -/
def pack555 (r g b : BitVec 5) : Half :=
  (r.setWidth 16 <<< 10) ||| (g.setWidth 16 <<< 5) ||| b.setWidth 16

/-- Setting the marker bit, the load-side conversion (R104, R125). -/
def setMarker (c : Half) : Half := c ||| Config.marker

/-- Flipping the marker bit, the save-side conversion: an XOR, not a clear (R105, R126). -/
def flipMarker (c : Half) : Half := c ^^^ Config.marker

/-- A little-endian u16 from its two bytes (R61). -/
def halfOfBytes (lo hi : Byte) : Half := hi ++ lo

/-- The low byte of a u16 (R61). -/
def lowByte (v : Half) : Byte := v.extractLsb' 0 8

/-- The high byte of a u16 (R61). -/
def highByte (v : Half) : Byte := v.extractLsb' 8 8

/-- A little-endian u32 from its four bytes (R61). -/
def wordOfBytes (b0 b1 b2 b3 : Byte) : Word := b3 ++ b2 ++ b1 ++ b0

/-- Byte `k` of a u32, little-endian (R61). -/
def byteOfWord (v : Word) (k : Nat) : Byte := v.extractLsb' (8 * k) 8

/-- ENC's red operand, `OPND[23:16]` (R84). -/
def operandRed (o : Word) : Byte := o.extractLsb' 16 8

/-- ENC's green operand, `OPND[15:8]` (R84). -/
def operandGreen (o : Word) : Byte := o.extractLsb' 8 8

/-- ENC's blue operand, `OPND[7:0]` (R84). -/
def operandBlue (o : Word) : Byte := o.extractLsb' 0 8

/-- The color or pixel operand of DEC, MKSET, MKCLR and PIX, `OPND[15:0]` (R84). -/
def operandColor (o : Word) : Half := o.extractLsb' 0 16

/-- A u16 result in RESULT (R85). -/
def resultOfHalf (h : Half) : Word := h.setWidth 32

/-- DEC's packing of its result in RESULT, `(r8 << 16) | (g8 << 8) | b8` (R85). -/
def resultOfRgb (r g b : Byte) : Word :=
  (r.setWidth 32 <<< 16) ||| (g.setWidth 32 <<< 8) ||| b.setWidth 32

/-- `pa(x, y) = A + 2 * (y * S + x)`, over the naturals (R150). -/
def pixelAddress (a s x y : Nat) : Nat := a + 2 * (y * s + x)

/-- The pixels of a raster buffer by address, in row-major order: `y` ascending, then `x` ascending (R71, R159). -/
def rasterPixels (a w h s : Nat) : List Nat :=
  (List.range h).flatMap fun y => (List.range w).map fun x => pixelAddress a s x y

end Sys2Proof.Machine
end

