-- ==== Sys2Proof/Machine/Ops.lean ====
section
/-! DEFINITION. The named operations over memory and registers: memory in canonical form (R11, R60, R61), the
admission map (R8), footprints and their check (R65, R66), taking an error and returning from one (R173, R182),
completion (R172), and acceptance of a command (R51). -/

namespace Sys2Proof.Machine

/-! ## Host memory -/

/-- Host memory: address and byte, addresses strictly rising, no entry equal to `Memory.unlisted`. -/
abbrev Memory := List Host.Cell

namespace Memory

/-- What an address that is not listed reads as. DESIGN CHOICE (log entry 1): the spec gives the contents of host
memory no value, since memory is the host's. -/
def unlisted : Byte := 0

/-- The canonical form: addresses strictly rising and inside the 32-bit space (R60), no entry that reads as an
unlisted address does. -/
abbrev wf (m : Memory) : Prop :=
  m.Pairwise (fun c d => c.1 < d.1) ∧ ∀ c ∈ m, c.1 ≤ Config.topAddress ∧ c.2 ≠ unlisted

/-- `mem[a]` (R11). -/
def read : Memory → Nat → Byte
  | [], _ => unlisted
  | c :: m, a => if c.1 = a then c.2 else read m a

/-- Memory with no entry at `a`. -/
def erase (m : Memory) (a : Nat) : Memory := m.filter (fun c => c.1 != a)

/-- An entry put in its place. -/
def insert : Memory → Nat → Byte → Memory
  | [], a, v => [(a, v)]
  | c :: m, a, v => if a < c.1 then (a, v) :: c :: m else c :: insert m a v

/-- `mem[a] <- v` (R11), in canonical form. -/
def write (m : Memory) (a : Nat) (v : Byte) : Memory :=
  if v = unlisted then m.erase a else (m.erase a).insert a v

/-- `MemRead(a, 2)` (R11, R61). -/
def readHalf (m : Memory) (a : Nat) : Half := halfOfBytes (m.read a) (m.read (a + 1))

/-- `MemWrite(a, 2, v)`, low address first (R11, R71). -/
def writeHalf (m : Memory) (a : Nat) (v : Half) : Memory :=
  (m.write a (lowByte v)).write (a + 1) (highByte v)

/-- `MemReadBytes(a, n)` (R11), for every `n`: the bytes from `a` on, by their offset. -/
def bytesFrom (m : Memory) (a : Nat) : Nat → Byte := fun k => m.read (a + k)

/-- `MemWriteBytes(a, bs)`, at ascending addresses (R11, R71). -/
def writeBytes : Memory → Nat → List Byte → Memory
  | m, _, [] => m
  | m, a, b :: bs => writeBytes (m.write a b) (a + 1) bs

/-- Memory after a list of byte writes, in order. -/
def replay (m : Memory) (ws : List (Nat × Byte)) : Memory := ws.foldl (fun m w => m.write w.1 w.2) m

end Memory

/-! ## Admission and footprints -/

/-- `P_ADMIT(a, k)` (R8). -/
def State.admits (s : State) (a : Nat) (k : AccessKind) : Bool :=
  !s.denied.any fun d => d.kind == k && d.first.toNat ≤ a && a ≤ d.last.toNat

namespace Footprint

/-- The bytes of a footprint (R65). -/
def bytes : Footprint → List Nat
  | .empty => []
  | .span a n _ => (List.range n).map (a + ·)
  | .raster a w h s => (rasterPixels a w h s).flatMap fun p => [p, p + 1]

/-- Whether a byte of the footprint needs an access kind (R65). -/
def needs : Footprint → AccessKind → Bool
  | .empty, _ => false
  | .span _ _ k, k' => k == k'
  | .raster _ _ _ _, _ => true

/-- `max(F)`, in the closed form of R66; none for an empty footprint. -/
def last : Footprint → Option Nat
  | .empty => none
  | .span a n _ => if n = 0 then none else some (a + n - 1)
  | .raster a w h s => if w = 0 ∨ h = 0 then none else some (a + 2 * ((h - 1) * s + (w - 1)) + 1)

end Footprint

/-- How a command ends with an error: `E(code, addr)` (R12). -/
structure CmdError where
  code    : ErrorCode
  address : Word
deriving DecidableEq, Repr

/-- `E(code, 0)`, for a code that gives no address (R12, R35). -/
def CmdError.plain (c : ErrorCode) : CmdError := ⟨c, 0⟩

/-- Whether the memory system refuses a footprint byte for a kind the footprint needs (R66). -/
def State.refuses (s : State) (f : Footprint) (a : Nat) : Bool :=
  (f.needs .read && !s.admits a .read) || (f.needs .write && !s.admits a .write)

/-- `min(bad)`, the lowest footprint byte not admitted (R66). -/
def State.lowestRefused (s : State) (f : Footprint) : Option Nat := (f.bytes.filter (s.refuses f)).min?

/-- The footprint check (R66): RANGE before BUS. -/
def State.footprintError (s : State) (f : Footprint) : Option CmdError :=
  match f.last with
  | none => none
  | some top =>
    if Config.topAddress < top then some (.plain .range)
    else (s.lowestRefused f).map fun a => ⟨.bus, BitVec.ofNat 32 a⟩

/-- The footprint of RLOAD and RSTORE (R65). -/
def State.recordFootprint (s : State) (k : AccessKind) : Footprint :=
  .span s.addr.toNat Config.recBytes k

/-- The footprint of BLOAD and BSTORE (R65). -/
def State.blockFootprint (s : State) (k : AccessKind) : Footprint :=
  .span s.addr.toNat Config.blockBytes k

/-- The footprint of REMAP.F and REMAP.G (R65, R86, R151). -/
def State.rasterFootprint (s : State) : Footprint :=
  .raster s.addr.toNat s.width.toNat s.height.toNat s.stride.toNat

/-- The footprint of a command (R65). -/
def State.footprint (s : State) : Instr → Footprint
  | .rload _  => s.recordFootprint .read
  | .rstore _ => s.recordFootprint .write
  | .bload    => s.blockFootprint .read
  | .bstore   => s.blockFootprint .write
  | .remapF _ => s.rasterFootprint
  | .remapG _ => s.rasterFootprint
  | .enc | .dec | .mkset | .mkclr | .rclr _ | .pixF _ | .pixG _ => .empty

/-! ## The other checks -/

/-- The header-established check of BSTORE (R135). -/
def State.headerError (s : State) : Option CmdError :=
  if s.status.hdrv then none else some (.plain .nohdr)

/-- The geometry check of REMAP (R152). -/
def State.geometryError (s : State) : Option CmdError :=
  if s.stride.toNat < s.width.toNat then some (.plain .geometry) else none

/-- The checks of a command after its decode, in the order of R174: NOHDR, GEOMETRY, RANGE, BUS. -/
def State.commandError (s : State) : Instr → Option CmdError
  | .bstore   => s.headerError.or (s.footprintError (s.footprint .bstore))
  | .remapF n => s.geometryError.or (s.footprintError (s.footprint (.remapF n)))
  | .remapG n => s.geometryError.or (s.footprintError (s.footprint (.remapG n)))
  | .rload n  => s.footprintError (s.footprint (.rload n))
  | .rstore n => s.footprintError (s.footprint (.rstore n))
  | .bload    => s.footprintError (s.footprint .bload)
  | .enc | .dec | .mkset | .mkclr | .rclr _ | .pixF _ | .pixG _ => none

/-! ## Ending a command -/

/-- Completion without error (R172). -/
def State.complete (s : State) : State := { s with status := s.status.finishDone }

/-- TAKING AN ERROR, the `raise` primitive (R12, R173): BUSY cleared, ERR and ERRCODE set, ERRADDR written;
nothing else changes. -/
def State.raise (s : State) (e : CmdError) : State :=
  { s with status := s.status.finishError e.code, errAddr := e.address }

/-- RETURNING FROM AN ERROR: the host's write of STATUS, which clears ERR and ERRCODE when its bit 2 is 1 and keeps
ERRADDR (R52, R182). -/
def State.writeStatus (s : State) (v : Word) : State := { s with status := s.status.hostWrite v }

/-- A command after its checks: it raises the error `e`, or completes with its effect `t` (R67, R171). -/
def State.finish (s : State) (e : Option CmdError) (t : State) : Host.Outcome State Fault Refusal :=
  match e with
  | some e => .next (s.raise e)
  | none => .next t.complete

/-! ## Registers and slots -/

/-- `reg.RESULT <- v` (R29). -/
def State.setResult (s : State) (v : Word) : State := { s with result := v }

/-- `REC[n]` (R10). -/
def State.slot (s : State) (n : Slot) : Rec := s.bank[n.val]

/-- `REC[n] <- r` (R10, R138): no other slot changes. -/
def State.setSlot (s : State) (n : Slot) (r : Rec) : State := { s with bank := s.bank.set n.val r }

/-- Host memory replaced by the memory a command's writes give. -/
def State.setMem (s : State) (m : Memory) : State := { s with mem := m }

/-- HDR and every slot replaced, and the header established (R34, R131). -/
def State.setBlock (s : State) (h : Word) (recs : Vector Rec 8) : State :=
  { s with hdr := h, bank := recs, status := s.status.establishHeader }

/-! ## Issuing a command -/

/-- The footprint of the command a word stands for; an ILLEGAL word accesses nothing (R65, R175). -/
def State.footprintOfWord (s : State) (v : Word) : Footprint :=
  match decode v with
  | .ok i => s.footprint i
  | .error _ => .empty

/-- The accepted CMD write of R51: the word is latched, DONE cleared, BUSY set; the window of exclusive use of its
footprint opens (R196). A word is accepted whatever its bits (R88). -/
def State.acceptCommand (s : State) (v : Word) : State :=
  { s with
    cmdLatch   := v
    status     := s.status.accept
    unobserved := s.footprintOfWord v :: s.unobserved }

end Sys2Proof.Machine
end

