-- ==== Sys2Proof/Machine/ColorCodec.lean ====
section
/-! DEFINITION. The bit-packed color codec: ENC, DEC, MKSET, MKCLR (R100 to R105). -/

namespace Sys2Proof.Machine

/-- `scale5` (R101): exact product, floor division, and a nonzero channel forced to at least 1. -/
def scale5 (c : Byte) : BitVec 5 :=
  let t := c.toNat * 31 / 255
  if t = 0 ∧ c ≠ 0 then 1 else BitVec.ofNat 5 t

/-- `expand8` (R103): `f * (255 div 31)`. -/
def expand8 (f : BitVec 5) : Byte := BitVec.ofNat 8 (f.toNat * (255 / 31))

/-- The color ENC gives for an operand (R84, R100). -/
def encodeColor (o : Word) : Half :=
  pack555 (scale5 (operandRed o)) (scale5 (operandGreen o)) (scale5 (operandBlue o))

/-- The RGB value DEC gives for a color (R85, R102). The marker bit is ignored. -/
def decodeColor (c : Half) : Word :=
  resultOfRgb (expand8 (red5 c)) (expand8 (green5 c)) (expand8 (blue5 c))

/-- ENC (R100). -/
def execEnc (s : State) : Host.Outcome State Fault Refusal :=
  s.finish none (s.setResult (resultOfHalf (encodeColor s.opnd)))

/-- DEC (R102). -/
def execDec (s : State) : Host.Outcome State Fault Refusal :=
  s.finish none (s.setResult (decodeColor (operandColor s.opnd)))

/-- MKSET (R104). -/
def execMkset (s : State) : Host.Outcome State Fault Refusal :=
  s.finish none (s.setResult (resultOfHalf (setMarker (operandColor s.opnd))))

/-- MKCLR (R105). -/
def execMkclr (s : State) : Host.Outcome State Fault Refusal :=
  s.finish none (s.setResult (resultOfHalf (flipMarker (operandColor s.opnd))))

end Sys2Proof.Machine
end

