-- ==== Sys2Proof/Machine/PixelRemap.lean ====
section
/-! DEFINITION. The pixel remap engine: REMAP.F, REMAP.G, PIX.F, PIX.G (R150 to R161). -/

namespace Sys2Proof.Machine

/-- `ramp[red5(p)]` (R154). -/
def rampAt (ramp : Vector Half 32) (k : BitVec 5) : Half := ramp[k.toNat]'k.isLt

/-- `remapPixel` (R153 to R156): whether the pixel is replaced, and the value it then has. -/
def remapPixel (p : Half) (ramp : Vector Half 32) (gray : Bool) : Bool × Half :=
  if p = 0 then (false, p)
  else if gray = false then (true, rampAt ramp (red5 p))
  else if red5 p = green5 p ∧ green5 p = blue5 p then (true, rampAt ramp (red5 p))
  else (false, p)

/-- The visit of one pixel by the buffer walk (R159): read, and write only if the pixel is replaced. -/
def visitPixel (ramp : Vector Half 32) (gray : Bool) (m : Memory) (a : Nat) : Memory :=
  let r := remapPixel (Memory.readHalf m a) ramp gray
  if r.1 then Memory.writeHalf m a r.2 else m

/-- The buffer walk of R159, after its checks: row-major, every pixel once. -/
def State.remapBuffer (s : State) (gray : Bool) (n : Slot) : Memory :=
  (rasterPixels s.addr.toNat s.width.toNat s.height.toNat s.stride.toNat).foldl
    (visitPixel (s.slot n).ramp gray) s.mem

/-- PIX.F s (R157). -/
def execPixF (n : Slot) (s : State) : Host.Outcome State Fault Refusal :=
  s.finish none (s.setResult (resultOfHalf (remapPixel (operandColor s.opnd) (s.slot n).ramp false).2))

/-- PIX.G s (R158). -/
def execPixG (n : Slot) (s : State) : Host.Outcome State Fault Refusal :=
  s.finish none (s.setResult (resultOfHalf (remapPixel (operandColor s.opnd) (s.slot n).ramp true).2))

/-- REMAP.F s (R160). -/
def execRemapF (n : Slot) (s : State) : Host.Outcome State Fault Refusal :=
  s.finish (s.commandError (.remapF n)) (s.setMem (s.remapBuffer false n))

/-- REMAP.G s (R161). -/
def execRemapG (n : Slot) (s : State) : Host.Outcome State Fault Refusal :=
  s.finish (s.commandError (.remapG n)) (s.setMem (s.remapBuffer true n))

end Sys2Proof.Machine
end

