-- ==== Sys2Proof/Machine/RecordCodec.lean ====
section
/-! DEFINITION. The palette record and block codec: RLOAD, RSTORE, RCLR, BLOAD, BSTORE (R120 to R135). -/

namespace Sys2Proof.Machine

/-- `nameLen` (R122): the least index of a zero byte, or 20. -/
def nameLen (n : Vector Byte 20) : Nat := n.toList.findIdx (· == 0)

/-- `decodeName` (R123): a line feed becomes a space, and zeros from the terminator on. -/
def decodeName (n : Vector Byte 20) : Vector Byte 20 :=
  Vector.ofFn fun j => if j.val < nameLen n then (if n[j] = 0x0A then 0x20 else n[j]) else 0

/-- `encodeName` (R124): the bytes before the first zero, then zeros; no replacement. -/
def encodeName (n : Vector Byte 20) : Vector Byte 20 :=
  Vector.ofFn fun j => if j.val < nameLen n then n[j] else 0

/-- `decodeRecord` (R120, R125), of the 88 bytes of a record given by their offset. -/
def decodeRecord (b : Nat → Byte) : Rec where
  ramp   := Vector.ofFn fun i => setMarker (halfOfBytes (b (2 * i.val)) (b (2 * i.val + 1)))
  tstart := setMarker (halfOfBytes (b 64) (b 65))
  tend   := setMarker (halfOfBytes (b 66) (b 67))
  name   := decodeName (Vector.ofFn fun j => b (68 + j.val))

/-- Byte `k` of a little-endian u16 (R61): the low byte at an even offset, the high one at an odd offset. -/
def byteOfHalf (v : Half) (k : Nat) : Byte := if k % 2 = 0 then lowByte v else highByte v

/-- Byte `k` of `encodeRecord` (R120, R126), for `k` in 0..87. -/
def recordByte (r : Rec) (k : Nat) : Byte :=
  if h : k < 64 then byteOfHalf (flipMarker (r.ramp[k / 2])) k
  else if k < 66 then byteOfHalf (flipMarker r.tstart) k
  else if k < 68 then byteOfHalf (flipMarker r.tend) k
  else if h : k < 88 then (encodeName r.name)[k - 68]
  else 0

/-- `encodeRecord` (R126). -/
def encodeRecord (r : Rec) : Vector Byte 88 := Vector.ofFn fun k => recordByte r k.val

/-- `decodeBlock` (R121, R132), of the 708 bytes of a block given by their offset. -/
def decodeBlock (b : Nat → Byte) : Word × Vector Rec 8 :=
  (wordOfBytes (b 0) (b 1) (b 2) (b 3),
   Vector.ofFn fun k => decodeRecord fun j => b (4 + 88 * k.val + j))

/-- Byte `k` of `encodeBlock` (R121, R133), for `k` in 0..707. -/
def blockByte (h : Word) (recs : Vector Rec 8) (k : Nat) : Byte :=
  if k < 4 then byteOfWord h k
  else if hk : (k - 4) / 88 < 8 then recordByte (recs[(k - 4) / 88]) ((k - 4) % 88)
  else 0

/-- `encodeBlock` (R133). -/
def encodeBlock (h : Word) (recs : Vector Rec 8) : Vector Byte 708 :=
  Vector.ofFn fun k => blockByte h recs k.val

/-- RLOAD s (R127). -/
def execRload (n : Slot) (s : State) : Host.Outcome State Fault Refusal :=
  s.finish (s.commandError (.rload n)) (s.setSlot n (decodeRecord (Memory.bytesFrom s.mem s.addr.toNat)))

/-- RSTORE s (R130). -/
def execRstore (n : Slot) (s : State) : Host.Outcome State Fault Refusal :=
  s.finish (s.commandError (.rstore n))
    (s.setMem (Memory.writeBytes s.mem s.addr.toNat (encodeRecord (s.slot n)).toList))

/-- RCLR s (R129): the default record of R128. -/
def execRclr (n : Slot) (s : State) : Host.Outcome State Fault Refusal :=
  s.finish none (s.setSlot n Rec.default)

/-- BLOAD (R131). -/
def execBload (s : State) : Host.Outcome State Fault Refusal :=
  let d := decodeBlock (Memory.bytesFrom s.mem s.addr.toNat)
  s.finish (s.commandError .bload) (s.setBlock d.1 d.2)

/-- BSTORE (R134): the header check, then the footprint check, then the write. -/
def execBstore (s : State) : Host.Outcome State Fault Refusal :=
  s.finish (s.commandError .bstore)
    (s.setMem (Memory.writeBytes s.mem s.addr.toNat (encodeBlock s.hdr s.bank).toList))

end Sys2Proof.Machine
end

