-- ==== Sys2Proof/Machine/Dispatch.lean ====
section
/-! DEFINITION. The dispatch: one arm per constructor of `Instr`, each one call of its meaning (R171). -/

namespace Sys2Proof.Machine

def exec (i : Instr) (s : State) : Host.Outcome State Fault Refusal :=
  match i with
  | .enc => Sys2Proof.Machine.execEnc s
  | .dec => Sys2Proof.Machine.execDec s
  | .mkset => Sys2Proof.Machine.execMkset s
  | .mkclr => Sys2Proof.Machine.execMkclr s
  | .rload n => Sys2Proof.Machine.execRload n s
  | .rstore n => Sys2Proof.Machine.execRstore n s
  | .rclr n => Sys2Proof.Machine.execRclr n s
  | .bload => Sys2Proof.Machine.execBload s
  | .bstore => Sys2Proof.Machine.execBstore s
  | .remapF n => Sys2Proof.Machine.execRemapF n s
  | .remapG n => Sys2Proof.Machine.execRemapG n s
  | .pixF n => Sys2Proof.Machine.execPixF n s
  | .pixG n => Sys2Proof.Machine.execPixG n s

end Sys2Proof.Machine
end

