-- ==== Sys2Proof/Machine/MemoryPort.lean ====
section
/-! DEFINITION. What a command does at the memory port, access by access (R64, R71, R201): the order a platform
could see, and the writes a reset can cut short (R191). -/

namespace Sys2Proof.Machine

/-- One access of the engine at the memory port: always one byte (R64). -/
inductive PortAccess where
  | read (address : Nat)
  | write (address : Nat) (value : Byte)
deriving DecidableEq, Repr

/-- Reads of `n` bytes at ascending addresses (R71). -/
def readsFrom (a n : Nat) : List PortAccess := (List.range n).map fun k => .read (a + k)

/-- Writes of the given bytes at ascending addresses (R71). -/
def writesFrom : Nat → List Byte → List PortAccess
  | _, [] => []
  | a, b :: bs => .write a b :: writesFrom (a + 1) bs

/-- The accesses of one pixel's visit (R71): its two bytes read, low address first, then, if it is replaced, its two
bytes written, low address first. -/
def pixelAccesses (m : Memory) (ramp : Vector Half 32) (gray : Bool) (a : Nat) : List PortAccess :=
  let r := remapPixel (Memory.readHalf m a) ramp gray
  [.read a, .read (a + 1)] ++
    if r.1 then [.write a (lowByte r.2), .write (a + 1) (highByte r.2)] else []

/-- The accesses of REMAP, pixel by pixel in row-major order (R71). -/
def State.remapAccesses (s : State) (gray : Bool) (n : Slot) : List PortAccess :=
  (rasterPixels s.addr.toNat s.width.toNat s.height.toNat s.stride.toNat).flatMap
    (pixelAccesses s.mem (s.slot n).ramp gray)

/-- The accesses of a command that passes its checks (R71, R201). -/
def State.accessesOf (s : State) : Instr → List PortAccess
  | .rload _  => readsFrom s.addr.toNat Config.recBytes
  | .rstore n => writesFrom s.addr.toNat (encodeRecord (s.slot n)).toList
  | .bload    => readsFrom s.addr.toNat Config.blockBytes
  | .bstore   => writesFrom s.addr.toNat (encodeBlock s.hdr s.bank).toList
  | .remapF n => s.remapAccesses false n
  | .remapG n => s.remapAccesses true n
  | .enc | .dec | .mkset | .mkclr | .rclr _ | .pixF _ | .pixG _ => []

/-- Everything a command does at the memory port: nothing if one of its checks fails (R67, R181). -/
def State.portTrace (s : State) (i : Instr) : List PortAccess :=
  match s.commandError i with
  | some _ => []
  | none => s.accessesOf i

/-- The address a port access reads, if it reads. -/
def PortAccess.readAddress : PortAccess → Option Nat
  | .read a => some a
  | .write _ _ => none

/-- The byte a port access writes, if it writes. -/
def PortAccess.written : PortAccess → Option (Nat × Byte)
  | .read _ => none
  | .write a v => some (a, v)

/-- The addresses a command reads, in order. -/
def State.portReads (s : State) (i : Instr) : List Nat := (s.portTrace i).filterMap PortAccess.readAddress

/-- The bytes a command writes, in order: its write footprint and the values it would give it (R191). -/
def State.portWrites (s : State) (i : Instr) : List (Nat × Byte) :=
  (s.portTrace i).filterMap PortAccess.written

/-- Host memory after a reset that abandons the latched command: each byte of its write footprint holds its old or
its new value, drawn per byte (R191). -/
def State.interruptedMemory (s : State) : Memory :=
  match decode s.cmdLatch with
  | .ok i =>
    Memory.replay s.mem ((s.portWrites i).filter fun w => Config.resetTakesNew s.draws w.1)
  | .error _ => s.mem

end Sys2Proof.Machine
end

