-- ==== Sys2Proof/Machine/HostPort.lean ====
section
/-! DEFINITION. The register port and everything else the outside world does to the block: the register map (R21,
R31, R32), host reads and writes (R50 to R59), accesses to host memory and their hazard (R72, R196), the
admission map (R8) and the reset input (R190, R191). -/

namespace Sys2Proof.Machine

/-- What stands at a window offset that is a multiple of 4 (R21, R31). -/
inductive Reg where
  | cmd
  | status
  | addr
  | width
  | height
  | stride
  | opnd
  | result
  | hdr
  | errAddr
  | ramp (n : Slot) (i : Fin 32)
  | tstart (n : Slot)
  | tend (n : Slot)
  | name (n : Slot) (j : Fin 5)
  | reserved
deriving DecidableEq, Repr

/-- The map of one slot of the REC window, by the offset from the slot base (R31). -/
def slotReg (n : Slot) (off : Nat) : Reg :=
  if h : off / 4 < 32 then .ramp n ⟨off / 4, h⟩
  else if off = 0x80 then .tstart n
  else if off = 0x84 then .tend n
  else if h : (off - 0x88) / 4 < 5 then .name n ⟨(off - 0x88) / 4, h⟩
  else .reserved

/-- The register map (R21), for an offset that is a multiple of 4. -/
def regAt (offset : BitVec 12) : Reg :=
  match offset.toNat with
  | 0x000 => .cmd
  | 0x004 => .status
  | 0x008 => .addr
  | 0x00C => .width
  | 0x010 => .height
  | 0x014 => .stride
  | 0x018 => .opnd
  | 0x01C => .result
  | 0x020 => .hdr
  | 0x024 => .errAddr
  | o =>
    if o < 0x400 then .reserved
    else if h : (o - 0x400) / 0x100 < 8 then slotReg ⟨(o - 0x400) / 0x100, h⟩ ((o - 0x400) % 0x100)
    else .reserved

/-- A word of a name, little-endian (R32). -/
def nameWord (n : Vector Byte 20) (j : Fin 5) : Word :=
  wordOfBytes (n[4 * j.val]) (n[4 * j.val + 1]) (n[4 * j.val + 2]) (n[4 * j.val + 3])

/-- A name with the four bytes of one word set (R32). -/
def setNameWord (n : Vector Byte 20) (j : Fin 5) (v : Word) : Vector Byte 20 :=
  Vector.ofFn fun k => if k.val / 4 = j.val then byteOfWord v (k.val % 4) else n[k]

/-- The exact value of a register, reserved bits 0 (R50): CMD and the reserved offsets read 0 (R22, R39). -/
def State.regValue (s : State) : Reg → Word
  | .cmd      => 0
  | .status   => s.status.toWord
  | .addr     => s.addr
  | .width    => s.width.setWidth 32
  | .height   => s.height.setWidth 32
  | .stride   => s.stride.setWidth 32
  | .opnd     => s.opnd
  | .result   => s.result
  | .hdr      => s.hdr
  | .errAddr  => s.errAddr
  | .ramp n i => ((s.slot n).ramp[i]).setWidth 32
  | .tstart n => (s.slot n).tstart.setWidth 32
  | .tend n   => (s.slot n).tend.setWidth 32
  | .name n j => nameWord (s.slot n).name j
  | .reserved => 0

/-- Whether a register's value is unspecified while BUSY = 1 (R57). -/
def Reg.openWhileBusy : Reg → Bool
  | .result | .hdr | .errAddr | .ramp _ _ | .tstart _ | .tend _ | .name _ _ => true
  | .cmd | .status | .addr | .width | .height | .stride | .opnd | .reserved => false

/-- The bits a register uses; the others read 0 (R21, R31, R39). -/
def Reg.usedBits : Reg → Word
  | .ramp _ _ | .tstart _ | .tend _ | .width | .height | .stride => 0x0000FFFF
  | .status => 0x00000F1F
  | .cmd | .reserved => 0
  | .addr | .opnd | .result | .hdr | .errAddr | .name _ _ => 0xFFFFFFFF

/-- A host read (R50, R57): the value, and what it leaves. A read changes no state of the block. It draws a free value
where R57 leaves the value open, and a read of STATUS with BUSY = 0 closes every window of exclusive use
(R72, R196). -/
def State.hostRead (s : State) (r : Reg) : State :=
  if s.status.busy && r.openWhileBusy then
    { s with readData := Config.busyRead s.draws &&& r.usedBits, draws := s.draws + 1 }
  else
    { s with
      readData   := s.regValue r
      unobserved := if r = .status && !s.status.busy then [] else s.unobserved }

/-- A host write is dropped and flagged (R51, R56, R185). -/
def State.dropWrite (s : State) : State := { s with status := s.status.overrun }

/-- A host write of CMD (R51). -/
def State.writeCmd (s : State) (v : Word) : State :=
  if s.status.busy || s.status.err then s.dropWrite else s.acceptCommand v

/-- A host write of a register while BUSY = 0, other than CMD and STATUS (R53, R54, R55, R59). -/
def State.writeIdle (s : State) (v : Word) : Reg → State
  | .addr     => { s with addr := v }
  | .width    => { s with width := v.setWidth 16 }
  | .height   => { s with height := v.setWidth 16 }
  | .stride   => { s with stride := v.setWidth 16 }
  | .opnd     => { s with opnd := v }
  | .hdr      => { s with hdr := v, status := s.status.establishHeader }
  | .ramp n i => s.setSlot n { s.slot n with ramp := (s.slot n).ramp.set i.val (v.setWidth 16) }
  | .tstart n => s.setSlot n { s.slot n with tstart := v.setWidth 16 }
  | .tend n   => s.setSlot n { s.slot n with tend := v.setWidth 16 }
  | .name n j => s.setSlot n { s.slot n with name := setNameWord (s.slot n).name j v }
  | .cmd | .status | .result | .errAddr | .reserved => s

/-- A host write of a register (R51 to R56, R59). While BUSY = 1 only CMD and STATUS take a write; a write to any
other register is dropped and sets OVR, and a write to a reserved offset does nothing (R39). -/
def State.hostWrite (s : State) (r : Reg) (v : Word) : State :=
  match r with
  | .cmd      => s.writeCmd v
  | .status   => s.writeStatus v
  | .reserved => s
  | r         => if s.status.busy then s.dropWrite else s.writeIdle v r

/-- Whether an access to the register window is one the spec gives a meaning (R21, R58). -/
def wholeWordAccess (offset : BitVec 12) (w : BusWidth) : Bool := w == .word && offset.toNat % 4 == 0

/-- Whether a byte of memory is under exclusive use: it is in the footprint of a command whose end the host has not
seen (R72, R196). -/
def State.exclusive (s : State) (a : Word) : Bool := s.unobserved.any fun f => f.bytes.contains a.toNat

/-- The reset input (R190, R191): every register, the hidden state and the slots take their reset values; host memory
is kept, but for the write footprint of a command in flight. What is not the block's stays: the admission map,
the windows of exclusive use, the actions to come (log entry 6). -/
def State.resetInput (s : State) : State :=
  { State.reset with
    mem        := if s.status.busy then s.interruptedMemory else s.mem
    denied     := s.denied
    unobserved := s.unobserved
    pending    := s.pending
    readData   := s.readData
    draws      := if s.status.busy then s.draws + 1 else s.draws }

/-- One action of the outside world. -/
def hostStep (a : HostAction) (s : State) : Host.Outcome State Fault Refusal :=
  match a with
  | .readReg offset w =>
    if wholeWordAccess offset w then .next (s.hostRead (regAt offset)) else .refused .hostSubword
  | .writeReg offset w v =>
    if wholeWordAccess offset w then .next (s.hostWrite (regAt offset) v) else .refused .hostSubword
  | .readMem addr =>
    if s.exclusive addr then .fault .footprintHazard
    else .next { s with readData := (Memory.read s.mem addr.toNat).setWidth 32 }
  | .writeMem addr v =>
    if s.exclusive addr then .fault .footprintHazard
    else .next { s with mem := Memory.write s.mem addr.toNat v }
  | .setAdmission d =>
    if s.status.busy then .refused .admissionFixedInFlight else .next { s with denied := d }
  | .reset => .next s.resetInput

end Sys2Proof.Machine
end

