-- ==== Sys2Proof/Machine/Engine.lean ====
section
/-! DEFINITION. The engine's perform step (R171) and which agent moves next (R6). -/

namespace Sys2Proof.Machine

/-- The perform step (R171): decode the latched word, raise ILLEGAL for a word that is no command (R175), else run the
command. -/
def perform (s : State) : Host.Outcome State Fault Refusal :=
  match decode s.cmdLatch with
  | .ok i => exec i s
  | .error _ => .next (s.raise (.plain .illegal))

/-- Whether the engine moves next (R171): its step is enabled while BUSY = 1, and no action from outside that is
marked `early` is waiting (log entry 2). -/
def State.engineMoves (s : State) : Bool :=
  s.status.busy &&
    match s.pending with
    | [] => true
    | a :: _ => !a.early

/-- The next action from outside, where there is one; with none, an idle block waits for a CMD write (R187, R192). -/
def outsideStep (s : State) : Host.Outcome State Fault Refusal :=
  match s.pending with
  | [] => .next s
  | a :: rest => hostStep a.action { s with pending := rest }

/-- The outside world waits until the command in flight has been performed. -/
def holdBack : List HostInput → List HostInput
  | [] => []
  | a :: rest => { a with early := false } :: rest

/-- The state in which a command word has just been accepted and the engine moves next: what the host's CMD write of
R51 leaves, after the STATUS write that R182 asks for where an error was pending (log entry 8). -/
def State.loadCommand (s : State) (v : Word) : State :=
  { (s.writeStatus 0x4).acceptCommand v with pending := holdBack s.pending }

end Sys2Proof.Machine
end

