-- ==== Sys2Proof/Machine/Step.lean ====
section
/-! DEFINITION. One step of the block and its surroundings: the engine performs the command in flight, or the outside
world acts (R6, R171). -/

namespace Sys2Proof.Machine

/-- One step. -/
def step (s : State) : Host.Outcome State Fault Refusal :=
  if s.engineMoves then perform s else outsideStep s

/-- `s` with a command word accepted, so that the next step performs it. A command is one 32-bit word and the block
fetches nothing from memory (R37, R75, R89): the word stands in CMDLATCH. -/
def State.withFetchWord (s : State) (nbits w : Nat) : State :=
  s.loadCommand (BitVec.ofNat 32 (w % 2 ^ nbits))

end Sys2Proof.Machine
end

