-- ==== Sys2Proof/Machine/HostApi.lean ====
section
/-! DEFINITION. The host sequences of R92 in the notation of R91: what the source's API calls expand to. None of them
is a command of the block. `waits` is how many reads of a POLL still find BUSY = 1 (log entry 14). -/

namespace Sys2Proof.Machine.HostApi

/-! ## Notation (R91) -/

/-- `WR` at a window offset. -/
def wr (offset : BitVec 12) (v : Word) : HostInput := ⟨false, .writeReg offset .word v⟩

/-- `RD` at a window offset. -/
def rd (offset : BitVec 12) : HostInput := ⟨false, .readReg offset .word⟩

/-- The window offset of a field of `REC[n]`, by its place in the slot (R31). -/
def recField (n : Slot) (off : Nat) : BitVec 12 := BitVec.ofNat 12 (0x400 + 0x100 * n.val + off)

/-- `CMD <mnemonic>`. -/
def cmd (i : Instr) : HostInput := wr 0x000 (encode i)

/-- `POLL`: STATUS is read until BUSY = 0. An early read comes before the engine's step and finds BUSY = 1; the last one
comes after it. -/
def poll (waits : Nat) : List HostInput := List.replicate waits ⟨true, .readReg 0x004 .word⟩ ++ [rd 0x004]

/-- `CMD <mnemonic>; POLL`. -/
def issue (i : Instr) (waits : Nat) : List HostInput := cmd i :: poll waits

/-- `check STATUS.ERR`, on the word the last read of POLL returned. -/
def sawError (status : Word) : Bool := status.getLsbD 2

/-! ## The color calls -/

/-- `rgbToHueColor(r, g, b)` (R92); its value is `hueColorOf` what the last read returns. -/
def rgbToHueColor (r g b : Byte) (waits : Nat) : List HostInput :=
  wr 0x018 (resultOfRgb r g b) :: issue .enc waits ++ [rd 0x01C]

/-- Bits 15:0 of RESULT (R92). -/
def hueColorOf (result : Word) : Half := result.setWidth 16

/-- `hueColorToRgb(c)` (R92); its value is `rgbOf` what the last read returns. -/
def hueColorToRgb (c : Half) (waits : Nat) : List HostInput :=
  wr 0x018 (c.setWidth 32) :: issue .dec waits ++ [rd 0x01C]

/-- Red, green and blue: bits 23:16, 15:8 and 7:0 of RESULT (R92). -/
def rgbOf (result : Word) : Byte × Byte × Byte := (operandRed result, operandGreen result, operandBlue result)

/-! ## The record calls -/

/-- Decode one record at `a` into slot `n` (R92). -/
def loadRecord (n : Slot) (a : Word) (waits : Nat) : List HostInput := wr 0x008 a :: issue (.rload n) waits

/-- Encode slot `n` into one record at `a` (R92). -/
def storeRecord (n : Slot) (a : Word) (waits : Nat) : List HostInput := wr 0x008 a :: issue (.rstore n) waits

/-- Host writes of `REC[n].RAMP` (R31, R92). -/
def writeRamp (n : Slot) (ramp : Vector Half 32) : List HostInput :=
  (List.finRange 32).map fun i => wr (recField n (4 * i.val)) (ramp[i].setWidth 32)

/-- Host writes of the name words of `REC[n]` (R32). -/
def writeName (n : Slot) (name : Vector Byte 20) : List HostInput :=
  (List.finRange 5).map fun j => wr (recField n (0x88 + 4 * j.val)) (nameWord name j)

/-- Host writes of every field of `REC[n]` (R31, R32). -/
def writeRecord (n : Slot) (r : Rec) : List HostInput :=
  writeRamp n r.ramp ++
    wr (recField n 0x80) (r.tstart.setWidth 32) :: wr (recField n 0x84) (r.tend.setWidth 32) :: writeName n r.name

/-- Host reads of every field of `REC[n]`, which stand in 39 words without a gap (R31, R32). -/
def readRecord (n : Slot) : List HostInput := (List.range 39).map fun k => rd (recField n (4 * k))

/-- Host reads of every slot. -/
def readSlots : List HostInput := (List.finRange 8).flatMap readRecord

/-! ## The remap call -/

/-- How the ramp of a remap call comes into its slot (R92). -/
inductive RampSource where
  /-- By RLOAD of a record at `a`. -/
  | record (a : Word) (waits : Nat)
  /-- By host writes of the ramp. -/
  | writes (ramp : Vector Half 32)
deriving DecidableEq, Repr

/-- The ramp placed in slot `n` (R92). -/
def placeRamp (n : Slot) : RampSource → List HostInput
  | .record a waits => loadRecord n a waits
  | .writes ramp => writeRamp n ramp

/-- `applyHue(buffer, ramp, grayOnly)` with slot `n` (R92); the host then checks `sawError` of what the last read returns. -/
def applyHue (n : Slot) (ramp : RampSource) (buffer : Word) (w h stride : Half) (grayOnly : Bool) (waits : Nat) :
    List HostInput :=
  placeRamp n ramp ++
    [wr 0x008 buffer, wr 0x00C (w.setWidth 32), wr 0x010 (h.setWidth 32), wr 0x014 (stride.setWidth 32)] ++
    issue (if grayOnly then .remapG n else .remapF n) waits

/-! ## The block calls -/

/-- One block of `loadPaletteFile` at `a`, with HDR and the slots read back (R92). -/
def loadBlock (a : Word) (waits : Nat) : List HostInput :=
  wr 0x008 a :: issue .bload waits ++ rd 0x020 :: readSlots

/-- How a header is established (R34, R92). -/
inductive HeaderSource where
  /-- By BLOAD of a block at `a`, which fills the slots too. -/
  | block (a : Word) (waits : Nat)
  /-- By a host write of HDR. -/
  | word (h : Word)
deriving DecidableEq, Repr

/-- The header established (R92). -/
def establishHeader : HeaderSource → List HostInput
  | .block a waits => wr 0x008 a :: issue .bload waits
  | .word h => [wr 0x020 h]

/-- How a slot comes to hold what is saved: every way a slot is filled (R30, R55, R127, R129). -/
inductive SlotSource where
  /-- It holds it already, by BLOAD or from before. -/
  | standing
  /-- By RCLR. -/
  | cleared (waits : Nat)
  /-- By RLOAD of a record at `a`. -/
  | record (a : Word) (waits : Nat)
  /-- By host writes of every field. -/
  | writes (r : Rec)
deriving DecidableEq, Repr

/-- One slot established (R92). -/
def establishSlot (n : Slot) : SlotSource → List HostInput
  | .standing => []
  | .cleared waits => issue (.rclr n) waits
  | .record a waits => loadRecord n a waits
  | .writes r => writeRecord n r

/-- One block of `savePaletteFile` at `a` (R92): the header, the slots, and then the store. -/
def saveBlock (a : Word) (header : HeaderSource) (slots : Vector SlotSource 8) (waits : Nat) : List HostInput :=
  establishHeader header ++ (List.finRange 8).flatMap (fun n => establishSlot n slots[n]) ++
    wr 0x008 a :: issue .bstore waits

end Sys2Proof.Machine.HostApi
end

