-- ==== Sys2Proof/Safety.lean ====
section
/-! DEFINITION. What a good state of the block is, in the terms the statements use. -/

namespace Sys2Proof.Safety

open Sys2Proof.Machine

/-- STATUS says one thing at a time (R23, R51, R170): DONE and ERR are never both 1, neither is 1 while BUSY = 1,
and ERRCODE is 0 exactly when ERR = 0 and is otherwise a code of R170. -/
structure StatusLegal (t : Status) : Prop where
  oneEnd     : ¬ (t.done = true ∧ t.err = true)
  busyClear  : t.busy = true → t.done = false ∧ t.err = false
  codeClear  : t.err = false → t.errCode = 0
  codeLegal  : t.err = true → 1 ≤ t.errCode.toNat ∧ t.errCode.toNat ≤ 5

/-- The invariant of the block and its surroundings: STATUS is legal, ERRADDR is 0 under a pending error other than
BUS (R35), memory keeps its canonical form (R60), and the footprint of a command in flight, computed from
the registers as they stand, is under exclusive use (R195, R196). -/
structure Inv (s : State) : Prop where
  status    : StatusLegal s.status
  errAddr   : s.status.err = true → s.status.errCode ≠ ErrorCode.bus.bits → s.errAddr = 0
  memory    : Memory.wf s.mem
  exclusive : s.status.busy = true → s.footprintOfWord s.cmdLatch ∈ s.unobserved

end Sys2Proof.Safety
end

