-- ==== Sys2Proof/Certificates/Slice0/Obligations.lean ====
section
/-! DEFINITION. The statements about the block for the provers, and the spec-side words they are written in: plain
arithmetic over the naturals, independent of the model's own functions. -/

/-! ## The words of the statements -/

namespace Sys2Proof.Statement

open Sys2Proof.Machine

/-- STATUS after a command that completed (R172). -/
def doneStatus (t : Status) : Status := { t with busy := false, done := true }

/-- STATUS after a command that ended with the error code `c` (R173). -/
def errorStatus (t : Status) (c : BitVec 4) : Status := { t with busy := false, err := true, errCode := c }

/-- The state after a command that ended with `E(c, a)` (R173): STATUS and ERRADDR change, nothing else. -/
def errorState (s : State) (c : BitVec 4) (a : Nat) : State :=
  { s with status := errorStatus s.status c, errAddr := BitVec.ofNat 32 a }

/-- The u16 at an address (R61). -/
def halfAt (m : Memory) (a : Nat) : Nat := (Memory.read m a).toNat + 256 * (Memory.read m (a + 1)).toNat

/-- The 5-bit level of a channel (R101). -/
def level (c : Nat) : Nat := if c * 31 / 255 = 0 ∧ c ≠ 0 then 1 else c * 31 / 255

/-- The red, green and blue fields of a 16-bit color (R13). -/
def redOf (p : Nat) : Nat := p / 1024 % 32
def greenOf (p : Nat) : Nat := p / 32 % 32
def blueOf (p : Nat) : Nat := p % 32

/-- The value full mode gives a pixel (R153, R154). -/
def fullPixel (ramp : Vector Half 32) (p : Nat) : Nat :=
  if p = 0 then 0 else (ramp[redOf p]'(Nat.mod_lt _ (by decide))).toNat

/-- The value gray-only mode gives a pixel (R153, R155). -/
def grayPixel (ramp : Vector Half 32) (p : Nat) : Nat :=
  if redOf p = greenOf p ∧ greenOf p = blueOf p then fullPixel ramp p else p

/-- `r` is the record that 88 bytes decode to (R120, R123, R125). -/
structure DecodedFrom (b : Nat → Byte) (r : Rec) : Prop where
  ramp   : ∀ i : Fin 32, (r.ramp[i]).toNat = ((b (2 * i)).toNat + 256 * (b (2 * i + 1)).toNat) % 32768 + 32768
  tstart : r.tstart.toNat = ((b 64).toNat + 256 * (b 65).toNat) % 32768 + 32768
  tend   : r.tend.toNat = ((b 66).toNat + 256 * (b 67).toNat) % 32768 + 32768
  ended  : ∀ j : Fin 20, (∃ k ≤ j.val, b (68 + k) = 0) → r.name[j] = 0
  text   : ∀ j : Fin 20, (∀ k ≤ j.val, b (68 + k) ≠ 0) →
    r.name[j] = if b (68 + j) = 0x0A then 0x20 else b (68 + j)

/-- `b` gives the 88 bytes a record encodes to (R120, R124, R126). -/
structure EncodedTo (r : Rec) (b : Nat → Byte) : Prop where
  ramp   : ∀ i : Fin 32, (b (2 * i)).toNat + 256 * (b (2 * i + 1)).toNat = ((r.ramp[i]).toNat + 32768) % 65536
  tstart : (b 64).toNat + 256 * (b 65).toNat = (r.tstart.toNat + 32768) % 65536
  tend   : (b 66).toNat + 256 * (b 67).toNat = (r.tend.toNat + 32768) % 65536
  ended  : ∀ j : Fin 20, (∃ k : Fin 20, k ≤ j ∧ r.name[k] = 0) → b (68 + j) = 0
  text   : ∀ j : Fin 20, (∀ k : Fin 20, k ≤ j → r.name[k] ≠ 0) → b (68 + j) = r.name[j]

/-- Every color field of the 88 bytes has bit 15 clear: condition 1 of R136. -/
def ColorsClear (b : Nat → Byte) : Prop :=
  ∀ i < 34, (b (2 * i)).toNat + 256 * (b (2 * i + 1)).toNat < 32768

/-- A name field is canonical: condition 2 of R136. -/
def CanonicalName (n : Nat → Byte) : Prop :=
  (∀ j < 20, n j = 0x0A → ∃ k < j, n k = 0) ∧ (∀ j < 20, ∀ k < j, n k = 0 → n j = 0)

/-- `b` is the lowest byte of a footprint that the memory system refuses for a kind in `ks` (R66). -/
def LowestRefused (s : State) (inFootprint : Nat → Prop) (ks : List AccessKind) (b : Nat) : Prop :=
  inFootprint b ∧ (∃ k ∈ ks, s.admits b k = false) ∧
    ∀ c, inFootprint c → (∃ k ∈ ks, s.admits c k = false) → b ≤ c

/-- Every byte of a footprint is admitted for every kind in `ks` (R66). -/
def AllAdmitted (s : State) (inFootprint : Nat → Prop) (ks : List AccessKind) : Prop :=
  ∀ b, inFootprint b → ∀ k ∈ ks, s.admits b k = true

/-- The `n` bytes from `a` on (R65). -/
def bytesOf (a n : Nat) : Nat → Prop := fun b => a ≤ b ∧ b < a + n

/-- The bytes of the pixels of the raster buffer the registers describe (R65, R150). -/
def pixelBytes (s : State) : Nat → Prop := fun b =>
  ∃ y < s.height.toNat, ∃ x < s.width.toNat,
    b = pixelAddress s.addr.toNat s.stride.toNat x y ∨ b = pixelAddress s.addr.toNat s.stride.toNat x y + 1

/-- The address of the last byte of the raster buffer the registers describe (R66). -/
def lastPixelByte (s : State) : Nat :=
  s.addr.toNat + 2 * ((s.height.toNat - 1) * s.stride.toNat + (s.width.toNat - 1)) + 1

/-- RESULT after one color command and then another on its RESULT (R85). -/
def feed (i j : Instr) (s : State) : Option Word :=
  match exec i s with
  | .next t =>
    match exec j { t with opnd := t.result } with
    | .next u => some u.result
    | _ => none
  | _ => none

/-- What a host read at a window offset returns (R50). -/
def readAt (s : State) (offset : Nat) : Option Word :=
  match hostStep (.readReg (BitVec.ofNat 12 offset) .word) s with
  | .next t => some t.readData
  | _ => none

/-- The errors each command can raise, by their codes (R180). -/
def possibleErrors : Instr → List (BitVec 4)
  | .rload _ | .rstore _ | .bload => [3, 4]
  | .bstore => [5, 3, 4]
  | .remapF _ | .remapG _ => [2, 3, 4]
  | .enc | .dec | .mkset | .mkclr | .rclr _ | .pixF _ | .pixG _ => []

/-- The offsets at which a host write of an idle block sets a register, each with the bits it sets (R53 to R55). -/
def WritableBits (offset : Nat) (bits : Nat) : Prop :=
  (offset ∈ [0x008, 0x018, 0x020] ∧ bits = 32) ∨ (offset ∈ [0x00C, 0x010, 0x014] ∧ bits = 16) ∨
  (∃ n < 8, ∃ i < 34, offset = 0x400 + 0x100 * n + 4 * i ∧ bits = 16) ∨
  (∃ n < 8, ∃ j < 5, offset = 0x488 + 0x100 * n + 4 * j ∧ bits = 32)

/-- The reserved offsets of the window (R39). -/
def ReservedOffset (offset : Nat) : Prop :=
  offset % 4 = 0 ∧ ((0x028 ≤ offset ∧ offset ≤ 0x3FC) ∨ (0xC00 ≤ offset ∧ offset ≤ 0xFFC) ∨
    (0x400 ≤ offset ∧ offset ≤ 0xBFC ∧ 0x9C ≤ offset % 0x100))

/-- The next action from outside is `a`, and it comes before the engine's step. -/
def ActsNext (s : State) (a : HostAction) (rest : List HostInput) : Prop :=
  s.engineMoves = false ∧ ∃ e, s.pending = ⟨e, a⟩ :: rest

/-- The action is an access from outside that the spec gives a meaning: a whole-word register access (R58), or a memory
access to a byte of no window of exclusive use (R196). -/
def IsPlainAccess (s : State) : HostAction → Prop
  | .readReg o w => w = .word ∧ o.toNat % 4 = 0
  | .writeReg o w _ => w = .word ∧ o.toNat % 4 = 0
  | .readMem a | .writeMem a _ => ∀ f ∈ s.unobserved, a.toNat ∉ f.bytes
  | .setAdmission _ | .reset => False

end Sys2Proof.Statement

open Sys2Proof Sys2Proof.Machine Sys2Proof.Statement

/-! ## Encoding -/

/-- R90: the words of the example lines, and one word of every family from the opcode map (R81), decode to their
commands. -/
def Obligations.ExampleWordsDecode : Prop :=
  decode 0x00000310 = .ok (.rload 3) ∧ decode 0x00000A20 = .ok (.remapG 2) ∧
  decode 0x00000721 = .ok (.pixF 7) ∧ decode 0x00000001 = .ok .enc ∧
  decode 0x00000013 = .ok .bload ∧ decode 0x00000F21 = .ok (.pixG 7) ∧
  decode 0x00000101 = .error .slotUnused ∧ decode 0x00000910 = .error .modeUnused

/-- R87, R90: a word decodes to a command exactly when it is the command's word: every field is read and none is
dropped, and no other word is that command. -/
def Obligations.DecodeIsInverseOfEncode : Prop :=
  ∀ (v : Word) (i : Instr), decode v = .ok i ↔ v = encode i

/-- R87: exactly the words matched by one row of the opcode table decode, each to that row's command with the slot of
its bits 10:8, and no word is matched by two rows. -/
def Obligations.DecodeFollowsOpcodeTable : Prop :=
  ∀ v : Word,
    (∀ i, decode v = .ok i ↔ ∃ r ∈ opcodeRows, r.covers v = true ∧ r.mnemonic = i.toLine.mnemonic ∧
      (i.toLine.operand = none ∨ i.toLine.operand = some (v.toNat / 256 % 8))) ∧
    ∀ r ∈ opcodeRows, ∀ r' ∈ opcodeRows, r.covers v = true → r'.covers v = true → r = r'

/-- R175: an ILLEGAL word is performed as error ILLEGAL, and nothing but STATUS and ERRADDR changes. -/
def Obligations.IllegalWordRaisesIllegal : Prop :=
  ∀ s : State, s.engineMoves = true →
    let v := s.cmdLatch.toNat
    (v % 256 ∉ [0x01, 0x02, 0x03, 0x04, 0x10, 0x11, 0x12, 0x13, 0x14, 0x20, 0x21] ∨ v / 4096 ≠ 0 ∨
      (v % 256 ∈ [0x01, 0x02, 0x03, 0x04, 0x13, 0x14] ∧ v / 256 % 8 ≠ 0) ∨
      (v % 256 ∉ [0x20, 0x21] ∧ v / 2048 % 2 = 1)) →
    step s = .next (errorState s 1 0)

/-! ## The step -/

/-- R171: when the engine moves and the latched word decodes to a command, the step is that command and nothing
else; and a command just loaded is what the next step runs. -/
def Obligations.StepRunsTheLatchedCommand : Prop :=
  (∀ (s : State) (i : Instr), s.engineMoves = true → decode s.cmdLatch = .ok i → step s = exec i s) ∧
  (∀ (s : State) (i : Instr),
    step (s.withFetchWord 32 (encode i).toNat) = exec i (s.loadCommand (encode i)) ∧
    (s.loadCommand (encode i)).cmdLatch = encode i ∧ (s.loadCommand (encode i)).status.busy = true ∧
    (s.loadCommand (encode i)).mem = s.mem ∧ (s.loadCommand (encode i)).bank = s.bank)

/-- R6, R200: when the engine does not move, the step is the next action from outside, in the order of issue, and an
idle block with no action to come waits. -/
def Obligations.OutsideActsInOrder : Prop :=
  (∀ (s : State) (a : HostAction) (rest : List HostInput), ActsNext s a rest →
    step s = hostStep a { s with pending := rest }) ∧
  (∀ s : State, s.status.busy = false → s.pending = [] → step s = .next s)

/-- R171, R198: a command in flight is performed, whatever word it is, by the step in which the engine moves: it ends
idle, with DONE or with ERR. -/
def Obligations.PerformEndsTheCommand : Prop :=
  ∀ s : State, s.engineMoves = true → s.status.done = false → s.status.err = false →
    ∃ t, step s = .next t ∧ t.status.busy = false ∧ (t.status.done = true ↔ t.status.err = false)

/-- R171, R198: no access from outside can hold an accepted command up: whatever register accesses and accesses to
memory outside every window come first, the command has finished after one step more than their number. -/
def Obligations.AcceptedCommandFinishes : Prop :=
  ∀ s : State, s.status.busy = true →
    let early := s.pending.takeWhile (·.early)
    (∀ a ∈ early, IsPlainAccess s a.action) →
    ∃ t, Sys2Proof.core.run (early.length + 1) s = .next t ∧ t.status.busy = false ∧
      t.pending = s.pending.drop early.length

/-! ## Color codec -/

/-- R100, R101: ENC. -/
def Obligations.EncGivesScaledColor : Prop :=
  decode 0x00000001 = .ok .enc ∧
  ∀ s : State,
    let o := s.opnd.toNat
    exec .enc s = .next { s with
      status := doneStatus s.status
      result := BitVec.ofNat 32
        (level (o / 65536 % 256) * 1024 + level (o / 256 % 256) * 32 + level (o % 256)) }

/-- R102, R103: DEC. -/
def Obligations.DecGivesExpandedChannels : Prop :=
  decode 0x00000002 = .ok .dec ∧
  ∀ s : State,
    let c := s.opnd.toNat % 65536
    exec .dec s = .next { s with
      status := doneStatus s.status
      result := BitVec.ofNat 32 (8 * redOf c * 65536 + 8 * greenOf c * 256 + 8 * blueOf c) }

/-- R104: MKSET. -/
def Obligations.MksetSetsBit15 : Prop :=
  decode 0x00000003 = .ok .mkset ∧
  ∀ s : State, exec .mkset s = .next { s with
    status := doneStatus s.status
    result := BitVec.ofNat 32 (s.opnd.toNat % 32768 + 32768) }

/-- R105: MKCLR flips bit 15, and does not clear it. -/
def Obligations.MkclrFlipsBit15 : Prop :=
  decode 0x00000004 = .ok .mkclr ∧
  ∀ s : State, exec .mkclr s = .next { s with
    status := doneStatus s.status
    result := BitVec.ofNat 32 ((s.opnd.toNat + 32768) % 65536) }

/-- R106: the round trip RGB to HueColor to RGB, channel by channel, by the formula of R106; it is the identity at 0 and, by
that formula, at 8 (log entry 10). -/
def Obligations.RgbRoundTrip : Prop :=
  (∀ s : State,
    let o := s.opnd.toNat
    let back := fun c : Nat => 8 * max (c * 31 / 255) (if c ≠ 0 then 1 else 0)
    feed .enc .dec s =
      some (BitVec.ofNat 32 (back (o / 65536 % 256) * 65536 + back (o / 256 % 256) * 256 + back (o % 256)))) ∧
  (∀ c : Byte, expand8 (scale5 c) = c ↔ c = 0 ∨ c = 8)

/-- R107: the round trip HueColor to RGB to HueColor keeps fields 0 and 1, lowers every other field by one and clears
the marker. -/
def Obligations.HueColorRoundTrip : Prop :=
  ∀ s : State,
    let c := s.opnd.toNat % 65536
    let back := fun f : Nat => if f ≤ 1 then f else f - 1
    feed .dec .enc s =
      some (BitVec.ofNat 32 (back (redOf c) * 1024 + back (greenOf c) * 32 + back (blueOf c)))

/-- R108: the smallest channel value of each 5-bit level, with the forced level 1 and without it. -/
def Obligations.ScaleLevelBoundaries : Prop :=
  ∀ (k : Fin 32) (c : Byte), 1 ≤ k.val →
    (k.val ≤ (scale5 c).toNat ↔ (if k.val = 1 then 1 else (255 * k.val + 30) / 31) ≤ c.toNat) ∧
    (k.val ≤ c.toNat * 31 / 255 ↔ (255 * k.val + 30) / 31 ≤ c.toNat)

/-- R109: the marker laws, on RESULT fed back to OPND. -/
def Obligations.MarkerLaws : Prop :=
  ∀ s : State,
    feed .mkclr .mkclr s = some (BitVec.ofNat 32 (s.opnd.toNat % 65536)) ∧
    feed .mkset .mkclr s = some (BitVec.ofNat 32 (s.opnd.toNat % 32768)) ∧
    (s.opnd.toNat % 32768 = s.opnd.toNat % 65536 ↔ s.opnd.toNat / 32768 % 2 = 0) ∧
    feed .mkclr .mkset s = some (BitVec.ofNat 32 (s.opnd.toNat % 32768 + 32768))

/-! ## Record codec -/

/-- R127: RLOAD s: RANGE, BUS at the lowest byte not admitted for read, or the record decoded into slot `s`, no other
slot and nothing else but STATUS changing. -/
def Obligations.RloadDecodesOneRecord : Prop :=
  ∀ (n : Slot) (s : State),
    let a := s.addr.toNat
    let f := bytesOf a 88
    decode (BitVec.ofNat 32 (0x10 + 256 * n.val)) = .ok (.rload n) ∧
    (0xFFFFFFA8 < a → exec (.rload n) s = .next (errorState s 3 0)) ∧
    (a ≤ 0xFFFFFFA8 → ∀ b, LowestRefused s f [.read] b → exec (.rload n) s = .next (errorState s 4 b)) ∧
    (a ≤ 0xFFFFFFA8 → AllAdmitted s f [.read] →
      ∃ r, DecodedFrom (fun k => Memory.read s.mem (a + k)) r ∧
        exec (.rload n) s = .next { s with status := doneStatus s.status, bank := s.bank.set n.val r })

/-- R130: RSTORE s: RANGE, BUS at the lowest byte not admitted for write, or the record encoded at ADDR, every other
byte of memory and everything else but STATUS unchanged. -/
def Obligations.RstoreEncodesOneRecord : Prop :=
  ∀ (n : Slot) (s : State),
    let a := s.addr.toNat
    let f := bytesOf a 88
    decode (BitVec.ofNat 32 (0x11 + 256 * n.val)) = .ok (.rstore n) ∧
    (0xFFFFFFA8 < a → exec (.rstore n) s = .next (errorState s 3 0)) ∧
    (a ≤ 0xFFFFFFA8 → ∀ b, LowestRefused s f [.write] b → exec (.rstore n) s = .next (errorState s 4 b)) ∧
    (a ≤ 0xFFFFFFA8 → AllAdmitted s f [.write] →
      ∃ m, exec (.rstore n) s = .next { s with status := doneStatus s.status, mem := m } ∧
        EncodedTo (s.bank[n.val]) (fun k => Memory.read m (a + k)) ∧
        ∀ b, ¬ f b → Memory.read m b = Memory.read s.mem b)

/-- R128, R129: RCLR s sets slot `s` to the default record; no other slot and nothing else but STATUS changes. -/
def Obligations.RclrSetsDefaultRecord : Prop :=
  ∀ (n : Slot) (s : State),
    decode (BitVec.ofNat 32 (0x12 + 256 * n.val)) = .ok (.rclr n) ∧
    ∃ r : Rec, (∀ i : Fin 32, r.ramp[i] = 0) ∧ r.tstart = 0 ∧ r.tend = 0 ∧
      r.name.toList = [0x4E, 0x75, 0x6C, 0x6C] ++ List.replicate 16 0 ∧
      exec (.rclr n) s = .next { s with status := doneStatus s.status, bank := s.bank.set n.val r }

/-- R131, R132: BLOAD: RANGE, BUS at the lowest byte not admitted for read, or HDR, every slot and HDRV set from the
block, nothing else but DONE and BUSY changing. -/
def Obligations.BloadDecodesOneBlock : Prop :=
  decode 0x00000013 = .ok .bload ∧
  ∀ s : State,
    let a := s.addr.toNat
    let f := bytesOf a 708
    (0xFFFFFD3C < a → exec .bload s = .next (errorState s 3 0)) ∧
    (a ≤ 0xFFFFFD3C → ∀ b, LowestRefused s f [.read] b → exec .bload s = .next (errorState s 4 b)) ∧
    (a ≤ 0xFFFFFD3C → AllAdmitted s f [.read] →
      ∃ (h : Word) (recs : Vector Rec 8),
        h.toNat = halfAt s.mem a + 65536 * halfAt s.mem (a + 2) ∧
        (∀ k : Fin 8, DecodedFrom (fun j => Memory.read s.mem (a + 4 + 88 * k + j)) (recs[k])) ∧
        exec .bload s = .next { s with
          status := { doneStatus s.status with hdrv := true }, hdr := h, bank := recs })

/-- R133, R134, R135: BSTORE: NOHDR without an established header, then RANGE, then BUS at the lowest byte not
admitted for write, or HDR and every slot encoded at ADDR, every other byte of memory and everything else
but STATUS unchanged. -/
def Obligations.BstoreEncodesOneBlock : Prop :=
  decode 0x00000014 = .ok .bstore ∧
  ∀ s : State,
    let a := s.addr.toNat
    let f := bytesOf a 708
    (s.status.hdrv = false → exec .bstore s = .next (errorState s 5 0)) ∧
    (s.status.hdrv = true → 0xFFFFFD3C < a → exec .bstore s = .next (errorState s 3 0)) ∧
    (s.status.hdrv = true → a ≤ 0xFFFFFD3C → ∀ b, LowestRefused s f [.write] b →
      exec .bstore s = .next (errorState s 4 b)) ∧
    (s.status.hdrv = true → a ≤ 0xFFFFFD3C → AllAdmitted s f [.write] →
      ∃ m, exec .bstore s = .next { s with status := doneStatus s.status, mem := m } ∧
        halfAt m a + 65536 * halfAt m (a + 2) = s.hdr.toNat ∧
        (∀ k : Fin 8, EncodedTo (s.bank[k]) (fun j => Memory.read m (a + 4 + 88 * k + j))) ∧
        ∀ b, ¬ f b → Memory.read m b = Memory.read s.mem b)

/-- R137 (a): RLOAD at X and then RSTORE at Y give back the 88 bytes exactly if every color has bit 15 clear and the
name is canonical, and only then. -/
def Obligations.RecordBytesRoundTrip : Prop :=
  ∀ (n : Slot) (s t u : State) (y : Word), s.status.err = false →
    exec (.rload n) s = .next t → t.status.err = false →
    exec (.rstore n) { t with addr := y } = .next u → u.status.err = false →
    ((∀ k < 88, Memory.read u.mem (y.toNat + k) = Memory.read s.mem (s.addr.toNat + k)) ↔
      ColorsClear (fun k => Memory.read s.mem (s.addr.toNat + k)) ∧
      CanonicalName (fun j => Memory.read s.mem (s.addr.toNat + 68 + j)))

/-- R137 (b): RSTORE and then RLOAD at the same place give back the slot exactly if every color has bit 15 set and the
name is canonical, and only then. -/
def Obligations.RecordSlotRoundTrip : Prop :=
  ∀ (n : Slot) (s t u : State), s.status.err = false →
    exec (.rstore n) s = .next t → t.status.err = false →
    exec (.rload n) t = .next u → u.status.err = false →
    let r := s.bank[n.val]
    (u.bank[n.val] = r ↔
      (∀ i : Fin 32, (r.ramp[i]).getLsbD 15 = true) ∧ r.tstart.getLsbD 15 = true ∧
      r.tend.getLsbD 15 = true ∧ CanonicalName (fun j => r.name.toList.getD j 0))

/-- R136: BLOAD at X and then BSTORE at Y: the header always comes back; a color comes back with bit 15 clear; a name
byte before the terminator comes back, but a line feed as a space, and a later one as zero; and all 708 bytes
come back exactly if every color has bit 15 clear and every name is canonical, and only then. -/
def Obligations.BlockRoundTrip : Prop :=
  ∀ (s t u : State) (y : Word), s.status.err = false →
    exec .bload s = .next t → t.status.err = false →
    exec .bstore { t with addr := y } = .next u → u.status.err = false →
    let x := s.addr.toNat
    (∀ k < 4, Memory.read u.mem (y.toNat + k) = Memory.read s.mem (x + k)) ∧
    (∀ k < 8, ∀ i < 34, halfAt u.mem (y.toNat + 4 + 88 * k + 2 * i) =
      halfAt s.mem (x + 4 + 88 * k + 2 * i) % 32768) ∧
    (∀ k < 8, ∀ j < 20,
      let n := fun l => Memory.read s.mem (x + 4 + 88 * k + 68 + l)
      let back := Memory.read u.mem (y.toNat + 4 + 88 * k + 68 + j)
      ((∃ l ≤ j, n l = 0) → back = 0) ∧
      ((∀ l ≤ j, n l ≠ 0) → back = if n j = 0x0A then 0x20 else n j)) ∧
    ((∀ k < 708, Memory.read u.mem (y.toNat + k) = Memory.read s.mem (x + k)) ↔
      ∀ k < 8, ColorsClear (fun j => Memory.read s.mem (x + 4 + 88 * k + j)) ∧
        CanonicalName (fun j => Memory.read s.mem (x + 4 + 88 * k + 68 + j)))

/-! ## Pixel remap -/

/-- R157: PIX.F s. -/
def Obligations.PixFullMode : Prop :=
  ∀ (n : Slot) (s : State),
    decode (BitVec.ofNat 32 (0x21 + 256 * n.val)) = .ok (.pixF n) ∧
    exec (.pixF n) s = .next { s with
      status := doneStatus s.status
      result := BitVec.ofNat 32 (fullPixel (s.bank[n.val]).ramp (s.opnd.toNat % 65536)) }

/-- R158: PIX.G s. -/
def Obligations.PixGrayMode : Prop :=
  ∀ (n : Slot) (s : State),
    decode (BitVec.ofNat 32 (0x821 + 256 * n.val)) = .ok (.pixG n) ∧
    exec (.pixG n) s = .next { s with
      status := doneStatus s.status
      result := BitVec.ofNat 32 (grayPixel (s.bank[n.val]).ramp (s.opnd.toNat % 65536)) }

/-- R160, R161: REMAP.F s and REMAP.G s: GEOMETRY, then RANGE, then BUS at the lowest byte not admitted for read or for
write, or every pixel of the buffer given its mode's value, every other byte of memory (the padding among
them) and everything else but STATUS unchanged. -/
def Obligations.RemapRewritesEveryPixel : Prop :=
  ∀ (n : Slot) (s : State) (gray : Bool),
    let i := if gray then Instr.remapG n else Instr.remapF n
    let new := if gray then grayPixel (s.bank[n.val]).ramp else fullPixel (s.bank[n.val]).ramp
    let f := pixelBytes s
    decode (BitVec.ofNat 32 ((if gray then 0x820 else 0x20) + 256 * n.val)) = .ok i ∧
    (s.stride.toNat < s.width.toNat → exec i s = .next (errorState s 2 0)) ∧
    (s.width.toNat ≤ s.stride.toNat → 0 < s.width.toNat → 0 < s.height.toNat →
      0xFFFFFFFF < lastPixelByte s → exec i s = .next (errorState s 3 0)) ∧
    (s.width.toNat ≤ s.stride.toNat → lastPixelByte s ≤ 0xFFFFFFFF →
      ∀ b, LowestRefused s f [.read, .write] b → exec i s = .next (errorState s 4 b)) ∧
    (s.width.toNat ≤ s.stride.toNat →
      (s.width.toNat = 0 ∨ s.height.toNat = 0 ∨ lastPixelByte s ≤ 0xFFFFFFFF) →
      AllAdmitted s f [.read, .write] →
      ∃ m, exec i s = .next { s with status := doneStatus s.status, mem := m } ∧
        (∀ y < s.height.toNat, ∀ x < s.width.toNat,
          let p := pixelAddress s.addr.toNat s.stride.toNat x y
          halfAt m p = new (halfAt s.mem p)) ∧
        ∀ b, ¬ f b → Memory.read m b = Memory.read s.mem b)

/-- R162: the two modes on one pixel: the gray-only result is the pixel or the full-mode result, they agree on gray
pixels and on 0, and where they differ full mode replaces and gray-only mode keeps. -/
def Obligations.ModesDifferOnlyOnColoredPixels : Prop :=
  ∀ (n : Slot) (s f g : State), exec (.pixF n) s = .next f → exec (.pixG n) s = .next g →
    let p := s.opnd.toNat % 65536
    let gray := redOf p = greenOf p ∧ greenOf p = blueOf p
    (g.result.toNat = p ∨ g.result = f.result) ∧
    (gray ∨ p = 0 → g.result = f.result) ∧
    (g.result ≠ f.result → p ≠ 0 ∧ ¬ gray ∧ g.result.toNat = p ∧
      f.result.toNat = ((s.bank[n.val]).ramp[redOf p]'(Nat.mod_lt _ (by decide))).toNat)

/-- R164: which pixel values each mode replaces. -/
def Obligations.ReplacedPixelValues : Prop :=
  ∀ (p : Half) (ramp : Vector Half 32),
    ((remapPixel p ramp false).1 = true ↔ p ≠ 0) ∧
    ((remapPixel p ramp true).1 = true ↔ p ≠ 0 ∧ ∃ m < 2, ∃ k < 32,
      p.toNat = m * 32768 + k * 1024 + k * 32 + k)

/-- R163: a second pass of a mode replaces again, so neither mode is idempotent; but a second pass changes nothing where
every entry's red field is its own index and, in gray-only mode, every entry is gray or zero. -/
def Obligations.SecondPassOfAMode : Prop :=
  (∀ gray : Bool, ∃ (ramp : Vector Half 32) (p : Half),
    (remapPixel (remapPixel p ramp gray).2 ramp gray).2 ≠ (remapPixel p ramp gray).2) ∧
  (∀ (gray : Bool) (ramp : Vector Half 32), (∀ k : Fin 32, redOf (ramp[k]).toNat = k.val) →
    (gray = true → ∀ k : Fin 32, ramp[k] = 0 ∨
      (redOf (ramp[k]).toNat = greenOf (ramp[k]).toNat ∧ greenOf (ramp[k]).toNat = blueOf (ramp[k]).toNat)) →
    ∀ p : Half, (remapPixel (remapPixel p ramp gray).2 ramp gray).2 = (remapPixel p ramp gray).2)

/-! ## Errors -/

/-- R181: a command that ends with an error changes STATUS and ERRADDR as R173 says, and nothing else. -/
def Obligations.ErrorsLeaveEverythingElse : Prop :=
  ∀ (i : Instr) (s t : State), s.status.err = false → exec i s = .next t → t.status.err = true →
    t = { s with status := errorStatus s.status t.status.errCode, errAddr := t.errAddr } ∧
    (t.status.errCode ≠ 4 → t.errAddr = 0)

/-- R180: the errors each command can raise, and no others. -/
def Obligations.PossibleErrorsOfEachCommand : Prop :=
  ∀ (i : Instr) (c : BitVec 4),
    (∃ s t : State, s.status.err = false ∧ exec i s = .next t ∧ t.status.err = true ∧
      t.status.errCode = c) ↔ c ∈ possibleErrors i

/-- R182: while ERR = 1, only a host write of STATUS with bit 2 set, or reset, ends it, and that write keeps ERRADDR;
a command written meanwhile is dropped and sets OVR. -/
def Obligations.ErrorStaysUntilCleared : Prop :=
  (∀ s t : State, s.status.err = true → s.status.busy = false → step s = .next t →
    (t.status.err = true ∧ t.status.errCode = s.status.errCode ∧ t.errAddr = s.errAddr ∧
      t.status.busy = false) ∨
    (∃ rest w v, ActsNext s (.writeReg 0x004 w v) rest ∧ v.getLsbD 2 = true ∧
      t.status.err = false ∧ t.status.errCode = 0 ∧ t.errAddr = s.errAddr) ∨
    (∃ rest, ActsNext s .reset rest)) ∧
  (∀ (s : State) (v : Word), s.status.err = true →
    hostStep (.writeReg 0x000 .word v) s = .next { s with status := { s.status with ovr := true } })

/-! ## The memory port -/

/-- R71, R159: the memory a command leaves is what its one-byte writes at the memory port, in order, make of the memory
it found: the buffer walk, which reads as it goes, gives what its writes over the old pixels give. Memory is
plain, and the accesses are a function of the state before the command (log entry 16). -/
def Obligations.PortWritesGiveTheMemory : Prop :=
  ∀ (i : Instr) (s t : State), exec i s = .next t → t.mem = Memory.replay s.mem (s.portWrites i)

/-- R64, R65, R71: at the memory port every byte of the footprint that needs reading is read, and none is read or
written twice; no byte outside the footprint is accessed; addresses ascend; and a command whose check fails
accesses nothing. -/
def Obligations.PortAccessesFollowFootprint : Prop :=
  ∀ (i : Instr) (s : State),
    (s.portReads i).Pairwise (· < ·) ∧ ((s.portWrites i).map Prod.fst).Pairwise (· < ·) ∧
    (∀ e, s.commandError i = some e → s.portTrace i = []) ∧
    (s.commandError i = none →
      (∀ b, b ∈ s.portReads i ↔ b ∈ (s.footprint i).bytes ∧ (s.footprint i).needs .read = true) ∧
      (∀ b ∈ (s.portWrites i).map Prod.fst,
        b ∈ (s.footprint i).bytes ∧ (s.footprint i).needs .write = true))

/-- R201: how many bytes each command that passes its checks accesses. -/
def Obligations.PortAccessCounts : Prop :=
  ∀ (i : Instr) (s : State), s.commandError i = none →
    let reads := (s.portReads i).length
    let writes := (s.portWrites i).length
    match i with
    | .rload _ => reads = 88 ∧ writes = 0
    | .rstore _ => reads = 0 ∧ writes = 88
    | .bload => reads = 708 ∧ writes = 0
    | .bstore => reads = 0 ∧ writes = 708
    | .remapF _ | .remapG _ =>
      reads = 2 * s.width.toNat * s.height.toNat ∧ writes ≤ 2 * s.width.toNat * s.height.toNat
    | .enc | .dec | .mkset | .mkclr | .rclr _ | .pixF _ | .pixG _ => reads = 0 ∧ writes = 0

/-- R8 (log entry 3): the admission map as a list of denied ranges can be every map of 32-bit addresses and kinds. -/
def Obligations.AdmissionMapsAreGeneral : Prop :=
  ∀ (s : State) (p : Word → AccessKind → Bool),
    ∃ d : List Denied, ∀ (a : Word) (k : AccessKind), ({ s with denied := d }).admits a.toNat k = p a k

/-! ## The register port -/

/-- R21, R23, R31, R32, R39, R50: what a host read of an idle block returns at every offset of the window. -/
def Obligations.RegisterMapReads : Prop :=
  ∀ s : State, s.status.busy = false →
    readAt s 0x000 = some 0 ∧
    readAt s 0x004 = some (BitVec.ofNat 32 (2 * s.status.done.toNat + 4 * s.status.err.toNat +
      8 * s.status.hdrv.toNat + 16 * s.status.ovr.toNat + 256 * s.status.errCode.toNat)) ∧
    readAt s 0x008 = some s.addr ∧ readAt s 0x00C = some (BitVec.ofNat 32 s.width.toNat) ∧
    readAt s 0x010 = some (BitVec.ofNat 32 s.height.toNat) ∧
    readAt s 0x014 = some (BitVec.ofNat 32 s.stride.toNat) ∧ readAt s 0x018 = some s.opnd ∧
    readAt s 0x01C = some s.result ∧ readAt s 0x020 = some s.hdr ∧ readAt s 0x024 = some s.errAddr ∧
    (∀ n : Fin 8,
      let r := s.bank[n]
      let base := 0x400 + 0x100 * n.val
      (∀ i : Fin 32, readAt s (base + 4 * i) = some (BitVec.ofNat 32 (r.ramp[i]).toNat)) ∧
      readAt s (base + 0x80) = some (BitVec.ofNat 32 r.tstart.toNat) ∧
      readAt s (base + 0x84) = some (BitVec.ofNat 32 r.tend.toNat) ∧
      (∀ j : Fin 5, readAt s (base + 0x88 + 4 * j) = some (BitVec.ofNat 32
        ((r.name[4 * j.val]).toNat + 256 * (r.name[4 * j.val + 1]).toNat +
          65536 * (r.name[4 * j.val + 2]).toNat + 16777216 * (r.name[4 * j.val + 3]).toNat)))) ∧
    (∀ offset, ReservedOffset offset → readAt s offset = some 0)

/-- R50, R57: a host read changes nothing but what the model keeps for the outside world: the value returned, the
windows of exclusive use, and the count of free values drawn. -/
def Obligations.HostReadHasNoSideEffect : Prop :=
  ∀ (s t : State) (offset : BitVec 12), hostStep (.readReg offset .word) s = .next t →
    t = { s with readData := t.readData, unobserved := t.unobserved, draws := t.draws } ∧
    (t.draws = s.draws ∨ s.status.busy = true) ∧
    (t.unobserved = s.unobserved ∨ (offset = 0x004 ∧ s.status.busy = false ∧ t.unobserved = []))

/-- R57: reads while BUSY = 1: STATUS, CMD, ADDR, WIDTH, HEIGHT, STRIDE, OPND and the reserved offsets return their
exact values; at the other offsets the value is open but for the reserved bits, which read 0. -/
def Obligations.ReadsWhileBusy : Prop :=
  ∀ s : State, s.status.busy = true →
    readAt s 0x000 = some 0 ∧ readAt s 0x008 = some s.addr ∧
    readAt s 0x004 = some (BitVec.ofNat 32 (1 + 2 * s.status.done.toNat + 4 * s.status.err.toNat +
      8 * s.status.hdrv.toNat + 16 * s.status.ovr.toNat + 256 * s.status.errCode.toNat)) ∧
    readAt s 0x00C = some (BitVec.ofNat 32 s.width.toNat) ∧
    readAt s 0x010 = some (BitVec.ofNat 32 s.height.toNat) ∧
    readAt s 0x014 = some (BitVec.ofNat 32 s.stride.toNat) ∧ readAt s 0x018 = some s.opnd ∧
    (∀ offset, ReservedOffset offset → readAt s offset = some 0) ∧
    (∀ n < 8, ∀ i < 34, ∃ v, readAt s (0x400 + 0x100 * n + 4 * i) = some v ∧ v.toNat < 65536)

/-- R51: the host's write of CMD. -/
def Obligations.CmdWriteIssuesOrDrops : Prop :=
  ∀ (s : State) (v : Word),
    (s.status.busy = true ∨ s.status.err = true → hostStep (.writeReg 0x000 .word v) s =
      .next { s with status := { s.status with ovr := true } }) ∧
    (s.status.busy = false → s.status.err = false → hostStep (.writeReg 0x000 .word v) s =
      .next { s with
        cmdLatch := v
        status := { s.status with done := false, busy := true }
        unobserved := s.footprintOfWord v :: s.unobserved })

/-- R52: the host's write of STATUS clears DONE, ERR with ERRCODE, and OVR by a 1 in bits 1, 2 and 4, also while
BUSY = 1, and nothing else. -/
def Obligations.StatusWriteClearsByOnes : Prop :=
  ∀ (s : State) (v : Word), ∃ t : Status,
    hostStep (.writeReg 0x004 .word v) s = .next { s with status := t } ∧
    t.done = (if v.toNat / 2 % 2 = 1 then false else s.status.done) ∧
    t.err = (if v.toNat / 4 % 2 = 1 then false else s.status.err) ∧
    t.errCode = (if v.toNat / 4 % 2 = 1 then 0 else s.status.errCode) ∧
    t.ovr = (if v.toNat / 16 % 2 = 1 then false else s.status.ovr) ∧
    t.busy = s.status.busy ∧ t.hdrv = s.status.hdrv

/-- R53: host writes of ADDR, WIDTH, HEIGHT, STRIDE and OPND while BUSY = 0. -/
def Obligations.OperandWritesWhileIdle : Prop :=
  ∀ (s : State) (v : Word), s.status.busy = false →
    let low := BitVec.ofNat 16 (v.toNat % 65536)
    hostStep (.writeReg 0x008 .word v) s = .next { s with addr := v } ∧
    hostStep (.writeReg 0x00C .word v) s = .next { s with width := low } ∧
    hostStep (.writeReg 0x010 .word v) s = .next { s with height := low } ∧
    hostStep (.writeReg 0x014 .word v) s = .next { s with stride := low } ∧
    hostStep (.writeReg 0x018 .word v) s = .next { s with opnd := v }

/-- R54: the host's write of HDR while BUSY = 0 establishes a header. -/
def Obligations.HdrWriteEstablishesHeader : Prop :=
  ∀ (s : State) (v : Word), s.status.busy = false →
    hostStep (.writeReg 0x020 .word v) s =
      .next { s with hdr := v, status := { s.status with hdrv := true } }

/-- R55, R31, R32: a host write of the REC window while BUSY = 0 sets the one field it names, whatever the value, and
changes nothing else: the low 16 bits for a ramp entry, TSTART and TEND, all four bytes for a name word. Read
back (R50, R53, R54), a register an idle block lets the host set returns the written bits it has, and every
other register but STATUS what it did before. -/
def Obligations.WriteThenReadOfTheWindow : Prop :=
  (∀ (s : State) (n : Fin 8) (v : Word), s.status.busy = false →
    let r := s.bank[n]
    let base := 0x400 + 0x100 * n.val
    let low := BitVec.ofNat 16 (v.toNat % 65536)
    let wr := fun offset => hostStep (.writeReg (BitVec.ofNat 12 offset) .word v) s
    let slot := fun r' : Rec => Host.Outcome.next (φ := Fault) (ρ := Refusal) { s with bank := s.bank.set n.val r' }
    (∀ i : Fin 32, wr (base + 4 * i) = slot { r with ramp := r.ramp.set i.val low }) ∧
    wr (base + 0x80) = slot { r with tstart := low } ∧
    wr (base + 0x84) = slot { r with tend := low } ∧
    ∀ j : Fin 5, ∃ name : Vector Byte 20, wr (base + 0x88 + 4 * j) = slot { r with name := name } ∧
      ∀ k : Fin 20, (name[k]).toNat =
        if k.val / 4 = j.val then v.toNat / 256 ^ (k.val % 4) % 256 else (r.name[k]).toNat) ∧
  (∀ (s : State) (offset bits : Nat) (v : Word), s.status.busy = false → WritableBits offset bits →
    ∃ t, hostStep (.writeReg (BitVec.ofNat 12 offset) .word v) s = .next t ∧
      readAt t offset = some (BitVec.ofNat 32 (v.toNat % 2 ^ bits)) ∧
      ∀ other, other < 4096 → other % 4 = 0 → other ≠ offset → other ≠ 0x004 →
        readAt t other = readAt s other)

/-- R56, R39: host writes while BUSY = 1 to a register other than CMD and STATUS are dropped and set OVR; to a reserved
offset they do nothing. -/
def Obligations.WritesWhileBusyAreDropped : Prop :=
  ∀ (s : State) (offset : Nat) (v : Word), s.status.busy = true →
    ((offset = 0x01C ∨ offset = 0x024 ∨ ∃ bits, WritableBits offset bits) →
      hostStep (.writeReg (BitVec.ofNat 12 offset) .word v) s =
        .next { s with status := { s.status with ovr := true } }) ∧
    (ReservedOffset offset → hostStep (.writeReg (BitVec.ofNat 12 offset) .word v) s = .next s)

/-- R59, R39: host writes of RESULT, ERRADDR and the reserved offsets while BUSY = 0 do nothing. -/
def Obligations.ReadOnlyWritesDoNothing : Prop :=
  ∀ (s : State) (offset : Nat) (v : Word), s.status.busy = false →
    offset = 0x01C ∨ offset = 0x024 ∨ ReservedOffset offset →
    hostStep (.writeReg (BitVec.ofNat 12 offset) .word v) s = .next s

/-- R58: a register access that is not a 32-bit access at a multiple of 4 is refused, read or write. -/
def Obligations.SubwordAccessIsRefused : Prop :=
  ∀ (s : State) (offset : BitVec 12) (w : BusWidth) (v : Word), w ≠ .word ∨ offset.toNat % 4 ≠ 0 →
    hostStep (.readReg offset w) s = .refused .hostSubword ∧
    hostStep (.writeReg offset w v) s = .refused .hostSubword

/-! ## Whole-machine rules -/

/-- R196, R72 (c): from its accepted CMD write until the host reads STATUS with BUSY = 0, an access from outside to a
byte of a command's footprint is a hazard fault (log entry 9). The third clause is the model's own choice: an
access elsewhere is one byte that the admission map does not bound (log entry 11), answered in `readData` (log
entry 7). -/
def Obligations.FootprintIsExclusive : Prop :=
  (∀ (s : State) (f : Footprint) (a : Word) (v : Byte), f ∈ s.unobserved → a.toNat ∈ f.bytes →
    hostStep (.readMem a) s = .fault .footprintHazard ∧ hostStep (.writeMem a v) s = .fault .footprintHazard) ∧
  (∀ s t : State, step s = .next t →
    (∀ f ∈ s.unobserved, f ∈ t.unobserved) ∨
    (s.status.busy = false ∧ ∃ rest w, ActsNext s (.readReg 0x004 w) rest)) ∧
  (∀ (s : State) (a : Word) (v : Byte), (∀ f ∈ s.unobserved, a.toNat ∉ f.bytes) →
    hostStep (.readMem a) s = .next { s with readData := BitVec.ofNat 32 (Memory.read s.mem a.toNat).toNat } ∧
    ∃ m, hostStep (.writeMem a v) s = .next { s with mem := m } ∧ Memory.read m a.toNat = v ∧
      ∀ b, b ≠ a.toNat → Memory.read m b = Memory.read s.mem b)

/-- R195, R75, R8, R196: while BUSY = 1, no step from outside but reset changes the latched command, an operand register,
the record bank, RESULT, ERRADDR, the admission map or, where the invariant holds, a byte of the footprint of
the command in flight. The second clause is the model's own form of R8: a change of the map is refused in
flight and takes effect between commands (log entry 3). -/
def Obligations.OperandsStandWhileBusy : Prop :=
  (∀ s t : State, s.status.busy = true → s.engineMoves = false → step s = .next t →
    (∃ rest, ActsNext s .reset rest) ∨
    (t.cmdLatch = s.cmdLatch ∧ t.addr = s.addr ∧ t.width = s.width ∧ t.height = s.height ∧
      t.stride = s.stride ∧ t.opnd = s.opnd ∧ t.hdr = s.hdr ∧ t.status.hdrv = s.status.hdrv ∧
      t.bank = s.bank ∧ t.result = s.result ∧ t.errAddr = s.errAddr ∧ t.status.busy = true ∧
      t.denied = s.denied ∧
      (Safety.Inv s → ∀ b ∈ (s.footprintOfWord s.cmdLatch).bytes, Memory.read t.mem b = Memory.read s.mem b))) ∧
  (∀ (s : State) (d : List Denied),
    (s.status.busy = true → hostStep (.setAdmission d) s = .refused .admissionFixedInFlight) ∧
    (s.status.busy = false → hostStep (.setAdmission d) s = .next { s with denied := d }))

/-- R29: RESULT changes only by ENC, DEC, MKSET, MKCLR, PIX.F and PIX.G that finish without error, and by reset. -/
def Obligations.ResultWrittenOnlyByColorCommands : Prop :=
  ∀ s t : State, step s = .next t → t.result ≠ s.result →
    (∃ rest, ActsNext s .reset rest) ∨
    (s.engineMoves = true ∧ t.status = doneStatus s.status ∧
      ∃ i, decode s.cmdLatch = .ok i ∧
        (i ∈ [Instr.enc, .dec, .mkset, .mkclr] ∨ ∃ n, i = .pixF n ∨ i = .pixG n))

/-- R34: HDRV is set only by a BLOAD that finishes without error and by an accepted host write of HDR, and cleared only
by reset. -/
def Obligations.HeaderFlagChanges : Prop :=
  ∀ s t : State, step s = .next t →
    (s.status.hdrv = true → t.status.hdrv = false → ∃ rest, ActsNext s .reset rest) ∧
    (s.status.hdrv = false → t.status.hdrv = true →
      (s.engineMoves = true ∧ decode s.cmdLatch = .ok .bload ∧ t.status.done = true) ∨
      (s.status.busy = false ∧ ∃ rest w v, ActsNext s (.writeReg 0x020 w v) rest ∧ t.hdr = v))

/-- R40: the value of every register, of the hidden state and of every slot after reset, and host memory kept by the
reset input. -/
def Obligations.ResetValues : Prop :=
  let s := State.reset
  s.status.toWord = 0 ∧ s.addr = 0 ∧ s.opnd = 0 ∧ s.result = 0 ∧ s.hdr = 0 ∧ s.errAddr = 0 ∧
  s.width = 0 ∧ s.height = 0 ∧ s.stride = 0 ∧ s.cmdLatch = 0 ∧ s.phase = .idle ∧
  (∀ n : Fin 8, (∀ i : Fin 32, (s.bank[n]).ramp[i] = 0) ∧ (s.bank[n]).tstart = 0 ∧ (s.bank[n]).tend = 0 ∧
    (s.bank[n]).name.toList = [0x4E, 0x75, 0x6C, 0x6C] ++ List.replicate 16 0) ∧
  ∀ u t : State, u.status.busy = false → hostStep .reset u = .next t → t.mem = u.mem

/-- R190: the reset input with the engine idle puts everything of the block to its reset value and keeps host
memory. -/
def Obligations.ResetWhileIdle : Prop :=
  ∀ s : State, s.status.busy = false → hostStep .reset s = .next { State.reset with
    mem := s.mem, denied := s.denied, unobserved := s.unobserved, pending := s.pending,
    readData := s.readData, draws := s.draws }

/-- R191: the reset input with a command in flight abandons it: everything of the block takes its reset value, and
every byte of memory is its old value, or a value the command would have written there. -/
def Obligations.ResetWhileBusy : Prop :=
  ∀ s : State, s.status.busy = true →
    ∃ m, hostStep .reset s = .next { State.reset with
      mem := m, denied := s.denied, unobserved := s.unobserved, pending := s.pending,
      readData := s.readData, draws := s.draws + 1 } ∧
    (∀ t : State, perform s = .next t → ∀ a,
      Memory.read m a = Memory.read s.mem a ∨ Memory.read m a = Memory.read t.mem a) ∧
    (∀ a, (∀ i, decode s.cmdLatch = .ok i → a ∉ (s.portWrites i).map Prod.fst) →
      Memory.read m a = Memory.read s.mem a)

/-- The state after reset meets the invariant. -/
def Obligations.ResetMeetsInvariant : Prop := Safety.Inv State.reset

/-- R23, R35, R60, R196: every step keeps the invariant: DONE and ERR never both 1 nor either beside BUSY, ERRCODE 0
exactly without an error and else a code of R170, ERRADDR 0 under an error other than BUS, memory in
canonical form inside the 32-bit space, and the footprint of a command in flight under exclusive use. -/
def Obligations.StepKeepsInvariant : Prop :=
  ∀ s t : State, Safety.Inv s → step s = .next t → Safety.Inv t

/-! ## The host sequences (R92) -/

/-- R91, R92: `CMD i; POLL`, with any number of reads that find BUSY = 1, runs exactly `i` on the block that accepted it,
and the last read returns STATUS as the command left it and ends its window. -/
def Obligations.IssuedCommandRuns : Prop :=
  ∀ (i : Instr) (s : State) (waits : Nat) (rest : List HostInput),
    s.status.busy = false → s.status.err = false →
    ∃ u, exec i (s.acceptCommand (encode i)) = .next u ∧ u.status.busy = false ∧
      Sys2Proof.core.run (waits + 3) { s with pending := HostApi.issue i waits ++ rest } =
        .next { u with pending := rest, readData := u.status.toWord, unobserved := [] }

/-- R92 with R55: the host writes that place a ramp, or a whole record, in a slot leave exactly that there. -/
def Obligations.SlotWritesFillTheSlot : Prop :=
  ∀ (n : Slot) (r : Rec) (s : State) (rest : List HostInput), s.status.busy = false →
    Sys2Proof.core.run 32 { s with pending := HostApi.writeRamp n r.ramp ++ rest } =
      .next { s with pending := rest, bank := s.bank.set n.val { s.bank[n.val] with ramp := r.ramp } } ∧
    Sys2Proof.core.run 39 { s with pending := HostApi.writeRecord n r ++ rest } =
      .next { s with pending := rest, bank := s.bank.set n.val r }

/-- R92: the sequences of `rgbToHueColor` and `hueColorToRgb` return the packed levels (R101) and the expanded fields
(R103), and change neither memory nor the bank nor the header. -/
def Obligations.ColorCallsReturnTheirValue : Prop :=
  ∀ (s : State) (waits : Nat) (rest : List HostInput), s.status.busy = false → s.status.err = false →
    let kept := fun t : State => t.pending = rest ∧ t.mem = s.mem ∧ t.bank = s.bank ∧ t.hdr = s.hdr
    (∀ r g b : Byte, ∃ t,
      Sys2Proof.core.run (waits + 5) { s with pending := HostApi.rgbToHueColor r g b waits ++ rest } = .next t ∧
      (HostApi.hueColorOf t.readData).toNat =
        level r.toNat * 1024 + level g.toNat * 32 + level b.toNat ∧ kept t) ∧
    (∀ c : Half, ∃ t,
      Sys2Proof.core.run (waits + 5) { s with pending := HostApi.hueColorToRgb c waits ++ rest } = .next t ∧
      HostApi.rgbOf t.readData = (BitVec.ofNat 8 (8 * redOf c.toNat), BitVec.ofNat 8 (8 * greenOf c.toNat),
        BitVec.ofNat 8 (8 * blueOf c.toNat)) ∧ kept t)
end

