-- ==== Sys2Proof/Laws/Decode.lean ====
section
/-! SUPPORT. The fields of a command word as numbers, and words from fields. -/

namespace Sys2Proof

theorem opField_toNat (v : Word) : (opField v).toNat = v.toNat % 256 := by
  simp [opField]

theorem slotField_val (v : Word) : (slotField v).val = v.toNat / 256 % 8 := by
  simp [slotField, Nat.shiftRight_eq_div_pow]

theorem modeField_eq (v : Word) : modeField v = decide (v.toNat / 2048 % 2 = 1) := by
  simp [modeField, BitVec.getLsbD, Nat.testBit, Nat.shiftRight_eq_div_pow, Nat.and_comm 1]
  grind

theorem reservedField_eq_zero (v : Word) : reservedField v = 0 ↔ v.toNat / 4096 = 0 := by
  have := v.isLt
  rw [← BitVec.toNat_inj]
  simp [reservedField, Nat.shiftRight_eq_div_pow]
  omega

theorem commandWord_toNat (g : Bool) (s : Slot) (op : BitVec 8) :
    (commandWord g s op).toNat = g.toNat * 2048 + s.val * 256 + op.toNat := by
  revert g s op
  decide +kernel

end Sys2Proof
end

