-- ==== Sys2Proof/Laws/Operands.lean ====
section
/-! SUPPORT. The field helpers as numbers. -/

namespace Sys2Proof.Machine

theorem red5_toNat (c : Half) : (red5 c).toNat = c.toNat / 1024 % 32 := by
  simp [red5, Nat.shiftRight_eq_div_pow]

theorem green5_toNat (c : Half) : (green5 c).toNat = c.toNat / 32 % 32 := by
  simp [green5, Nat.shiftRight_eq_div_pow]

theorem blue5_toNat (c : Half) : (blue5 c).toNat = c.toNat % 32 := by
  simp [blue5]

theorem pack555_toNat (r g b : BitVec 5) :
    (pack555 r g b).toNat = r.toNat * 1024 + g.toNat * 32 + b.toNat := by
  have hr := r.isLt
  have hg := g.isLt
  have hb := b.isLt
  have h : pack555 r g b = (r ++ g ++ b).setWidth 16 := by
    ext i hi
    simp only [pack555, BitVec.getElem_or, BitVec.getElem_shiftLeft, BitVec.getElem_setWidth,
      BitVec.getLsbD_append]
    grind
  rw [h, BitVec.toNat_setWidth, BitVec.toNat_append, BitVec.toNat_append,
    ← Nat.shiftLeft_add_eq_or_of_lt hg, ← Nat.shiftLeft_add_eq_or_of_lt hb, Nat.shiftLeft_eq, Nat.shiftLeft_eq]
  omega

theorem flipMarker_flipMarker (c : Half) : flipMarker (flipMarker c) = c := by
  simp [flipMarker]

theorem halfOfBytes_toNat (lo hi : Byte) : (halfOfBytes lo hi).toNat = lo.toNat + 256 * hi.toNat := by
  have := lo.isLt
  simp only [halfOfBytes, BitVec.toNat_append]
  rw [← Nat.shiftLeft_add_eq_or_of_lt (by omega), Nat.shiftLeft_eq]
  omega

theorem lowByte_toNat (v : Half) : (lowByte v).toNat = v.toNat % 256 := by
  simp [lowByte]

theorem highByte_toNat (v : Half) : (highByte v).toNat = v.toNat / 256 := by
  have := v.isLt
  simp [highByte, Nat.shiftRight_eq_div_pow]
  omega

@[simp] theorem halfOfBytes_lowByte_highByte (v : Half) : halfOfBytes (lowByte v) (highByte v) = v := by
  apply BitVec.eq_of_toNat_eq
  rw [halfOfBytes_toNat, lowByte_toNat, highByte_toNat]
  omega

/-- The marker bit is bit 7 of a color's high byte. -/
theorem setMarker_halfOfBytes (lo hi : Byte) : setMarker (halfOfBytes lo hi) = halfOfBytes lo (hi ||| 0x80#8) := by
  have h : (0x8000 : BitVec 16) = 0x80#8 ++ 0#8 := by decide
  rw [setMarker, Config.marker, halfOfBytes, halfOfBytes, h, BitVec.or_append]
  simp

theorem flipMarker_halfOfBytes (lo hi : Byte) : flipMarker (halfOfBytes lo hi) = halfOfBytes lo (hi ^^^ 0x80#8) := by
  have h : (0x8000 : BitVec 16) = 0x80#8 ++ 0#8 := by decide
  rw [flipMarker, Config.marker, halfOfBytes, halfOfBytes, h, BitVec.xor_append]
  simp

theorem setMarker_toNat (c : Half) : (setMarker c).toNat = c.toNat % 32768 + 32768 := by
  have h : ∀ b : Byte, (b ||| 0x80#8).toNat = b.toNat % 128 + 128 := by decide +kernel
  have hl := (lowByte c).isLt
  rw [← halfOfBytes_lowByte_highByte c, setMarker_halfOfBytes, halfOfBytes_toNat, halfOfBytes_toNat, h]
  omega

theorem flipMarker_toNat (c : Half) : (flipMarker c).toNat = (c.toNat + 32768) % 65536 := by
  have h : ∀ b : Byte, (b ^^^ 0x80#8).toNat = (b.toNat + 128) % 256 := by decide +kernel
  have hl := (lowByte c).isLt
  rw [← halfOfBytes_lowByte_highByte c, flipMarker_halfOfBytes, halfOfBytes_toNat, halfOfBytes_toNat, h]
  omega

@[simp] theorem lowByte_halfOfBytes (lo hi : Byte) : lowByte (halfOfBytes lo hi) = lo := by
  have := lo.isLt
  apply BitVec.eq_of_toNat_eq
  rw [lowByte_toNat, halfOfBytes_toNat]
  omega

@[simp] theorem highByte_halfOfBytes (lo hi : Byte) : highByte (halfOfBytes lo hi) = hi := by
  have := lo.isLt
  apply BitVec.eq_of_toNat_eq
  rw [highByte_toNat, halfOfBytes_toNat]
  omega

theorem wordOfBytes_toNat (b0 b1 b2 b3 : Byte) :
    (wordOfBytes b0 b1 b2 b3).toNat =
      b0.toNat + 256 * b1.toNat + 65536 * b2.toNat + 16777216 * b3.toNat := by
  have := b0.isLt
  have := b1.isLt
  have := b2.isLt
  simp only [wordOfBytes, BitVec.toNat_append]
  rw [← Nat.shiftLeft_add_eq_or_of_lt (b := b2.toNat) (by omega),
    ← Nat.shiftLeft_add_eq_or_of_lt (b := b1.toNat) (by omega),
    ← Nat.shiftLeft_add_eq_or_of_lt (b := b0.toNat) (by omega)]
  simp only [Nat.shiftLeft_eq]
  omega

theorem byteOfWord_toNat (v : Word) (k : Nat) : (byteOfWord v k).toNat = v.toNat / 2 ^ (8 * k) % 256 := by
  simp [byteOfWord, Nat.shiftRight_eq_div_pow]

theorem operandRed_toNat (o : Word) : (operandRed o).toNat = o.toNat / 65536 % 256 := by
  simp [operandRed, Nat.shiftRight_eq_div_pow]

theorem operandGreen_toNat (o : Word) : (operandGreen o).toNat = o.toNat / 256 % 256 := by
  simp [operandGreen, Nat.shiftRight_eq_div_pow]

theorem operandBlue_toNat (o : Word) : (operandBlue o).toNat = o.toNat % 256 := by
  simp [operandBlue]

theorem operandColor_toNat (o : Word) : (operandColor o).toNat = o.toNat % 65536 := by
  simp [operandColor]

theorem resultOfHalf_eq (h : Half) : resultOfHalf h = BitVec.ofNat 32 h.toNat := by
  apply BitVec.eq_of_toNat_eq
  simp [resultOfHalf]

theorem resultOfRgb_toNat (r g b : Byte) :
    (resultOfRgb r g b).toNat = r.toNat * 65536 + g.toNat * 256 + b.toNat := by
  have := r.isLt
  have := g.isLt
  have := b.isLt
  have hr : (r.toNat % 2 ^ 32) <<< 16 % 2 ^ 32 = (r.toNat <<< 8) <<< 8 := by
    simp only [Nat.shiftLeft_eq]
    omega
  have hg : (g.toNat % 2 ^ 32) <<< 8 % 2 ^ 32 = g.toNat <<< 8 := by
    simp only [Nat.shiftLeft_eq]
    omega
  simp only [resultOfRgb, BitVec.toNat_or, BitVec.toNat_shiftLeft, BitVec.toNat_setWidth]
  rw [hr, hg, Nat.mod_eq_of_lt (a := b.toNat) (by omega), ← Nat.shiftLeft_or_distrib,
    ← Nat.shiftLeft_add_eq_or_of_lt (b := g.toNat) (by omega),
    ← Nat.shiftLeft_add_eq_or_of_lt (b := b.toNat) (by omega)]
  simp only [Nat.shiftLeft_eq]
  omega

/-- The operand fields of a packed RGB value are its channels (R84, R85). -/
@[simp] theorem operandRed_resultOfRgb (r g b : Byte) : operandRed (resultOfRgb r g b) = r := by
  have := r.isLt; have := g.isLt; have := b.isLt
  apply BitVec.eq_of_toNat_eq
  rw [operandRed_toNat, resultOfRgb_toNat]
  omega

@[simp] theorem operandGreen_resultOfRgb (r g b : Byte) : operandGreen (resultOfRgb r g b) = g := by
  have := r.isLt; have := g.isLt; have := b.isLt
  apply BitVec.eq_of_toNat_eq
  rw [operandGreen_toNat, resultOfRgb_toNat]
  omega

@[simp] theorem operandBlue_resultOfRgb (r g b : Byte) : operandBlue (resultOfRgb r g b) = b := by
  have := r.isLt; have := g.isLt; have := b.isLt
  apply BitVec.eq_of_toNat_eq
  rw [operandBlue_toNat, resultOfRgb_toNat]
  omega

@[simp] theorem operandColor_setWidth (c : Half) : operandColor (c.setWidth 32) = c := by
  apply BitVec.eq_of_toNat_eq
  rw [operandColor_toNat, BitVec.toNat_setWidth]
  have := c.isLt
  omega

end Sys2Proof.Machine
end

