-- ==== Sys2Proof/Laws/State.lean ====
section
/-! SUPPORT. One lemma per field of the state and named update, and per field of STATUS and way it is computed. -/

namespace Sys2Proof.Machine

namespace Status

@[simp] theorem accept_busy (t : Status) : (t.accept).busy = true := rfl
@[simp] theorem accept_done (t : Status) : (t.accept).done = false := rfl
@[simp] theorem accept_err (t : Status) : (t.accept).err = t.err := rfl
@[simp] theorem accept_hdrv (t : Status) : (t.accept).hdrv = t.hdrv := rfl
@[simp] theorem accept_ovr (t : Status) : (t.accept).ovr = t.ovr := rfl
@[simp] theorem accept_errCode (t : Status) : (t.accept).errCode = t.errCode := rfl

@[simp] theorem finishDone_busy (t : Status) : (t.finishDone).busy = false := rfl
@[simp] theorem finishDone_done (t : Status) : (t.finishDone).done = true := rfl
@[simp] theorem finishDone_err (t : Status) : (t.finishDone).err = t.err := rfl
@[simp] theorem finishDone_hdrv (t : Status) : (t.finishDone).hdrv = t.hdrv := rfl
@[simp] theorem finishDone_ovr (t : Status) : (t.finishDone).ovr = t.ovr := rfl
@[simp] theorem finishDone_errCode (t : Status) : (t.finishDone).errCode = t.errCode := rfl

@[simp] theorem finishError_busy (t : Status) (c : ErrorCode) : (t.finishError c).busy = false := rfl
@[simp] theorem finishError_done (t : Status) (c : ErrorCode) : (t.finishError c).done = t.done := rfl
@[simp] theorem finishError_err (t : Status) (c : ErrorCode) : (t.finishError c).err = true := rfl
@[simp] theorem finishError_hdrv (t : Status) (c : ErrorCode) : (t.finishError c).hdrv = t.hdrv := rfl
@[simp] theorem finishError_ovr (t : Status) (c : ErrorCode) : (t.finishError c).ovr = t.ovr := rfl
@[simp] theorem finishError_errCode (t : Status) (c : ErrorCode) : (t.finishError c).errCode = c.bits := rfl

@[simp] theorem overrun_busy (t : Status) : (t.overrun).busy = t.busy := rfl
@[simp] theorem overrun_done (t : Status) : (t.overrun).done = t.done := rfl
@[simp] theorem overrun_err (t : Status) : (t.overrun).err = t.err := rfl
@[simp] theorem overrun_hdrv (t : Status) : (t.overrun).hdrv = t.hdrv := rfl
@[simp] theorem overrun_ovr (t : Status) : (t.overrun).ovr = true := rfl
@[simp] theorem overrun_errCode (t : Status) : (t.overrun).errCode = t.errCode := rfl

@[simp] theorem establishHeader_busy (t : Status) : (t.establishHeader).busy = t.busy := rfl
@[simp] theorem establishHeader_done (t : Status) : (t.establishHeader).done = t.done := rfl
@[simp] theorem establishHeader_err (t : Status) : (t.establishHeader).err = t.err := rfl
@[simp] theorem establishHeader_hdrv (t : Status) : (t.establishHeader).hdrv = true := rfl
@[simp] theorem establishHeader_ovr (t : Status) : (t.establishHeader).ovr = t.ovr := rfl
@[simp] theorem establishHeader_errCode (t : Status) : (t.establishHeader).errCode = t.errCode := rfl

@[simp] theorem hostWrite_busy (t : Status) (v : Word) : (t.hostWrite v).busy = t.busy := rfl
@[simp] theorem hostWrite_done (t : Status) (v : Word) : (t.hostWrite v).done = (t.done && !v.getLsbD 1) := rfl
@[simp] theorem hostWrite_err (t : Status) (v : Word) : (t.hostWrite v).err = (t.err && !v.getLsbD 2) := rfl
@[simp] theorem hostWrite_hdrv (t : Status) (v : Word) : (t.hostWrite v).hdrv = t.hdrv := rfl
@[simp] theorem hostWrite_ovr (t : Status) (v : Word) : (t.hostWrite v).ovr = (t.ovr && !v.getLsbD 4) := rfl
@[simp] theorem hostWrite_errCode (t : Status) (v : Word) : (t.hostWrite v).errCode = if v.getLsbD 2 then 0 else t.errCode := rfl

end Status

namespace State

@[simp] theorem complete_status (s : State) : (s.complete).status = s.status.finishDone := rfl
@[simp] theorem complete_addr (s : State) : (s.complete).addr = s.addr := rfl
@[simp] theorem complete_width (s : State) : (s.complete).width = s.width := rfl
@[simp] theorem complete_height (s : State) : (s.complete).height = s.height := rfl
@[simp] theorem complete_stride (s : State) : (s.complete).stride = s.stride := rfl
@[simp] theorem complete_opnd (s : State) : (s.complete).opnd = s.opnd := rfl
@[simp] theorem complete_result (s : State) : (s.complete).result = s.result := rfl
@[simp] theorem complete_hdr (s : State) : (s.complete).hdr = s.hdr := rfl
@[simp] theorem complete_errAddr (s : State) : (s.complete).errAddr = s.errAddr := rfl
@[simp] theorem complete_cmdLatch (s : State) : (s.complete).cmdLatch = s.cmdLatch := rfl
@[simp] theorem complete_bank (s : State) : (s.complete).bank = s.bank := rfl
@[simp] theorem complete_mem (s : State) : (s.complete).mem = s.mem := rfl
@[simp] theorem complete_denied (s : State) : (s.complete).denied = s.denied := rfl
@[simp] theorem complete_unobserved (s : State) : (s.complete).unobserved = s.unobserved := rfl
@[simp] theorem complete_pending (s : State) : (s.complete).pending = s.pending := rfl
@[simp] theorem complete_readData (s : State) : (s.complete).readData = s.readData := rfl
@[simp] theorem complete_draws (s : State) : (s.complete).draws = s.draws := rfl

@[simp] theorem raise_status (s : State) (e : CmdError) : (s.raise e).status = s.status.finishError e.code := rfl
@[simp] theorem raise_addr (s : State) (e : CmdError) : (s.raise e).addr = s.addr := rfl
@[simp] theorem raise_width (s : State) (e : CmdError) : (s.raise e).width = s.width := rfl
@[simp] theorem raise_height (s : State) (e : CmdError) : (s.raise e).height = s.height := rfl
@[simp] theorem raise_stride (s : State) (e : CmdError) : (s.raise e).stride = s.stride := rfl
@[simp] theorem raise_opnd (s : State) (e : CmdError) : (s.raise e).opnd = s.opnd := rfl
@[simp] theorem raise_result (s : State) (e : CmdError) : (s.raise e).result = s.result := rfl
@[simp] theorem raise_hdr (s : State) (e : CmdError) : (s.raise e).hdr = s.hdr := rfl
@[simp] theorem raise_errAddr (s : State) (e : CmdError) : (s.raise e).errAddr = e.address := rfl
@[simp] theorem raise_cmdLatch (s : State) (e : CmdError) : (s.raise e).cmdLatch = s.cmdLatch := rfl
@[simp] theorem raise_bank (s : State) (e : CmdError) : (s.raise e).bank = s.bank := rfl
@[simp] theorem raise_mem (s : State) (e : CmdError) : (s.raise e).mem = s.mem := rfl
@[simp] theorem raise_denied (s : State) (e : CmdError) : (s.raise e).denied = s.denied := rfl
@[simp] theorem raise_unobserved (s : State) (e : CmdError) : (s.raise e).unobserved = s.unobserved := rfl
@[simp] theorem raise_pending (s : State) (e : CmdError) : (s.raise e).pending = s.pending := rfl
@[simp] theorem raise_readData (s : State) (e : CmdError) : (s.raise e).readData = s.readData := rfl
@[simp] theorem raise_draws (s : State) (e : CmdError) : (s.raise e).draws = s.draws := rfl

@[simp] theorem writeStatus_status (s : State) (v : Word) : (s.writeStatus v).status = s.status.hostWrite v := rfl
@[simp] theorem writeStatus_addr (s : State) (v : Word) : (s.writeStatus v).addr = s.addr := rfl
@[simp] theorem writeStatus_width (s : State) (v : Word) : (s.writeStatus v).width = s.width := rfl
@[simp] theorem writeStatus_height (s : State) (v : Word) : (s.writeStatus v).height = s.height := rfl
@[simp] theorem writeStatus_stride (s : State) (v : Word) : (s.writeStatus v).stride = s.stride := rfl
@[simp] theorem writeStatus_opnd (s : State) (v : Word) : (s.writeStatus v).opnd = s.opnd := rfl
@[simp] theorem writeStatus_result (s : State) (v : Word) : (s.writeStatus v).result = s.result := rfl
@[simp] theorem writeStatus_hdr (s : State) (v : Word) : (s.writeStatus v).hdr = s.hdr := rfl
@[simp] theorem writeStatus_errAddr (s : State) (v : Word) : (s.writeStatus v).errAddr = s.errAddr := rfl
@[simp] theorem writeStatus_cmdLatch (s : State) (v : Word) : (s.writeStatus v).cmdLatch = s.cmdLatch := rfl
@[simp] theorem writeStatus_bank (s : State) (v : Word) : (s.writeStatus v).bank = s.bank := rfl
@[simp] theorem writeStatus_mem (s : State) (v : Word) : (s.writeStatus v).mem = s.mem := rfl
@[simp] theorem writeStatus_denied (s : State) (v : Word) : (s.writeStatus v).denied = s.denied := rfl
@[simp] theorem writeStatus_unobserved (s : State) (v : Word) : (s.writeStatus v).unobserved = s.unobserved := rfl
@[simp] theorem writeStatus_pending (s : State) (v : Word) : (s.writeStatus v).pending = s.pending := rfl
@[simp] theorem writeStatus_readData (s : State) (v : Word) : (s.writeStatus v).readData = s.readData := rfl
@[simp] theorem writeStatus_draws (s : State) (v : Word) : (s.writeStatus v).draws = s.draws := rfl

@[simp] theorem dropWrite_status (s : State) : (s.dropWrite).status = s.status.overrun := rfl
@[simp] theorem dropWrite_addr (s : State) : (s.dropWrite).addr = s.addr := rfl
@[simp] theorem dropWrite_width (s : State) : (s.dropWrite).width = s.width := rfl
@[simp] theorem dropWrite_height (s : State) : (s.dropWrite).height = s.height := rfl
@[simp] theorem dropWrite_stride (s : State) : (s.dropWrite).stride = s.stride := rfl
@[simp] theorem dropWrite_opnd (s : State) : (s.dropWrite).opnd = s.opnd := rfl
@[simp] theorem dropWrite_result (s : State) : (s.dropWrite).result = s.result := rfl
@[simp] theorem dropWrite_hdr (s : State) : (s.dropWrite).hdr = s.hdr := rfl
@[simp] theorem dropWrite_errAddr (s : State) : (s.dropWrite).errAddr = s.errAddr := rfl
@[simp] theorem dropWrite_cmdLatch (s : State) : (s.dropWrite).cmdLatch = s.cmdLatch := rfl
@[simp] theorem dropWrite_bank (s : State) : (s.dropWrite).bank = s.bank := rfl
@[simp] theorem dropWrite_mem (s : State) : (s.dropWrite).mem = s.mem := rfl
@[simp] theorem dropWrite_denied (s : State) : (s.dropWrite).denied = s.denied := rfl
@[simp] theorem dropWrite_unobserved (s : State) : (s.dropWrite).unobserved = s.unobserved := rfl
@[simp] theorem dropWrite_pending (s : State) : (s.dropWrite).pending = s.pending := rfl
@[simp] theorem dropWrite_readData (s : State) : (s.dropWrite).readData = s.readData := rfl
@[simp] theorem dropWrite_draws (s : State) : (s.dropWrite).draws = s.draws := rfl

@[simp] theorem setResult_status (s : State) (v : Word) : (s.setResult v).status = s.status := rfl
@[simp] theorem setResult_addr (s : State) (v : Word) : (s.setResult v).addr = s.addr := rfl
@[simp] theorem setResult_width (s : State) (v : Word) : (s.setResult v).width = s.width := rfl
@[simp] theorem setResult_height (s : State) (v : Word) : (s.setResult v).height = s.height := rfl
@[simp] theorem setResult_stride (s : State) (v : Word) : (s.setResult v).stride = s.stride := rfl
@[simp] theorem setResult_opnd (s : State) (v : Word) : (s.setResult v).opnd = s.opnd := rfl
@[simp] theorem setResult_result (s : State) (v : Word) : (s.setResult v).result = v := rfl
@[simp] theorem setResult_hdr (s : State) (v : Word) : (s.setResult v).hdr = s.hdr := rfl
@[simp] theorem setResult_errAddr (s : State) (v : Word) : (s.setResult v).errAddr = s.errAddr := rfl
@[simp] theorem setResult_cmdLatch (s : State) (v : Word) : (s.setResult v).cmdLatch = s.cmdLatch := rfl
@[simp] theorem setResult_bank (s : State) (v : Word) : (s.setResult v).bank = s.bank := rfl
@[simp] theorem setResult_mem (s : State) (v : Word) : (s.setResult v).mem = s.mem := rfl
@[simp] theorem setResult_denied (s : State) (v : Word) : (s.setResult v).denied = s.denied := rfl
@[simp] theorem setResult_unobserved (s : State) (v : Word) : (s.setResult v).unobserved = s.unobserved := rfl
@[simp] theorem setResult_pending (s : State) (v : Word) : (s.setResult v).pending = s.pending := rfl
@[simp] theorem setResult_readData (s : State) (v : Word) : (s.setResult v).readData = s.readData := rfl
@[simp] theorem setResult_draws (s : State) (v : Word) : (s.setResult v).draws = s.draws := rfl

@[simp] theorem setSlot_status (s : State) (n : Slot) (r : Rec) : (s.setSlot n r).status = s.status := rfl
@[simp] theorem setSlot_addr (s : State) (n : Slot) (r : Rec) : (s.setSlot n r).addr = s.addr := rfl
@[simp] theorem setSlot_width (s : State) (n : Slot) (r : Rec) : (s.setSlot n r).width = s.width := rfl
@[simp] theorem setSlot_height (s : State) (n : Slot) (r : Rec) : (s.setSlot n r).height = s.height := rfl
@[simp] theorem setSlot_stride (s : State) (n : Slot) (r : Rec) : (s.setSlot n r).stride = s.stride := rfl
@[simp] theorem setSlot_opnd (s : State) (n : Slot) (r : Rec) : (s.setSlot n r).opnd = s.opnd := rfl
@[simp] theorem setSlot_result (s : State) (n : Slot) (r : Rec) : (s.setSlot n r).result = s.result := rfl
@[simp] theorem setSlot_hdr (s : State) (n : Slot) (r : Rec) : (s.setSlot n r).hdr = s.hdr := rfl
@[simp] theorem setSlot_errAddr (s : State) (n : Slot) (r : Rec) : (s.setSlot n r).errAddr = s.errAddr := rfl
@[simp] theorem setSlot_cmdLatch (s : State) (n : Slot) (r : Rec) : (s.setSlot n r).cmdLatch = s.cmdLatch := rfl
@[simp] theorem setSlot_bank (s : State) (n : Slot) (r : Rec) : (s.setSlot n r).bank = s.bank.set n.val r := rfl
@[simp] theorem setSlot_mem (s : State) (n : Slot) (r : Rec) : (s.setSlot n r).mem = s.mem := rfl
@[simp] theorem setSlot_denied (s : State) (n : Slot) (r : Rec) : (s.setSlot n r).denied = s.denied := rfl
@[simp] theorem setSlot_unobserved (s : State) (n : Slot) (r : Rec) : (s.setSlot n r).unobserved = s.unobserved := rfl
@[simp] theorem setSlot_pending (s : State) (n : Slot) (r : Rec) : (s.setSlot n r).pending = s.pending := rfl
@[simp] theorem setSlot_readData (s : State) (n : Slot) (r : Rec) : (s.setSlot n r).readData = s.readData := rfl
@[simp] theorem setSlot_draws (s : State) (n : Slot) (r : Rec) : (s.setSlot n r).draws = s.draws := rfl

@[simp] theorem setMem_status (s : State) (m : Memory) : (s.setMem m).status = s.status := rfl
@[simp] theorem setMem_addr (s : State) (m : Memory) : (s.setMem m).addr = s.addr := rfl
@[simp] theorem setMem_width (s : State) (m : Memory) : (s.setMem m).width = s.width := rfl
@[simp] theorem setMem_height (s : State) (m : Memory) : (s.setMem m).height = s.height := rfl
@[simp] theorem setMem_stride (s : State) (m : Memory) : (s.setMem m).stride = s.stride := rfl
@[simp] theorem setMem_opnd (s : State) (m : Memory) : (s.setMem m).opnd = s.opnd := rfl
@[simp] theorem setMem_result (s : State) (m : Memory) : (s.setMem m).result = s.result := rfl
@[simp] theorem setMem_hdr (s : State) (m : Memory) : (s.setMem m).hdr = s.hdr := rfl
@[simp] theorem setMem_errAddr (s : State) (m : Memory) : (s.setMem m).errAddr = s.errAddr := rfl
@[simp] theorem setMem_cmdLatch (s : State) (m : Memory) : (s.setMem m).cmdLatch = s.cmdLatch := rfl
@[simp] theorem setMem_bank (s : State) (m : Memory) : (s.setMem m).bank = s.bank := rfl
@[simp] theorem setMem_mem (s : State) (m : Memory) : (s.setMem m).mem = m := rfl
@[simp] theorem setMem_denied (s : State) (m : Memory) : (s.setMem m).denied = s.denied := rfl
@[simp] theorem setMem_unobserved (s : State) (m : Memory) : (s.setMem m).unobserved = s.unobserved := rfl
@[simp] theorem setMem_pending (s : State) (m : Memory) : (s.setMem m).pending = s.pending := rfl
@[simp] theorem setMem_readData (s : State) (m : Memory) : (s.setMem m).readData = s.readData := rfl
@[simp] theorem setMem_draws (s : State) (m : Memory) : (s.setMem m).draws = s.draws := rfl

@[simp] theorem setBlock_status (s : State) (h : Word) (b : Vector Rec 8) : (s.setBlock h b).status = s.status.establishHeader := rfl
@[simp] theorem setBlock_addr (s : State) (h : Word) (b : Vector Rec 8) : (s.setBlock h b).addr = s.addr := rfl
@[simp] theorem setBlock_width (s : State) (h : Word) (b : Vector Rec 8) : (s.setBlock h b).width = s.width := rfl
@[simp] theorem setBlock_height (s : State) (h : Word) (b : Vector Rec 8) : (s.setBlock h b).height = s.height := rfl
@[simp] theorem setBlock_stride (s : State) (h : Word) (b : Vector Rec 8) : (s.setBlock h b).stride = s.stride := rfl
@[simp] theorem setBlock_opnd (s : State) (h : Word) (b : Vector Rec 8) : (s.setBlock h b).opnd = s.opnd := rfl
@[simp] theorem setBlock_result (s : State) (h : Word) (b : Vector Rec 8) : (s.setBlock h b).result = s.result := rfl
@[simp] theorem setBlock_hdr (s : State) (h : Word) (b : Vector Rec 8) : (s.setBlock h b).hdr = h := rfl
@[simp] theorem setBlock_errAddr (s : State) (h : Word) (b : Vector Rec 8) : (s.setBlock h b).errAddr = s.errAddr := rfl
@[simp] theorem setBlock_cmdLatch (s : State) (h : Word) (b : Vector Rec 8) : (s.setBlock h b).cmdLatch = s.cmdLatch := rfl
@[simp] theorem setBlock_bank (s : State) (h : Word) (b : Vector Rec 8) : (s.setBlock h b).bank = b := rfl
@[simp] theorem setBlock_mem (s : State) (h : Word) (b : Vector Rec 8) : (s.setBlock h b).mem = s.mem := rfl
@[simp] theorem setBlock_denied (s : State) (h : Word) (b : Vector Rec 8) : (s.setBlock h b).denied = s.denied := rfl
@[simp] theorem setBlock_unobserved (s : State) (h : Word) (b : Vector Rec 8) : (s.setBlock h b).unobserved = s.unobserved := rfl
@[simp] theorem setBlock_pending (s : State) (h : Word) (b : Vector Rec 8) : (s.setBlock h b).pending = s.pending := rfl
@[simp] theorem setBlock_readData (s : State) (h : Word) (b : Vector Rec 8) : (s.setBlock h b).readData = s.readData := rfl
@[simp] theorem setBlock_draws (s : State) (h : Word) (b : Vector Rec 8) : (s.setBlock h b).draws = s.draws := rfl

@[simp] theorem acceptCommand_status (s : State) (v : Word) : (s.acceptCommand v).status = s.status.accept := rfl
@[simp] theorem acceptCommand_addr (s : State) (v : Word) : (s.acceptCommand v).addr = s.addr := rfl
@[simp] theorem acceptCommand_width (s : State) (v : Word) : (s.acceptCommand v).width = s.width := rfl
@[simp] theorem acceptCommand_height (s : State) (v : Word) : (s.acceptCommand v).height = s.height := rfl
@[simp] theorem acceptCommand_stride (s : State) (v : Word) : (s.acceptCommand v).stride = s.stride := rfl
@[simp] theorem acceptCommand_opnd (s : State) (v : Word) : (s.acceptCommand v).opnd = s.opnd := rfl
@[simp] theorem acceptCommand_result (s : State) (v : Word) : (s.acceptCommand v).result = s.result := rfl
@[simp] theorem acceptCommand_hdr (s : State) (v : Word) : (s.acceptCommand v).hdr = s.hdr := rfl
@[simp] theorem acceptCommand_errAddr (s : State) (v : Word) : (s.acceptCommand v).errAddr = s.errAddr := rfl
@[simp] theorem acceptCommand_cmdLatch (s : State) (v : Word) : (s.acceptCommand v).cmdLatch = v := rfl
@[simp] theorem acceptCommand_bank (s : State) (v : Word) : (s.acceptCommand v).bank = s.bank := rfl
@[simp] theorem acceptCommand_mem (s : State) (v : Word) : (s.acceptCommand v).mem = s.mem := rfl
@[simp] theorem acceptCommand_denied (s : State) (v : Word) : (s.acceptCommand v).denied = s.denied := rfl
@[simp] theorem acceptCommand_unobserved (s : State) (v : Word) : (s.acceptCommand v).unobserved = s.footprintOfWord v :: s.unobserved := rfl
@[simp] theorem acceptCommand_pending (s : State) (v : Word) : (s.acceptCommand v).pending = s.pending := rfl
@[simp] theorem acceptCommand_readData (s : State) (v : Word) : (s.acceptCommand v).readData = s.readData := rfl
@[simp] theorem acceptCommand_draws (s : State) (v : Word) : (s.acceptCommand v).draws = s.draws := rfl

end State

end Sys2Proof.Machine
end

