-- ==== Sys2Proof/Laws/HostPort.lean ====
section
/-! SUPPORT. The register port: which register stands at which offset, and what one host access does. -/

namespace Sys2Proof.Machine

/-! ## The register map (R21, R31) -/

theorem regAt_ramp (n : Slot) (i : Fin 32) :
    regAt (BitVec.ofNat 12 (0x400 + 0x100 * n.val + 4 * i.val)) = .ramp n i := by
  revert n i
  decide +kernel

theorem regAt_tstart (n : Slot) :
    regAt (BitVec.ofNat 12 (0x400 + 0x100 * n.val + 0x80)) = .tstart n := by
  revert n
  decide +kernel

theorem regAt_tend (n : Slot) :
    regAt (BitVec.ofNat 12 (0x400 + 0x100 * n.val + 0x84)) = .tend n := by
  revert n
  decide +kernel

theorem regAt_name (n : Slot) (j : Fin 5) :
    regAt (BitVec.ofNat 12 (0x400 + 0x100 * n.val + 0x88 + 4 * j.val)) = .name n j := by
  revert n j
  decide +kernel

/-- The offset of a register (R21, R31); of `reserved`, none in particular. -/
def Reg.offset : Reg → Nat
  | .cmd      => 0x000
  | .status   => 0x004
  | .addr     => 0x008
  | .width    => 0x00C
  | .height   => 0x010
  | .stride   => 0x014
  | .opnd     => 0x018
  | .result   => 0x01C
  | .hdr      => 0x020
  | .errAddr  => 0x024
  | .ramp n i => 0x400 + 0x100 * n.val + 4 * i.val
  | .tstart n => 0x400 + 0x100 * n.val + 0x80
  | .tend n   => 0x400 + 0x100 * n.val + 0x84
  | .name n j => 0x400 + 0x100 * n.val + 0x88 + 4 * j.val
  | .reserved => 0

/-- Each register that is not reserved stands at one multiple of 4, its own offset (R21, R31). -/
theorem offset_regAt (o : BitVec 12) :
    o.toNat % 4 = 0 → regAt o ≠ .reserved → (regAt o).offset = o.toNat := by
  revert o
  decide +kernel

/-- Exactly the reserved offsets of R39 hold no register. -/
theorem regAt_eq_reserved (o : BitVec 12) :
    o.toNat % 4 = 0 → (regAt o = .reserved ↔ (0x028 ≤ o.toNat ∧ o.toNat ≤ 0x3FC) ∨ 0xC00 ≤ o.toNat ∨
      (0x400 ≤ o.toNat ∧ 0x9C ≤ o.toNat % 0x100)) := by
  revert o
  decide +kernel

/-! ## One access -/

theorem hostStep_readReg {o : BitVec 12} (h : o.toNat % 4 = 0) (s : State) :
    hostStep (.readReg o .word) s = .next (s.hostRead (regAt o)) := by
  simp [hostStep, wholeWordAccess, h]

theorem hostStep_writeReg {o : BitVec 12} (h : o.toNat % 4 = 0) (v : Word) (s : State) :
    hostStep (.writeReg o .word v) s = .next (s.hostWrite (regAt o) v) := by
  simp [hostStep, wholeWordAccess, h]

/-- A read of an idle block, and of an exact register of a busy one, returns the register's value (R50, R57). -/
theorem readData_hostRead {s : State} {r : Reg} (h : s.status.busy = false ∨ r.openWhileBusy = false) :
    (s.hostRead r).readData = s.regValue r := by
  unfold State.hostRead
  rcases h with h | h <;> simp [h]

/-- A read of an idle block keeps everything but the value returned and the windows (R50). -/
theorem hostRead_idle {s : State} {r : Reg} (h : s.status.busy = false) :
    s.hostRead r = { s with
      readData := s.regValue r
      unobserved := if r = .status then [] else s.unobserved } := by
  unfold State.hostRead
  simp [h]

/-- All a host read can change (R50, R196). -/
theorem hostRead_cases (s : State) (r : Reg) :
    ∃ d u n, s.hostRead r = { s with readData := d, unobserved := u, draws := n } ∧
      (u = s.unobserved ∨ (s.status.busy = false ∧ r = .status ∧ u = [])) := by
  unfold State.hostRead
  split
  · exact ⟨_, _, _, rfl, .inl rfl⟩
  · refine ⟨_, _, _, rfl, ?_⟩
    split
    · next h =>
      simp only [Bool.and_eq_true, decide_eq_true_eq, Bool.not_eq_eq_eq_not, Bool.not_true] at h
      exact .inr ⟨h.2, h.1, rfl⟩
    · exact .inl rfl

/-- All a host write can do while BUSY = 1 (R51, R52, R56, R39). -/
theorem hostWrite_busy {s : State} (hb : s.status.busy = true) (r : Reg) (v : Word) :
    s.hostWrite r v = s.dropWrite ∨ s.hostWrite r v = s.writeStatus v ∨ s.hostWrite r v = s := by
  cases r <;> simp [State.hostWrite, hb, State.writeCmd]

/-- STATUS as a number (R23). -/
theorem toWord_eq (t : Status) :
    t.toWord = BitVec.ofNat 32 (t.busy.toNat + 2 * t.done.toNat + 4 * t.err.toNat + 8 * t.hdrv.toNat +
      16 * t.ovr.toNat + 256 * t.errCode.toNat) := by
  obtain ⟨b, d, e, h, o, c⟩ := t
  revert b d e h o c
  decide +kernel

/-- A bit of a written word (R52). -/
theorem getLsbD_eq_decide (v : Word) (k : Nat) : v.getLsbD k = decide (v.toNat / 2 ^ k % 2 = 1) := by
  simp [BitVec.getLsbD, Nat.testBit_eq_decide_div_mod_eq]

end Sys2Proof.Machine
end

