-- ==== Sys2Proof/Laws/Memory.lean ====
section
/-! SUPPORT. The laws of host memory: read after write, and every operation keeps the canonical form. -/

namespace Sys2Proof.Machine.Memory

@[simp] theorem read_nil (a : Nat) : read [] a = unlisted := rfl

theorem read_cons (c : Host.Cell) (m : Memory) (a : Nat) :
    read (c :: m) a = if c.1 = a then c.2 else read m a := rfl

theorem read_erase (m : Memory) (a b : Nat) :
    read (erase m a) b = if b = a then unlisted else read m b := by
  induction m with
  | nil => simp [erase]
  | cons c m ih =>
    unfold erase at ih ⊢
    by_cases hc : c.1 = a
    · rw [List.filter_cons_of_neg (by simp [hc]), ih, read_cons]
      grind
    · rw [List.filter_cons_of_pos (by simp [hc]), read_cons, read_cons, ih]
      grind

/-- An address with no entry reads as an unlisted one. -/
theorem read_eq_unlisted {m : Memory} {a : Nat} (h : ∀ c ∈ m, c.1 ≠ a) : read m a = unlisted := by
  induction m with
  | nil => rfl
  | cons c m ih =>
    rw [read_cons, if_neg (h c (by simp)), ih fun d hd => h d (by simp [hd])]

theorem read_insert {m : Memory} {a : Nat} (h : ∀ c ∈ m, c.1 ≠ a) (v : Byte) (b : Nat) :
    read (insert m a v) b = if b = a then v else read m b := by
  induction m with
  | nil => simp [insert, read_cons, eq_comm]
  | cons c m ih =>
    have hc := h c (by simp)
    have hm := ih fun d hd => h d (by simp [hd])
    rw [insert]
    split <;> grind [read_cons]

theorem not_mem_erase (m : Memory) (a : Nat) : ∀ c ∈ erase m a, c.1 ≠ a := by
  simp [erase]

/-- Reading after writing: the written byte at its address, the old byte at every other. -/
@[simp] theorem read_write (m : Memory) (a : Nat) (v : Byte) (b : Nat) :
    read (write m a v) b = if b = a then v else read m b := by
  unfold write
  split
  · next h => rw [read_erase, h]
  · rw [read_insert (not_mem_erase m a), read_erase]
    grind

/-- Writing a list of bytes changes exactly the bytes it covers. -/
theorem read_writeBytes (m : Memory) (a : Nat) (bs : List Byte) (b : Nat) :
    read (writeBytes m a bs) b =
      if h : a ≤ b ∧ b - a < bs.length then bs[b - a]'h.2 else read m b := by
  induction bs generalizing m a with
  | nil => simp [writeBytes]
  | cons x bs ih =>
    rw [writeBytes, ih, read_write]
    by_cases hab : b = a
    · subst hab
      have h1 : ¬ (b + 1 ≤ b ∧ b - (b + 1) < bs.length) := by omega
      simp
    · by_cases h : a + 1 ≤ b ∧ b - (a + 1) < bs.length
      · have h' : a ≤ b ∧ b - a < (x :: bs).length := by simp; omega
        rw [dif_pos h, dif_pos h']
        have e : b - a = (b - (a + 1)) + 1 := by omega
        simp [e]
      · have h' : ¬ (a ≤ b ∧ b - a < (x :: bs).length) := by simp; omega
        rw [dif_neg h, dif_neg h', if_neg hab]

/-- Reading a byte of a vector just written. -/
theorem read_writeBytes_vector {n : Nat} (m : Memory) (a : Nat) (bs : Vector Byte n) {k : Nat} (hk : k < n) :
    read (writeBytes m a bs.toList) (a + k) = bs[k] := by
  rw [read_writeBytes, dif_pos ⟨by omega, by rw [Vector.length_toList]; omega⟩]
  simp

/-- Writing a vector keeps every byte outside it. -/
theorem read_writeBytes_vector_other {n : Nat} (m : Memory) (a : Nat) (bs : Vector Byte n) {b : Nat}
    (hb : ¬ (a ≤ b ∧ b < a + n)) : read (writeBytes m a bs.toList) b = read m b := by
  rw [read_writeBytes, dif_neg]
  rw [Vector.length_toList]
  omega

/-- Writing a half changes its two bytes. -/
theorem read_writeHalf (m : Memory) (a : Nat) (v : Half) (b : Nat) :
    read (writeHalf m a v) b =
      if b = a + 1 then highByte v else if b = a then lowByte v else read m b := by
  simp [writeHalf]

theorem replay_nil (m : Memory) : replay m [] = m := rfl

theorem replay_cons (m : Memory) (w : Nat × Byte) (ws : List (Nat × Byte)) :
    replay m (w :: ws) = replay (write m w.1 w.2) ws := rfl

/-- A byte that no write of the list names is kept. -/
theorem read_replay_other {ws : List (Nat × Byte)} {b : Nat} (h : ∀ w ∈ ws, w.1 ≠ b) (m : Memory) :
    read (replay m ws) b = read m b := by
  induction ws generalizing m with
  | nil => rfl
  | cons w ws ih =>
    rw [replay_cons, ih fun x hx => h x (by simp [hx]), read_write,
      if_neg fun e => h w (by simp) e.symm]

/-! ## The canonical form -/

theorem wf_nil : wf [] := by simp [wf]

theorem wf_erase {m : Memory} (h : wf m) (a : Nat) : wf (erase m a) :=
  ⟨h.1.sublist List.filter_sublist, fun c hc => h.2 c (List.mem_filter.mp hc).1⟩

theorem mem_insert {m : Memory} {a : Nat} {v : Byte} {c : Host.Cell} :
    c ∈ insert m a v ↔ c = (a, v) ∨ c ∈ m := by
  induction m with
  | nil => simp [insert]
  | cons d m ih =>
    rw [insert]
    split
    · simp
    · simp only [List.mem_cons, ih]
      tauto

theorem wf_insert {m : Memory} (h : wf m) {a : Nat} (ha : a ≤ Config.topAddress)
    (hfree : ∀ c ∈ m, c.1 ≠ a) {v : Byte} (hv : v ≠ unlisted) : wf (insert m a v) := by
  refine ⟨?_, fun c hc => ?_⟩
  · have hs := h.1
    clear h
    induction m with
    | nil => simp [insert]
    | cons d m ih =>
      rw [List.pairwise_cons] at hs
      rw [insert]
      split
      · next hlt =>
        rw [List.pairwise_cons]
        refine ⟨fun c hc => ?_, List.pairwise_cons.mpr hs⟩
        rcases List.mem_cons.mp hc with rfl | hc
        · exact hlt
        · exact hlt.trans (hs.1 c hc)
      · next hge =>
        rw [List.pairwise_cons]
        refine ⟨fun c hc => ?_, ih (fun c hc => hfree c (by simp [hc])) hs.2⟩
        rcases mem_insert.mp hc with rfl | hc
        · have := hfree d (by simp)
          simp only
          omega
        · exact hs.1 c hc
  · rcases mem_insert.mp hc with rfl | hc
    · exact ⟨ha, hv⟩
    · exact h.2 c hc

/-- A write inside the address space keeps the canonical form. -/
theorem wf_write {m : Memory} (h : wf m) {a : Nat} (ha : a ≤ Config.topAddress) (v : Byte) :
    wf (write m a v) := by
  unfold write
  split
  · exact wf_erase h a
  · next hv => exact wf_insert (wf_erase h a) ha (not_mem_erase m a) hv

/-- So does a list of bytes that stays inside the address space. -/
theorem wf_writeBytes {m : Memory} (h : wf m) {a : Nat} {bs : List Byte}
    (ha : a + bs.length ≤ Config.topAddress + 1) : wf (writeBytes m a bs) := by
  induction bs generalizing m a with
  | nil => exact h
  | cons x bs ih =>
    simp only [List.length_cons] at ha
    exact ih (wf_write h (by omega) x) (by omega)

theorem wf_writeHalf {m : Memory} (h : wf m) {a : Nat} (ha : a + 1 ≤ Config.topAddress) (v : Half) :
    wf (writeHalf m a v) :=
  wf_write (wf_write h (by omega) _) ha _

/-- So does a list of writes inside the address space. -/
theorem wf_replay {ws : List (Nat × Byte)} {m : Memory} (h : wf m)
    (hw : ∀ w ∈ ws, w.1 ≤ Config.topAddress) : wf (replay m ws) := by
  induction ws generalizing m with
  | nil => exact h
  | cons w ws ih =>
    rw [replay_cons]
    exact ih (wf_write h (hw w (by simp)) _) fun x hx => hw x (by simp [hx])

/-- Two memories in canonical form that read alike are the same list. -/
theorem ext_of_wf {m n : Memory} (hm : wf m) (hn : wf n) (h : ∀ a, read m a = read n a) : m = n := by
  induction m generalizing n with
  | nil =>
    cases n with
    | nil => rfl
    | cons d n =>
      have := h d.1
      rw [read_nil, read_cons, if_pos rfl] at this
      exact absurd this.symm (hn.2 d (by simp)).2
  | cons c m ih =>
    cases n with
    | nil =>
      have := h c.1
      rw [read_nil, read_cons, if_pos rfl] at this
      exact absurd this (hm.2 c (by simp)).2
    | cons d n =>
      have hm1 := List.pairwise_cons.mp hm.1
      have hn1 := List.pairwise_cons.mp hn.1
      have tailm : read m c.1 = unlisted :=
        read_eq_unlisted fun e he => (Nat.ne_of_lt (hm1.1 e he)).symm
      have tailn : read n d.1 = unlisted :=
        read_eq_unlisted fun e he => (Nat.ne_of_lt (hn1.1 e he)).symm
      have key : c.1 = d.1 := by
        by_contra hne
        rcases Nat.lt_or_gt_of_ne hne with hlt | hgt
        · have h1 := h c.1
          rw [read_cons, if_pos rfl, read_cons, if_neg (by omega),
            read_eq_unlisted fun e he => by have := hn1.1 e he; omega] at h1
          exact (hm.2 c (by simp)).2 h1
        · have h1 := h d.1
          rw [read_cons, if_neg (by omega), read_cons, if_pos rfl,
            read_eq_unlisted fun e he => by have := hm1.1 e he; omega] at h1
          exact (hn.2 d (by simp)).2 h1.symm
      have val : c.2 = d.2 := by
        have h1 := h c.1
        rwa [read_cons, if_pos rfl, read_cons, if_pos key.symm] at h1
      have htail : m = n := by
        refine ih ⟨hm1.2, fun e he => hm.2 e (by simp [he])⟩
          ⟨hn1.2, fun e he => hn.2 e (by simp [he])⟩ fun a => ?_
        by_cases ha : c.1 = a
        · rw [← ha, tailm, key, tailn]
        · have h1 := h a
          rwa [read_cons, if_neg ha, read_cons, if_neg (key ▸ ha)] at h1
      rw [htail, Prod.ext key val]

end Sys2Proof.Machine.Memory
end

