-- ==== Sys2Proof/Laws/Ops.lean ====
section
/-! SUPPORT. What each shared operation can do, said once: the end of a command, footprints and their check. -/

namespace Sys2Proof.Machine

namespace State

/-- A command ends in a next state whatever its checks say: by its error, or complete. -/
theorem finish_cases {s t u : State} {e : Option CmdError} (h : s.finish e t = .next u) :
    (∃ c, e = some c ∧ u = s.raise c) ∨ (e = none ∧ u = t.complete) := by
  cases e with
  | none => exact .inr ⟨rfl, by simpa [finish, eq_comm] using h⟩
  | some c => exact .inl ⟨c, rfl, by simpa [finish, eq_comm] using h⟩

@[simp] theorem finish_none (s t : State) : s.finish none t = .next t.complete := rfl

@[simp] theorem finish_some (s t : State) (c : CmdError) : s.finish (some c) t = .next (s.raise c) := rfl

/-! A completed effect, written out. -/

theorem complete_setResult (s : State) (v : Word) :
    (s.setResult v).complete = { s with status := s.status.finishDone, result := v } := rfl

theorem complete_setSlot (s : State) (n : Slot) (r : Rec) :
    (s.setSlot n r).complete = { s with status := s.status.finishDone, bank := s.bank.set n.val r } := rfl

theorem complete_setMem (s : State) (m : Memory) :
    (s.setMem m).complete = { s with status := s.status.finishDone, mem := m } := rfl

theorem complete_setBlock (s : State) (h : Word) (b : Vector Rec 8) :
    (s.setBlock h b).complete =
      { s with status := { s.status.finishDone with hdrv := true }, hdr := h, bank := b } := rfl

@[simp] theorem setSlot_slot (s : State) (n m : Slot) (r : Rec) :
    (s.setSlot n r).slot m = if m = n then r else s.slot m := by
  simp only [slot, setSlot_bank, Vector.getElem_set, Fin.ext_iff]
  grind

end State

/-- The pixels of a raster buffer, by their coordinates. -/
theorem mem_rasterPixels {a w h st p : Nat} :
    p ∈ rasterPixels a w h st ↔ ∃ y < h, ∃ x < w, p = pixelAddress a st x y := by
  simp only [rasterPixels, List.mem_flatMap, List.mem_range, List.mem_map]
  grind

namespace Footprint

theorem mem_bytes_span {a n b : Nat} {k : AccessKind} :
    b ∈ (span a n k).bytes ↔ a ≤ b ∧ b < a + n := by
  simp only [bytes, List.mem_map, List.mem_range]
  exact ⟨fun ⟨j, hj, e⟩ => by omega, fun h => ⟨b - a, by omega, by omega⟩⟩

theorem mem_bytes_raster {a w h st b : Nat} :
    b ∈ (raster a w h st).bytes ↔
      ∃ y < h, ∃ x < w, b = pixelAddress a st x y ∨ b = pixelAddress a st x y + 1 := by
  simp only [bytes, List.mem_flatMap, mem_rasterPixels, List.mem_cons, List.not_mem_nil, or_false]
  grind

theorem last_eq_none {f : Footprint} : f.last = none ↔ f.bytes = [] := by
  cases f with
  | empty => simp [last, bytes]
  | span a n k => cases n <;> simp [last, bytes]
  | raster a w h st =>
    constructor
    · intro hl
      have h0 : w = 0 ∨ h = 0 := by
        by_contra hn
        simp [last, hn] at hl
      refine List.eq_nil_iff_forall_not_mem.mpr fun b hb => ?_
      obtain ⟨y, hy, x, hx, -⟩ := mem_bytes_raster.mp hb
      omega
    · intro hb
      by_contra hl
      have h0 : ¬ (w = 0 ∨ h = 0) := by
        intro h0
        simp [last, h0] at hl
      have hm : pixelAddress a st 0 0 ∈ (raster a w h st).bytes :=
        mem_bytes_raster.mpr ⟨0, by omega, 0, by omega, .inl rfl⟩
      rw [hb] at hm
      exact absurd hm (by simp)

/-- The closed form of `last` is the highest byte of the footprint (R66). -/
theorem last_isMax {f : Footprint} {top : Nat} (h : f.last = some top) :
    top ∈ f.bytes ∧ ∀ b ∈ f.bytes, b ≤ top := by
  cases f with
  | empty => simp [last] at h
  | span a n k =>
    simp only [last] at h
    split at h
    · simp at h
    · simp only [Option.some.injEq] at h
      exact ⟨mem_bytes_span.mpr (by omega), fun b hb => by have := mem_bytes_span.mp hb; omega⟩
  | raster a w h' st =>
    simp only [last] at h
    split at h
    · simp at h
    · next h0 =>
      simp only [Option.some.injEq] at h
      refine ⟨mem_bytes_raster.mpr ⟨h' - 1, by omega, w - 1, by omega, .inr ?_⟩, fun b hb => ?_⟩
      · rw [← h, pixelAddress]
      · obtain ⟨y, hy, x, hx, hb⟩ := mem_bytes_raster.mp hb
        have hm : y * st ≤ (h' - 1) * st := Nat.mul_le_mul_right st (by omega)
        simp only [pixelAddress] at hb
        omega

end Footprint

namespace State

/-- The footprint check finds no error exactly when every byte is inside the address space and admitted (R66). -/
theorem footprintError_eq_none {s : State} {f : Footprint} :
    s.footprintError f = none ↔ ∀ b ∈ f.bytes, b ≤ Config.topAddress ∧ s.refuses f b = false := by
  unfold footprintError
  cases hl : f.last with
  | none =>
    have := Footprint.last_eq_none.mp hl
    simp [this]
  | some top =>
    obtain ⟨hmem, hmax⟩ := Footprint.last_isMax hl
    by_cases htop : Config.topAddress < top
    · simp only [if_pos htop, reduceCtorEq, false_iff, not_forall]
      exact ⟨top, hmem, fun h => by omega⟩
    · simp only [if_neg htop, Option.map_eq_none_iff, lowestRefused, List.min?_eq_none_iff,
        List.filter_eq_nil_iff]
      constructor
      · intro h b hb
        exact ⟨(hmax b hb).trans (by omega), by simpa using h b hb⟩
      · intro h b hb
        simp [(h b hb).2]

/-- The error of a footprint check: RANGE past the top, else BUS at the lowest refused byte (R66). -/
theorem footprintError_eq_some {s : State} {f : Footprint} {e : CmdError} :
    s.footprintError f = some e ↔
      ((∃ b ∈ f.bytes, Config.topAddress < b) ∧ e = .plain .range) ∨
      ((∀ b ∈ f.bytes, b ≤ Config.topAddress) ∧ ∃ a ∈ f.bytes, s.refuses f a = true ∧
        (∀ b ∈ f.bytes, s.refuses f b = true → a ≤ b) ∧ e = ⟨.bus, BitVec.ofNat 32 a⟩) := by
  unfold footprintError
  cases hl : f.last with
  | none =>
    have := Footprint.last_eq_none.mp hl
    simp [this]
  | some top =>
    obtain ⟨hmem, hmax⟩ := Footprint.last_isMax hl
    by_cases htop : Config.topAddress < top
    · simp only [if_pos htop, Option.some.injEq]
      constructor
      · exact fun h => .inl ⟨⟨top, hmem, htop⟩, h.symm⟩
      · rintro (⟨-, h⟩ | ⟨h, -⟩)
        · exact h.symm
        · exact absurd (h top hmem) (by omega)
    · have hle : ∀ b ∈ f.bytes, b ≤ Config.topAddress := fun b hb => (hmax b hb).trans (by omega)
      simp only [if_neg htop, Option.map_eq_some_iff, lowestRefused, List.min?_eq_some_iff,
        List.mem_filter]
      constructor
      · rintro ⟨a, ⟨⟨ha, hr⟩, hmin⟩, rfl⟩
        exact .inr ⟨hle, a, ha, hr, fun b hb hb' => hmin b ⟨hb, hb'⟩, rfl⟩
      · rintro (⟨⟨b, hb, hlt⟩, -⟩ | ⟨-, a, ha, hr, hmin, rfl⟩)
        · exact absurd (hle b hb) (by omega)
        · exact ⟨a, ⟨⟨ha, hr⟩, fun b hb => hmin b hb.1 hb.2⟩, rfl⟩

/-! The checks of each command (R174). -/

theorem commandError_rload (s : State) (n : Slot) :
    s.commandError (.rload n) = s.footprintError (.span s.addr.toNat 88 .read) := rfl

theorem commandError_rstore (s : State) (n : Slot) :
    s.commandError (.rstore n) = s.footprintError (.span s.addr.toNat 88 .write) := rfl

theorem commandError_bload (s : State) :
    s.commandError .bload = s.footprintError (.span s.addr.toNat 708 .read) := rfl

theorem commandError_bstore (s : State) :
    s.commandError .bstore =
      if s.status.hdrv then s.footprintError (.span s.addr.toNat 708 .write) else some (.plain .nohdr) := by
  simp only [commandError, headerError, footprint, blockFootprint]
  split <;> simp

theorem commandError_remapF (s : State) (n : Slot) :
    s.commandError (.remapF n) =
      if s.stride.toNat < s.width.toNat then some (.plain .geometry)
      else s.footprintError s.rasterFootprint := by
  simp only [commandError, geometryError, footprint]
  split <;> simp

theorem commandError_remapG (s : State) (n : Slot) :
    s.commandError (.remapG n) =
      if s.stride.toNat < s.width.toNat then some (.plain .geometry)
      else s.footprintError s.rasterFootprint := by
  simp only [commandError, geometryError, footprint]
  split <;> simp

end State

end Sys2Proof.Machine
end

