-- ==== Sys2Proof/Laws/RecordCodec.lean ====
section
/-! SUPPORT. The record codec, field by field and byte by byte. -/

namespace Sys2Proof.Machine

/-- A byte stands before the terminator when no byte up to it is zero (R122). -/
theorem lt_nameLen_iff {n : Vector Byte 20} {j : Nat} (hj : j < 20) :
    j < nameLen n ↔ ∀ k (hk : k ≤ j), n[k]'(by omega) ≠ 0 := by
  have hlen : n.toList.length = 20 := by simp
  constructor
  · intro h k hk
    have := List.not_of_lt_findIdx (p := (· == 0)) (xs := n.toList) (i := k)
      (by unfold nameLen at h; omega)
    simpa using this
  · intro h
    by_contra hn
    have hlt : nameLen n < n.toList.length := by rw [hlen]; omega
    have := List.findIdx_getElem (p := (· == 0)) (w := hlt)
    have hz := h (nameLen n) (by omega)
    simp only [beq_iff_eq] at this
    exact hz this

theorem decodeName_getElem (n : Vector Byte 20) (j : Nat) (hj : j < 20) :
    (decodeName n)[j] = if j < nameLen n then (if n[j] = 0x0A then 0x20 else n[j]) else 0 := by
  simp [decodeName]

theorem encodeName_getElem (n : Vector Byte 20) (j : Nat) (hj : j < 20) :
    (encodeName n)[j] = if j < nameLen n then n[j] else 0 := by
  simp [encodeName]

@[simp] theorem decodeRecord_ramp (b : Nat → Byte) (i : Nat) (hi : i < 32) :
    (decodeRecord b).ramp[i] = setMarker (halfOfBytes (b (2 * i)) (b (2 * i + 1))) := by
  simp [decodeRecord]

@[simp] theorem decodeRecord_tstart (b : Nat → Byte) :
    (decodeRecord b).tstart = setMarker (halfOfBytes (b 64) (b 65)) := rfl

@[simp] theorem decodeRecord_tend (b : Nat → Byte) :
    (decodeRecord b).tend = setMarker (halfOfBytes (b 66) (b 67)) := rfl

@[simp] theorem decodeRecord_name (b : Nat → Byte) :
    (decodeRecord b).name = decodeName (Vector.ofFn fun j => b (68 + j.val)) := rfl

/-- Two records are equal when their fields are. -/
theorem Rec.ext_fields {r r' : Rec} (h1 : ∀ i (h : i < 32), r.ramp[i] = r'.ramp[i])
    (h2 : r.tstart = r'.tstart) (h3 : r.tend = r'.tend)
    (h4 : ∀ j (h : j < 20), r.name[j] = r'.name[j]) : r = r' := by
  obtain ⟨a, b, c, d⟩ := r
  obtain ⟨a', b', c', d'⟩ := r'
  obtain rfl : a = a' := Vector.ext h1
  obtain rfl : d = d' := Vector.ext h4
  obtain rfl : b = b' := h2
  obtain rfl : c = c' := h3
  rfl

/-- A record depends on its own 88 bytes only. -/
theorem decodeRecord_congr {b b' : Nat → Byte} (h : ∀ k < 88, b k = b' k) :
    decodeRecord b = decodeRecord b' := by
  have hn : (Vector.ofFn fun j : Fin 20 => b (68 + j.val)) = Vector.ofFn fun j => b' (68 + j.val) :=
    Vector.ext fun j hj => by simp [h (68 + j) (by omega)]
  refine Rec.ext_fields (fun i hi => ?_) ?_ ?_ fun j hj => ?_
  · rw [decodeRecord_ramp b i hi, decodeRecord_ramp b' i hi, h (2 * i) (by omega),
      h (2 * i + 1) (by omega)]
  · rw [decodeRecord_tstart, decodeRecord_tstart, h 64 (by omega), h 65 (by omega)]
  · rw [decodeRecord_tend, decodeRecord_tend, h 66 (by omega), h 67 (by omega)]
  · simp only [decodeRecord_name, hn]

/-- Decoding a name moves no terminator (R123). -/
theorem lt_nameLen_decodeName (n : Vector Byte 20) {j : Nat} (hj : j < 20) :
    j < nameLen (decodeName n) ↔ j < nameLen n := by
  rw [lt_nameLen_iff hj]
  constructor
  · intro h
    rw [lt_nameLen_iff hj]
    intro k hk hz
    refine h k hk ?_
    rw [decodeName_getElem, if_neg]
    rw [lt_nameLen_iff (by omega)]
    exact fun h' => h' k (le_refl k) hz
  · intro h k hk
    rw [decodeName_getElem, if_pos (by omega)]
    have := (lt_nameLen_iff hj).mp h k hk
    split <;> simp_all

/-- Encoding a name moves no terminator (R124). -/
theorem lt_nameLen_encodeName (n : Vector Byte 20) {j : Nat} (hj : j < 20) :
    j < nameLen (encodeName n) ↔ j < nameLen n := by
  rw [lt_nameLen_iff hj]
  constructor
  · intro h
    rw [lt_nameLen_iff hj]
    intro k hk hz
    refine h k hk ?_
    rw [encodeName_getElem, if_neg]
    rw [lt_nameLen_iff (by omega)]
    exact fun h' => h' k (le_refl k) hz
  · intro h k hk
    rw [encodeName_getElem, if_pos (by omega)]
    exact (lt_nameLen_iff hj).mp h k hk

/-- The bytes of an encoded record (R120, R126): a color field `i` is at `2 * i`. -/
theorem recordByte_ramp (r : Rec) (i : Nat) (hi : i < 32) :
    recordByte r (2 * i) = lowByte (flipMarker (r.ramp[i])) ∧
    recordByte r (2 * i + 1) = highByte (flipMarker (r.ramp[i])) := by
  have e1 : 2 * i / 2 = i := by omega
  have e2 : (2 * i + 1) / 2 = i := by omega
  constructor <;> unfold recordByte byteOfHalf
  · rw [dif_pos (by omega : 2 * i < 64), if_pos (by omega)]
    simp [e1]
  · rw [dif_pos (by omega : 2 * i + 1 < 64), if_neg (by omega)]
    simp [e2]

theorem recordByte_tstart (r : Rec) :
    recordByte r 64 = lowByte (flipMarker r.tstart) ∧ recordByte r 65 = highByte (flipMarker r.tstart) :=
  ⟨rfl, rfl⟩

theorem recordByte_tend (r : Rec) :
    recordByte r 66 = lowByte (flipMarker r.tend) ∧ recordByte r 67 = highByte (flipMarker r.tend) :=
  ⟨rfl, rfl⟩

theorem recordByte_name (r : Rec) (j : Nat) (hj : j < 20) :
    recordByte r (68 + j) = if j < nameLen r.name then r.name[j] else 0 := by
  unfold recordByte
  rw [dif_neg (by omega), if_neg (by omega), if_neg (by omega), dif_pos (by omega)]
  simp only [Nat.add_sub_cancel_left, encodeName_getElem _ _ hj]

/-- What a record decoded from the bytes of an encoded record holds (R125, R126). -/
theorem decode_recordByte_ramp (r : Rec) (i : Nat) (hi : i < 32) :
    (decodeRecord (recordByte r)).ramp[i] = setMarker (flipMarker (r.ramp[i])) := by
  rw [decodeRecord_ramp _ i hi, (recordByte_ramp r i hi).1, (recordByte_ramp r i hi).2,
    halfOfBytes_lowByte_highByte]

theorem decode_recordByte_tstart (r : Rec) :
    (decodeRecord (recordByte r)).tstart = setMarker (flipMarker r.tstart) := by
  rw [decodeRecord_tstart, (recordByte_tstart r).1, (recordByte_tstart r).2,
    halfOfBytes_lowByte_highByte]

theorem decode_recordByte_tend (r : Rec) :
    (decodeRecord (recordByte r)).tend = setMarker (flipMarker r.tend) := by
  rw [decodeRecord_tend, (recordByte_tend r).1, (recordByte_tend r).2, halfOfBytes_lowByte_highByte]

theorem decode_recordByte_name (r : Rec) :
    (decodeRecord (recordByte r)).name = decodeName (encodeName r.name) := by
  rw [decodeRecord_name]
  exact congrArg decodeName (Vector.ext fun j hj => by
    rw [Vector.getElem_ofFn, recordByte_name r j hj, encodeName_getElem _ _ hj])

/-- The bytes of an encoded block (R121, R133). -/
theorem blockByte_header (h : Word) (recs : Vector Rec 8) (k : Nat) (hk : k < 4) :
    blockByte h recs k = byteOfWord h k := if_pos hk

theorem blockByte_record (h : Word) (recs : Vector Rec 8) (k j : Nat) (hk : k < 8) (hj : j < 88) :
    blockByte h recs (4 + 88 * k + j) = recordByte (recs[k]) j := by
  have e1 : (4 + 88 * k + j - 4) / 88 = k := by omega
  have e2 : (4 + 88 * k + j - 4) % 88 = j := by omega
  unfold blockByte
  rw [if_neg (by omega), dif_pos (by omega)]
  simp only [e1, e2]

@[simp] theorem encodeRecord_getElem (r : Rec) (k : Nat) (hk : k < 88) :
    (encodeRecord r)[k] = recordByte r k := by
  simp [encodeRecord]

@[simp] theorem encodeBlock_getElem (h : Word) (recs : Vector Rec 8) (k : Nat) (hk : k < 708) :
    (encodeBlock h recs)[k] = blockByte h recs k := by
  simp [encodeBlock]

end Sys2Proof.Machine
end

