-- ==== Sys2Proof/Laws/Step.lean ====
section
/-! SUPPORT. What one step can do, said once. -/

namespace Sys2Proof.Machine

/-- The effect of a command whose checks pass, before its completion. -/
def effectOf (i : Instr) (s : State) : State :=
  match i with
  | .enc => s.setResult (resultOfHalf (encodeColor s.opnd))
  | .dec => s.setResult (decodeColor (operandColor s.opnd))
  | .mkset => s.setResult (resultOfHalf (setMarker (operandColor s.opnd)))
  | .mkclr => s.setResult (resultOfHalf (flipMarker (operandColor s.opnd)))
  | .rload n => s.setSlot n (decodeRecord (Memory.bytesFrom s.mem s.addr.toNat))
  | .rstore n => s.setMem (Memory.writeBytes s.mem s.addr.toNat (encodeRecord (s.slot n)).toList)
  | .rclr n => s.setSlot n Rec.default
  | .bload =>
    s.setBlock (decodeBlock (Memory.bytesFrom s.mem s.addr.toNat)).1
      (decodeBlock (Memory.bytesFrom s.mem s.addr.toNat)).2
  | .bstore => s.setMem (Memory.writeBytes s.mem s.addr.toNat (encodeBlock s.hdr s.bank).toList)
  | .remapF n => s.setMem (s.remapBuffer false n)
  | .remapG n => s.setMem (s.remapBuffer true n)
  | .pixF n => s.setResult (resultOfHalf (remapPixel (operandColor s.opnd) (s.slot n).ramp false).2)
  | .pixG n => s.setResult (resultOfHalf (remapPixel (operandColor s.opnd) (s.slot n).ramp true).2)

/-- Every meaning is its checks and then its effect (R67, R171). -/
theorem exec_eq_finish (i : Instr) (s : State) :
    exec i s = s.finish (s.commandError i) (effectOf i s) := by
  cases i <;> rfl

/-- A command one of whose checks fails raises that error (R174, R181). -/
theorem exec_error {i : Instr} {s : State} {e : CmdError} (h : s.commandError i = some e) :
    exec i s = .next (s.raise e) := by
  rw [exec_eq_finish, h, State.finish_some]

/-- A command whose checks pass completes with its effect (R67, R172). -/
theorem exec_done {i : Instr} {s : State} (h : s.commandError i = none) :
    exec i s = .next (effectOf i s).complete := by
  rw [exec_eq_finish, h, State.finish_none]

/-- An effect is one named update: of RESULT, of one slot, of memory, or of the header and the bank. -/
theorem effectOf_cases (i : Instr) (s : State) :
    (∃ v, effectOf i s = s.setResult v) ∨ (∃ n r, effectOf i s = s.setSlot n r) ∨
      (∃ m, effectOf i s = s.setMem m) ∨ ∃ h k, effectOf i s = s.setBlock h k := by
  cases i with
  | enc | dec | mkset | mkclr | pixF | pixG => exact .inl ⟨_, rfl⟩
  | rload | rclr => exact .inr (.inl ⟨_, _, rfl⟩)
  | rstore | bstore | remapF | remapG => exact .inr (.inr (.inl ⟨_, rfl⟩))
  | bload => exact .inr (.inr (.inr ⟨_, _, rfl⟩))

/-- An effect leaves as they were: STATUS but for HDRV, the
registers a command never writes, and everything outside the block but memory (R37, R67, R171). -/
theorem effectOf_frame (i : Instr) (s : State) :
    let t := effectOf i s
    t.status.busy = s.status.busy ∧ t.status.done = s.status.done ∧ t.status.err = s.status.err ∧
      t.status.ovr = s.status.ovr ∧ t.status.errCode = s.status.errCode ∧ t.errAddr = s.errAddr ∧
      t.addr = s.addr ∧ t.width = s.width ∧ t.height = s.height ∧ t.stride = s.stride ∧
      t.opnd = s.opnd ∧ t.cmdLatch = s.cmdLatch ∧ t.denied = s.denied ∧
      t.unobserved = s.unobserved ∧ t.pending = s.pending ∧ t.readData = s.readData ∧
      t.draws = s.draws := by
  obtain ⟨_, h⟩ | ⟨_, _, h⟩ | ⟨_, h⟩ | ⟨_, _, h⟩ := effectOf_cases i s <;> simp [h]

/-- A command either raises one error, or completes (R171, R181). -/
theorem exec_cases {i : Instr} {s u : State} (h : exec i s = .next u) :
    (∃ e, s.commandError i = some e ∧ u = s.raise e) ∨
    (s.commandError i = none ∧ u = (effectOf i s).complete) :=
  State.finish_cases (exec_eq_finish i s ▸ h)

/-- The bytes RSTORE leaves in its footprint (R130). -/
theorem read_effect_rstore (s : State) (n : Slot) {k : Nat} (hk : k < 88) :
    Memory.read (effectOf (.rstore n) s).complete.mem (s.addr.toNat + k) = recordByte (s.slot n) k := by
  rw [effectOf, State.complete_mem, State.setMem_mem, Memory.read_writeBytes_vector _ _ _ hk,
    encodeRecord_getElem]

/-- The bytes BSTORE leaves in its footprint (R134). -/
theorem read_effect_bstore (s : State) {k : Nat} (hk : k < 708) :
    Memory.read (effectOf .bstore s).complete.mem (s.addr.toNat + k) = blockByte s.hdr s.bank k := by
  rw [effectOf, State.complete_mem, State.setMem_mem, Memory.read_writeBytes_vector _ _ _ hk,
    encodeBlock_getElem]

/-- One step is the engine's perform step, a wait of an idle block with nothing to come, or one action from outside. -/
theorem step_cases (s : State) :
    (s.engineMoves = true ∧ step s = perform s) ∨
    (s.engineMoves = false ∧ s.pending = [] ∧ step s = .next s) ∨
    (s.engineMoves = false ∧ ∃ a rest, s.pending = a :: rest ∧
      step s = hostStep a.action { s with pending := rest }) := by
  unfold step outsideStep
  cases hm : s.engineMoves with
  | true => exact .inl ⟨rfl, rfl⟩
  | false =>
    cases hp : s.pending with
    | nil => exact .inr (.inl ⟨rfl, rfl, by simp⟩)
    | cons a rest => exact .inr (.inr ⟨rfl, a, rest, rfl, by simp⟩)

/-- The perform step answers a next state for every latched word (R171, R198). -/
theorem perform_cases (s : State) :
    (∃ i, decode s.cmdLatch = .ok i ∧ perform s = exec i s) ∨
    ((∃ e, decode s.cmdLatch = .error e) ∧ perform s = .next (s.raise (.plain .illegal))) := by
  unfold perform
  cases hd : decode s.cmdLatch with
  | ok i => exact .inl ⟨i, rfl, rfl⟩
  | error e => exact .inr ⟨⟨e, rfl⟩, rfl⟩

theorem perform_eq_exec {s : State} {i : Instr} (h : decode s.cmdLatch = .ok i) : perform s = exec i s := by
  unfold perform
  rw [h]

end Sys2Proof.Machine
end

