-- ==== Sys2Proof/Laws/HostApi.lean ====
section
/-! SUPPORT. Host sequences: how a run is cut into pieces, and what one access of a sequence does. -/

namespace Sys2Proof.Machine

/-! ## Runs -/

/-- `n` steps take the machine from `s` to `t`. -/
abbrev Runs (n : Nat) (s t : State) : Prop := core.run n s = .next t

theorem runs_zero (s : State) : Runs 0 s s := rfl

/-- A run of a step and then `n` more. -/
def stepThen (n : Nat) : Host.Outcome State Fault Refusal → Host.Outcome State Fault Refusal
  | .next t => core.run n t
  | .fault r => .fault r
  | .refused r => .refused r

theorem run_succ (n : Nat) (s : State) : core.run (n + 1) s = stepThen n (step s) := by
  simp only [core, Host.Core.run]
  cases step s <;> rfl

theorem runs_succ {n : Nat} {s t u : State} (h : step s = .next t) (hr : Runs n t u) : Runs (n + 1) s u :=
  (run_succ n s).trans ((congrArg (stepThen n) h).trans hr)

/-- A run that gets through its first part goes on from where that part ends. -/
theorem runs_add {m n : Nat} {s t u : State} (h : Runs m s t) (hr : Runs n t u) : Runs (m + n) s u := by
  induction m generalizing s with
  | zero =>
    obtain rfl : s = t := Host.Outcome.next.inj h
    rwa [Nat.zero_add]
  | succ m ih =>
    rw [Nat.succ_add]
    have h' := (run_succ m s).symm.trans h
    cases hs : step s with
    | next v => exact runs_succ hs (ih ((congrArg (stepThen m) hs).symm.trans h'))
    | fault r => exact nomatch ((congrArg (stepThen m) hs).symm.trans h' : stepThen m _ = .next t)
    | refused r => exact nomatch ((congrArg (stepThen m) hs).symm.trans h' : stepThen m _ = .next t)

/-! ## What the outside world keeps does not bear on a command -/

/-- The state with other actions to come and another value last returned. -/
def State.outside (s : State) (p : List HostInput) (d : Word) : State := { s with pending := p, readData := d }

theorem commandError_outside (i : Instr) (s : State) (p : List HostInput) (d : Word) :
    (s.outside p d).commandError i = s.commandError i := by
  cases i <;> rfl

theorem setMem_outside (s : State) (m : Memory) (p : List HostInput) (d : Word) :
    (s.outside p d).setMem m = (s.setMem m).outside p d := rfl

/-- Each effect by its named update, so that the memory a store leaves is not computed. -/
theorem effectOf_outside (i : Instr) (s : State) (p : List HostInput) (d : Word) :
    effectOf i (s.outside p d) = (effectOf i s).outside p d := by
  cases i with
  | bstore => exact setMem_outside s (Memory.writeBytes s.mem s.addr.toNat (encodeBlock s.hdr s.bank).toList) p d
  | rstore n => exact setMem_outside s (Memory.writeBytes s.mem s.addr.toNat (encodeRecord (s.slot n)).toList) p d
  | remapF n => exact setMem_outside s (s.remapBuffer false n) p d
  | remapG n => exact setMem_outside s (s.remapBuffer true n) p d
  | _ => rfl

/-- A command does the same whatever the outside world is about to do. -/
theorem exec_outside {i : Instr} {s t : State} (p : List HostInput) (d : Word) (h : exec i s = .next t) :
    exec i (s.outside p d) = .next (t.outside p d) := by
  rw [exec_eq_finish, commandError_outside, effectOf_outside]
  rcases exec_cases h with ⟨e, he, rfl⟩ | ⟨he, rfl⟩ <;> rw [he] <;> rfl

/-! ## One access of a sequence -/

theorem hostWrite_outside (s : State) (r : Reg) (v : Word) (p : List HostInput) (d : Word) :
    (s.outside p d).hostWrite r v = (s.hostWrite r v).outside p d := by
  have hs : (s.outside p d).status = s.status := rfl
  cases hb : s.status.busy <;> cases he : s.status.err <;> cases r <;>
    simp only [State.hostWrite, State.writeCmd, hs, hb, he, Bool.or_self, Bool.or_true, Bool.true_or, if_true,
      Bool.false_eq_true, if_false] <;> rfl

/-- The host's next access acts while the engine waits. -/
theorem step_idle {s : State} (hb : s.status.busy = false) (a : HostInput) (rest : List HostInput) (d : Word) :
    step (s.outside (a :: rest) d) = hostStep a.action (s.outside rest d) := by
  simp [step, State.engineMoves, hb, outsideStep, State.outside]

/-- An early access acts before the engine. -/
theorem step_early (s : State) (a : HostAction) (rest : List HostInput) (d : Word) :
    step (s.outside (⟨true, a⟩ :: rest) d) = hostStep a (s.outside rest d) := by
  simp [step, State.engineMoves, outsideStep, State.outside]

/-- An access that is not early waits for the engine's step. -/
theorem step_late {s : State} (hb : s.status.busy = true) (a : HostAction) (rest : List HostInput) (d : Word) :
    step (s.outside (⟨false, a⟩ :: rest) d) = perform (s.outside (⟨false, a⟩ :: rest) d) := by
  simp [step, State.engineMoves, hb, State.outside]

/-- `WR` of an idle block (R91). -/
theorem step_wr {s : State} (hb : s.status.busy = false) {o : BitVec 12} (ho : o.toNat % 4 = 0) (v : Word)
    (rest : List HostInput) (d : Word) :
    step (s.outside (HostApi.wr o v :: rest) d) = .next ((s.hostWrite (regAt o) v).outside rest d) := by
  rw [HostApi.wr, step_idle hb, hostStep_writeReg ho, hostWrite_outside]

/-- `RD` of an idle block (R91): the value, and the windows closed where it is a read of STATUS (R196). -/
theorem step_rd {s : State} (hb : s.status.busy = false) {o : BitVec 12} (ho : o.toNat % 4 = 0)
    (rest : List HostInput) (d : Word) :
    step (s.outside (HostApi.rd o :: rest) d) =
      .next ({ s with unobserved := if regAt o = Reg.status then [] else s.unobserved }.outside rest
        (s.regValue (regAt o))) := by
  rw [HostApi.rd, step_idle hb, hostStep_readReg ho, hostRead_idle (by exact hb)]
  cases regAt o <;> rfl

/-- The reads of STATUS that still find BUSY = 1 change only the value returned (R57). -/
theorem runs_early_polls {s : State} (hb : s.status.busy = true) (waits : Nat) (rest : List HostInput) (d : Word) :
    ∃ d', Runs waits (s.outside (List.replicate waits ⟨true, .readReg 0x004 .word⟩ ++ rest) d)
      (s.outside rest d') := by
  induction waits generalizing d with
  | zero => exact ⟨d, runs_zero _⟩
  | succ waits ih =>
    obtain ⟨d', hd⟩ := ih s.status.toWord
    refine ⟨d', runs_succ ?_ hd⟩
    rw [List.replicate_succ, List.cons_append, step_early, hostStep_readReg (by decide)]
    simp [show regAt 4#12 = Reg.status from by decide, State.hostRead, hb, Reg.openWhileBusy, State.regValue,
      State.outside]

/-! ## Host writes of a slot -/

theorem setSlot_self (s : State) (n : Slot) : s.setSlot n (s.slot n) = s := by
  simp [State.setSlot, State.slot]

/-- A row of host writes of one slot, each of which updates the slot by `g`, leaves the slot updated by all of them. -/
theorem runs_slotWrites {α : Type} (n : Slot) (l : List α) (off : α → Nat) (v : α → Word) (g : Rec → α → Rec)
    (ho : ∀ a, (HostApi.recField n (off a)).toNat % 4 = 0)
    (hw : ∀ (s : State) a, s.status.busy = false →
      s.hostWrite (regAt (HostApi.recField n (off a))) (v a) = s.setSlot n (g (s.slot n) a))
    {s : State} (hb : s.status.busy = false) (rest : List HostInput) (d : Word) :
    Runs l.length (s.outside (l.map (fun a => HostApi.wr (HostApi.recField n (off a)) (v a)) ++ rest) d)
      ((s.setSlot n (l.foldl g (s.slot n))).outside rest d) := by
  induction l generalizing s with
  | nil =>
    rw [List.foldl_nil, setSlot_self]
    exact runs_zero _
  | cons a l ih =>
    have h := step_wr hb (ho a) (v a) (l.map (fun a => HostApi.wr (HostApi.recField n (off a)) (v a)) ++ rest) d
    rw [hw s a hb] at h
    have := ih (s := s.setSlot n (g (s.slot n) a)) hb
    have e : (s.setSlot n (g (s.slot n) a)).setSlot n (l.foldl g ((s.setSlot n (g (s.slot n) a)).slot n)) =
        s.setSlot n ((a :: l).foldl g (s.slot n)) := by
      simp [State.setSlot, State.slot]
    rw [e] at this
    exact runs_succ h this

/-- Setting every entry, one after the other. -/
theorem foldl_set {α : Type} {m : Nat} (w v : Vector α m) :
    (List.finRange m).foldl (fun (u : Vector α m) i => u.set i.val w[i]) v = w := by
  ext j hj
  have : ∀ (l : List (Fin m)) (u₀ : Vector α m),
      (l.foldl (fun (u : Vector α m) i => u.set i.val w[i]) u₀)[j] = if ⟨j, hj⟩ ∈ l then w[j] else u₀[j] := by
    intro l
    induction l with
    | nil => simp
    | cons i l ih =>
      intro u₀
      rw [List.foldl_cons, ih, Vector.getElem_set]
      by_cases h1 : (⟨j, hj⟩ : Fin m) ∈ l
      · simp [h1]
      · by_cases h2 : i.val = j
        · have : i = ⟨j, hj⟩ := Fin.ext h2
          subst this; simp [h1]
        · have : (⟨j, hj⟩ : Fin m) ≠ i := fun h => h2 (by rw [← h])
          simp [h1, h2, this]
  rw [this, if_pos (List.mem_finRange _)]

end Sys2Proof.Machine
end

