-- ==== Sys2Proof/Laws/PixelRemap.lean ====
section
/-! SUPPORT. The remap engine: the pixels of a raster buffer do not overlap, and what the buffer walk leaves in each byte. -/

namespace Sys2Proof.Machine

/-- Under STRIDE ≥ WIDTH the pixels are visited at ascending, disjoint addresses (R152, R159). -/
theorem rasterPixels_pairwise {a w h st : Nat} (hw : w ≤ st) :
    (rasterPixels a w h st).Pairwise (fun p q => p + 2 ≤ q) := by
  unfold rasterPixels
  rw [List.pairwise_flatMap]
  constructor
  · intro y _
    rw [List.pairwise_map]
    refine List.pairwise_lt_range.imp fun {x x'} hx => ?_
    simp only [pixelAddress]
    omega
  · refine List.pairwise_lt_range.imp fun {y y'} hy => ?_
    intro p hp q hq
    obtain ⟨x, hx, rfl⟩ := List.mem_map.mp hp
    obtain ⟨x', -, rfl⟩ := List.mem_map.mp hq
    have hx := List.mem_range.mp hx
    have hm : (y + 1) * st ≤ y' * st := Nat.mul_le_mul_right st hy
    rw [Nat.add_mul, Nat.one_mul] at hm
    simp only [pixelAddress]
    omega

/-- The value a pixel has after its visit (R156). -/
def newPixel (ramp : Vector Half 32) (gray : Bool) (p : Half) : Half := (remapPixel p ramp gray).2

/-- A pixel that is not replaced keeps its value (R156). -/
theorem newPixel_of_kept {p : Half} {ramp : Vector Half 32} {gray : Bool}
    (h : (remapPixel p ramp gray).1 = false) : newPixel ramp gray p = p := by
  unfold newPixel
  unfold remapPixel at h ⊢
  grind

/-- What a visit leaves in each byte, replaced or kept (R159). -/
theorem read_visitPixel (ramp : Vector Half 32) (gray : Bool) (m : Memory) (a b : Nat) :
    Memory.read (visitPixel ramp gray m a) b =
      if b = a + 1 then highByte (newPixel ramp gray (Memory.readHalf m a))
      else if b = a then lowByte (newPixel ramp gray (Memory.readHalf m a))
      else Memory.read m b := by
  cases h : (remapPixel (Memory.readHalf m a) ramp gray).1 with
  | true => simp [visitPixel, h, Memory.read_writeHalf, newPixel]
  | false =>
    have hv : visitPixel ramp gray m a = m := by simp [visitPixel, h]
    rw [newPixel_of_kept h, hv, Memory.readHalf, lowByte_halfOfBytes, highByte_halfOfBytes]
    split
    · next e => rw [e]
    · split
      · next e => rw [e]
      · rfl

/-- A byte of no pixel of the list is kept by the walk (R150, R159). -/
theorem read_walk_other {ramp : Vector Half 32} {gray : Bool} {ps : List Nat} {b : Nat}
    (h : ∀ p ∈ ps, b ≠ p ∧ b ≠ p + 1) (m : Memory) :
    Memory.read (ps.foldl (visitPixel ramp gray) m) b = Memory.read m b := by
  induction ps generalizing m with
  | nil => rfl
  | cons p ps ih =>
    rw [List.foldl_cons, ih fun q hq => h q (by simp [hq]), read_visitPixel,
      if_neg (h p (by simp)).2, if_neg (h p (by simp)).1]

/-- Every pixel of the list has, after the walk, the value its own old value gives it (R159). -/
theorem readHalf_walk {ramp : Vector Half 32} {gray : Bool} {ps : List Nat}
    (hd : ps.Pairwise (fun p q => p + 2 ≤ q)) {p : Nat} (hp : p ∈ ps) (m : Memory) :
    Memory.readHalf (ps.foldl (visitPixel ramp gray) m) p =
      newPixel ramp gray (Memory.readHalf m p) := by
  induction ps generalizing m with
  | nil => exact absurd hp (by simp)
  | cons q ps ih =>
    obtain ⟨hq, hps⟩ := List.pairwise_cons.mp hd
    rw [List.foldl_cons]
    rcases List.mem_cons.mp hp with rfl | hp
    · have keep : ∀ b, b = p ∨ b = p + 1 → ∀ r ∈ ps, b ≠ r ∧ b ≠ r + 1 := fun b hb r hr => by
        have := hq r hr
        omega
      rw [Memory.readHalf, read_walk_other (keep p (.inl rfl)), read_walk_other (keep (p + 1) (.inr rfl)),
        read_visitPixel, read_visitPixel, if_neg (by omega), if_pos rfl, if_pos rfl,
        halfOfBytes_lowByte_highByte]
    · have := hq p hp
      rw [ih hps hp, Memory.readHalf, read_visitPixel, read_visitPixel, if_neg (by omega),
        if_neg (by omega), if_neg (by omega), if_neg (by omega), Memory.readHalf]

end Sys2Proof.Machine
end

