-- ==== Sys2Proof/Laws/MemoryPort.lean ====
section
/-! SUPPORT. The accesses at the memory port: which addresses each shape of access list reads and writes. -/

namespace Sys2Proof.Machine

@[simp] theorem PortAccess.readAddress_read (a : Nat) : (PortAccess.read a).readAddress = some a := rfl

@[simp] theorem PortAccess.readAddress_write (a : Nat) (v : Byte) :
    (PortAccess.write a v).readAddress = none := rfl

@[simp] theorem PortAccess.written_read (a : Nat) : (PortAccess.read a).written = none := rfl

@[simp] theorem PortAccess.written_write (a : Nat) (v : Byte) :
    (PortAccess.write a v).written = some (a, v) := rfl

/-- Reading `n` bytes reads those addresses and writes none. -/
theorem readsFrom_reads (a n : Nat) :
    (readsFrom a n).filterMap PortAccess.readAddress = (List.range n).map (a + ·) := by
  simp [readsFrom, List.filterMap_map, Function.comp_def]

theorem readsFrom_writes (a n : Nat) : (readsFrom a n).filterMap PortAccess.written = [] := by
  simp [readsFrom, List.filterMap_map, Function.comp_def]

/-- Writing bytes reads none and writes them at ascending addresses. -/
theorem writesFrom_reads (a : Nat) (bs : List Byte) :
    (writesFrom a bs).filterMap PortAccess.readAddress = [] := by
  induction bs generalizing a with
  | nil => rfl
  | cons b bs ih => rw [writesFrom, List.filterMap_cons_none (by rfl), ih]

theorem writesFrom_addresses (a : Nat) (bs : List Byte) :
    ((writesFrom a bs).filterMap PortAccess.written).map Prod.fst =
      (List.range bs.length).map (a + ·) := by
  induction bs generalizing a with
  | nil => rfl
  | cons b bs ih =>
    rw [writesFrom, List.filterMap_cons_some (PortAccess.written_write a b), List.map_cons, ih,
      List.length_cons, List.range_succ_eq_map, List.map_cons, List.map_map]
    exact congrArg _ (List.map_congr_left fun k _ => by simp; omega)

theorem writesFrom_replay (m : Memory) (a : Nat) (bs : List Byte) :
    Memory.replay m ((writesFrom a bs).filterMap PortAccess.written) = Memory.writeBytes m a bs := by
  induction bs generalizing m a with
  | nil => rfl
  | cons b bs ih =>
    rw [writesFrom, List.filterMap_cons_some (PortAccess.written_write a b), Memory.replay_cons, ih,
      Memory.writeBytes]

/-- The visit of a pixel reads its two bytes, and writes both or none (R71). -/
theorem pixelAccesses_reads (m : Memory) (ramp : Vector Half 32) (gray : Bool) (a : Nat) :
    (pixelAccesses m ramp gray a).filterMap PortAccess.readAddress = [a, a + 1] := by
  unfold pixelAccesses
  cases h : (remapPixel (Memory.readHalf m a) ramp gray).1 <;> simp only [h] <;> rfl

theorem pixelAccesses_writes (m : Memory) (ramp : Vector Half 32) (gray : Bool) (a : Nat) :
    (pixelAccesses m ramp gray a).filterMap PortAccess.written =
      if (remapPixel (Memory.readHalf m a) ramp gray).1 then
        [(a, lowByte (newPixel ramp gray (Memory.readHalf m a))),
          (a + 1, highByte (newPixel ramp gray (Memory.readHalf m a)))]
      else [] := by
  unfold pixelAccesses newPixel
  cases h : (remapPixel (Memory.readHalf m a) ramp gray).1 <;> simp only [h] <;> rfl

/-- REMAP reads every byte of its footprint, in its order (R71). -/
theorem State.remapAccesses_reads (s : State) (gray : Bool) (n : Slot) :
    (s.remapAccesses gray n).filterMap PortAccess.readAddress = s.rasterFootprint.bytes := by
  unfold State.remapAccesses
  rw [List.filterMap_flatMap]
  simp only [pixelAccesses_reads]
  rfl

/-- REMAP writes the two bytes of each pixel it replaces, in order (R71). -/
theorem State.remapAccesses_addresses (s : State) (gray : Bool) (n : Slot) :
    ((s.remapAccesses gray n).filterMap PortAccess.written).map Prod.fst =
      (rasterPixels s.addr.toNat s.width.toNat s.height.toNat s.stride.toNat).flatMap fun a =>
        if (remapPixel (Memory.readHalf s.mem a) (s.slot n).ramp gray).1 then [a, a + 1] else [] := by
  unfold State.remapAccesses
  rw [List.filterMap_flatMap, List.map_flatMap]
  refine List.flatMap_congr fun a _ => ?_
  rw [pixelAccesses_writes]
  split <;> rfl

end Sys2Proof.Machine
end

