-- ==== Sys2Proof/Laws/PerInstr.lean ====
section
/-! SUPPORT. Statements about every command as syntax, one lemma per constructor. -/

namespace Sys2Proof.Laws

namespace ReservedBitsClear

/-- The word of a command has RSV = 0 (R80). -/
def Statement (i : Instr) : Prop := reservedField (encode i) = 0

theorem enc : Statement .enc := by unfold Statement; decide
theorem dec : Statement .dec := by unfold Statement; decide
theorem mkset : Statement .mkset := by unfold Statement; decide
theorem mkclr : Statement .mkclr := by unfold Statement; decide
theorem rload (s : Slot) : Statement (.rload s) := by unfold Statement; revert s; decide
theorem rstore (s : Slot) : Statement (.rstore s) := by unfold Statement; revert s; decide
theorem rclr (s : Slot) : Statement (.rclr s) := by unfold Statement; revert s; decide
theorem bload : Statement .bload := by unfold Statement; decide
theorem bstore : Statement .bstore := by unfold Statement; decide
theorem remapF (s : Slot) : Statement (.remapF s) := by unfold Statement; revert s; decide
theorem remapG (s : Slot) : Statement (.remapG s) := by unfold Statement; revert s; decide
theorem pixF (s : Slot) : Statement (.pixF s) := by unfold Statement; revert s; decide
theorem pixG (s : Slot) : Statement (.pixG s) := by unfold Statement; revert s; decide

end ReservedBitsClear

namespace LineWellFormed

/-- The line that writes a command passes the checks of R90 and stands for that command. -/
def Statement (i : Instr) : Prop := i.WellFormed

theorem enc : Statement .enc := rfl
theorem dec : Statement .dec := rfl
theorem mkset : Statement .mkset := rfl
theorem mkclr : Statement .mkclr := rfl
theorem rload (s : Slot) : Statement (.rload s) := dif_pos s.isLt
theorem rstore (s : Slot) : Statement (.rstore s) := dif_pos s.isLt
theorem rclr (s : Slot) : Statement (.rclr s) := dif_pos s.isLt
theorem bload : Statement .bload := rfl
theorem bstore : Statement .bstore := rfl
theorem remapF (s : Slot) : Statement (.remapF s) := dif_pos s.isLt
theorem remapG (s : Slot) : Statement (.remapG s) := dif_pos s.isLt
theorem pixF (s : Slot) : Statement (.pixF s) := dif_pos s.isLt
theorem pixG (s : Slot) : Statement (.pixG s) := dif_pos s.isLt

end LineWellFormed

end Sys2Proof.Laws
end

