-- ==== Sys2Proof/Tests/Slice0.lean ====
section
/-! SUPPORT. The model's own tests: ill-formed lines, decoding of words written out from the spec's encodings, one step at
a time against the vectors of spec/95_test_vectors.md, and one witness for the hypotheses of every statement. -/

namespace Sys2Proof.Tests

open Sys2Proof.Machine Sys2Proof.Statement

/-! ## Helpers -/

/-- A view of the next state; `none` for a fault or a refusal. -/
def after {α : Type} (o : Host.Outcome State Fault Refusal) (f : State → α) : Option α :=
  match o with
  | .next t => some (f t)
  | .fault _ => none
  | .refused _ => none

/-- A state whose engine is about to perform a command word. -/
def busyOn (v : Word) (s : State) : State := s.loadCommand v

/-- A state with one action to come, from outside. -/
def facing (a : HostAction) (s : State) : State := { s with pending := [⟨true, a⟩] }

/-- The platform of programs P5 and V14: no write is admitted in 0x5000 to 0x5FFF. -/
def guarded (s : State) : State := { s with denied := [⟨0x5000, 0x5FFF, .write⟩] }

/-- A platform that admits nothing at all at the top of memory and below 16. -/
def closed (s : State) : State :=
  { s with denied := [⟨0xFFFFFFA8, 0xFFFFFFFF, .read⟩, ⟨0xFFFFFFA8, 0xFFFFFFFF, .write⟩,
      ⟨0, 15, .read⟩, ⟨0, 15, .write⟩] }

/-- Memory with the given bytes from an address on. -/
def withBytes (a : Nat) (bs : List Byte) (s : State) : State := { s with mem := Memory.writeBytes s.mem a bs }

/-- Slot 0 with the ramp `0x8000 | k` of spec/95 section 2.4. -/
def withRamp (s : State) : State :=
  s.setSlot 0 { Rec.default with ramp := Vector.ofFn fun k => 0x8000 ||| BitVec.ofNat 16 k.val }

/-- A state with an established header. -/
def withHeader (h : Word) (s : State) : State :=
  { s with hdr := h, status := s.status.establishHeader }

/-- A state with raster operands. -/
def withRaster (a : Word) (w h st : Half) (s : State) : State :=
  { s with addr := a, width := w, height := h, stride := st }

/-! ## Well-formedness: each check of R90 refuses an ill-formed line -/

theorem test_line_operand_missing : (AsmLine.mk .rload none).toInstr = .error .operandMissing := by decide

theorem test_line_operand_unexpected :
    (AsmLine.mk .bload (some 0)).toInstr = .error .operandUnexpected := by decide

theorem test_line_slot_out_of_range : (AsmLine.mk .pixG (some 8)).toInstr = .error .slotOutOfRange := by decide

theorem test_line_slot_in_range : (AsmLine.mk .remapG (some 2)).toInstr = .ok (.remapG 2) := by decide

/-! ## Decoding: words written out from R80, R81 and R90, as RSV ++ G ++ SLOT ++ OP -/

theorem test_decode_enc : decode (0x00000#20 ++ 0#1 ++ 0#3 ++ 0x01#8) = .ok .enc := by decide
theorem test_decode_dec : decode (0x00000#20 ++ 0#1 ++ 0#3 ++ 0x02#8) = .ok .dec := by decide
theorem test_decode_mkset : decode (0x00000#20 ++ 0#1 ++ 0#3 ++ 0x03#8) = .ok .mkset := by decide
theorem test_decode_mkclr : decode (0x00000#20 ++ 0#1 ++ 0#3 ++ 0x04#8) = .ok .mkclr := by decide
theorem test_decode_rload : decode (0x00000#20 ++ 0#1 ++ 0b011#3 ++ 0x10#8) = .ok (.rload 3) := by decide
theorem test_decode_rstore : decode (0x00000#20 ++ 0#1 ++ 0b101#3 ++ 0x11#8) = .ok (.rstore 5) := by decide
theorem test_decode_rclr : decode (0x00000#20 ++ 0#1 ++ 0b111#3 ++ 0x12#8) = .ok (.rclr 7) := by decide
theorem test_decode_bload : decode (0x00000#20 ++ 0#1 ++ 0#3 ++ 0x13#8) = .ok .bload := by decide
theorem test_decode_bstore : decode (0x00000#20 ++ 0#1 ++ 0#3 ++ 0x14#8) = .ok .bstore := by decide
theorem test_decode_remapF : decode (0x00000#20 ++ 0#1 ++ 0b001#3 ++ 0x20#8) = .ok (.remapF 1) := by decide
theorem test_decode_remapG : decode (0x00000#20 ++ 1#1 ++ 0b010#3 ++ 0x20#8) = .ok (.remapG 2) := by decide
theorem test_decode_pixF : decode (0x00000#20 ++ 0#1 ++ 0b111#3 ++ 0x21#8) = .ok (.pixF 7) := by decide
theorem test_decode_pixG : decode (0x00000#20 ++ 1#1 ++ 0b110#3 ++ 0x21#8) = .ok (.pixG 6) := by decide

/-- The illegal words of spec/95 section 2.5, each with its reason. -/
theorem test_decode_illegal :
    decode 0x00000000 = .error .reservedOp ∧ decode 0x00000005 = .error .reservedOp ∧
    decode 0x00000015 = .error .reservedOp ∧ decode 0x00000022 = .error .reservedOp ∧
    decode 0x000000FF = .error .reservedOp ∧ decode 0x00000101 = .error .slotUnused ∧
    decode 0x00000801 = .error .modeUnused ∧ decode 0x00000113 = .error .slotUnused ∧
    decode 0x00000910 = .error .modeUnused ∧ decode 0x00001001 = .error .reservedBits ∧
    decode 0x80000020 = .error .reservedBits := by decide

theorem test_decode_table_word :
    decodeTableWord 32 0x00000F21 = some (.pixG 7) ∧ decodeTableWord 32 0x00000022 = none := by decide

/-! ## One step of each command, against spec/95 -/

/-- ENC table: 200, 100, 50 give levels 24, 12, 6. -/
theorem test_enc_levels :
    after (step (busyOn 0x00000001 { State.reset with opnd := 0x00C86432 }))
      (fun t => (t.result, t.status.toWord)) = some (0x00006186, 0x2) := by decide

/-- ENC table: the forced level, and bits 31:24 ignored. -/
theorem test_enc_forced :
    after (step (busyOn 0x00000001 { State.reset with opnd := 0x00080808 })) State.result = some 0x00000421 ∧
    after (step (busyOn 0x00000001 { State.reset with opnd := 0xAB102030 })) State.result =
      some 0x00000465 := by decide

/-- DEC table: bits 31:16 ignored. -/
theorem test_dec_fields :
    after (step (busyOn 0x00000002 { State.reset with opnd := 0x12347C1F })) State.result =
      some 0x00F800F8 := by decide

/-- DEC table: the marker is ignored. -/
theorem test_dec_marker :
    after (step (busyOn 0x00000002 { State.reset with opnd := 0x00008C63 })) State.result =
      some 0x00181818 := by decide

theorem test_mkset :
    after (step (busyOn 0x00000003 { State.reset with opnd := 0xFFFF1234 })) State.result = some 0x00009234 ∧
    after (step (busyOn 0x00000003 { State.reset with opnd := 0x00008000 })) State.result =
      some 0x00008000 := by decide

/-- MKCLR is an XOR: the marker comes out set where it was clear. -/
theorem test_mkclr :
    after (step (busyOn 0x00000004 State.reset)) State.result = some 0x00008000 ∧
    after (step (busyOn 0x00000004 { State.reset with opnd := 0x0000FFFF })) State.result =
      some 0x00007FFF := by decide

/-- V2: a color with bit 15 set stays set, and the name "Red" is decoded; no other slot changes. -/
theorem test_rload_record :
    after (step (busyOn 0x00000010
        (withBytes 0x144 [0x52, 0x65, 0x64] (withBytes 0x100 [0x34, 0x12, 0xFF, 0xFF]
          { State.reset with addr := 0x100 }))))
      (fun t => (t.regValue (.ramp 0 0), t.regValue (.ramp 0 1), t.regValue (.ramp 0 2),
        t.regValue (.name 0 0), t.slot 1, t.status.toWord)) =
      some (0x9234, 0xFFFF, 0x8000, 0x00646552, Rec.default, 0x2) := by decide +kernel

/-- Name table: a line feed becomes a space, and what follows the terminator is dropped. -/
theorem test_rload_name :
    after (step (busyOn 0x00000710 (withBytes 68 [0x61, 0x0A, 0x62, 0x00, 0x63, 0x0A] State.reset)))
      (fun t => (t.regValue (.name 7 0), t.regValue (.name 7 1))) = some (0x00622061, 0) := by decide +kernel

/-- V4: the default record stores its zero colors as 0x8000. -/
theorem test_rstore_default :
    after (step (busyOn 0x00000511 { State.reset with addr := 0x300 }))
      (fun t => (t.mem.length, Memory.readHalf t.mem 0x300, Memory.readHalf t.mem 0x342,
        Memory.read t.mem 0x344, Memory.read t.mem 0x348)) =
      some (38, 0x8000, 0x8000, 0x4E, 0) := by decide +kernel

/-- V14: the footprint reaches a byte that is not admitted: BUS, and nothing is written. -/
theorem test_rstore_bus :
    after (step (busyOn 0x00000011 (guarded { State.reset with addr := 0x4FD0 })))
      (fun t => (t.status.toWord, t.errAddr, t.mem)) = some (0x404, 0x5000, []) := by decide +kernel

/-- V5. -/
theorem test_rclr :
    after (step (busyOn 0x00000012
        (State.reset.setSlot 0 { Rec.default with ramp := Vector.replicate 32 0x1234, tend := 7 })))
      (fun t => (t.slot 0, t.regValue (.name 0 0), t.regValue (.name 0 1))) =
      some (Rec.default, 0x6C6C754E, 0) := by decide +kernel

/-- V6: the header, little-endian, and HDRV. -/
theorem test_bload :
    after (step (busyOn 0x00000013
        (withBytes 0x1000 [0x78, 0x56, 0x34, 0x12] { State.reset with addr := 0x1000 })))
      (fun t => (t.hdr, t.status.toWord)) = some (0x12345678, 0xA) := by decide +kernel

/-- P2's layout: record 7 of the block goes to slot 7. -/
theorem test_bload_record :
    after (step (busyOn 0x00000013
        (withBytes 0x126C [0xE7, 0x1C] { State.reset with addr := 0x1000 })))
      (fun t => (t.regValue (.ramp 7 0), t.regValue (.ramp 6 0))) = some (0x9CE7, 0x8000) := by decide +kernel

/-- V7, V13: no header, reported before the range. -/
theorem test_bstore_nohdr :
    after (step (busyOn 0x00000014 { State.reset with addr := 0xFFFFFFFF }))
      (fun t => (t.status.toWord, t.errAddr, t.mem)) = some (0x504, 0, []) := by decide

/-- V29. -/
theorem test_remapF :
    after (step (busyOn 0x00000020 (withBytes 0x3000 [0x00, 0x00, 0x00, 0x0C]
        (withRaster 0x3000 2 1 2 (withRamp State.reset)))))
      (fun t => (Memory.readHalf t.mem 0x3000, Memory.readHalf t.mem 0x3002, t.status.toWord)) =
      some (0x0000, 0x8003, 0x2) := by decide +kernel

/-- V22, V23: GEOMETRY comes first, also for no rows. -/
theorem test_remapF_geometry :
    after (step (busyOn 0x00000020 (withRaster 0 4 0 3 State.reset))) (fun t => t.status.toWord) = some 0x204 ∧
    after (step (busyOn 0x00000020 (withRaster 0xFFFFFFFF 4 1 3 State.reset))) (fun t => t.status.toWord) =
      some 0x204 := by decide

/-- V30: gray pixels only, and the padding is kept. -/
theorem test_remapG :
    after (step (busyOn 0x00000820
        (withBytes 0x3000 [0x63, 0x0C, 0x00, 0x0C, 0x00, 0x00, 0x34, 0x12]
          (withRaster 0x3000 3 1 4 (withRamp State.reset)))))
      (fun t => (List.range 4).map fun x => Memory.readHalf t.mem (0x3000 + 2 * x)) =
      some [0x8003, 0x0C00, 0x0000, 0x1234] := by decide +kernel

/-- V28: write admission is asked of pixels that would be kept. -/
theorem test_remapG_bus :
    after (step (busyOn 0x00000820 (guarded (withRaster 0x4FF0 16 1 16 State.reset))))
      (fun t => (t.status.toWord, t.errAddr)) = some (0x404, 0x5000) := by decide +kernel

/-- PIX table: a colored pixel is replaced by its red field, and 0x8000 is not a zero pixel. -/
theorem test_pixF :
    after (step (busyOn 0x00000021 (withRamp { State.reset with opnd := 0x8C00 }))) State.result =
      some 0x00008003 ∧
    after (step (busyOn 0x00000021 (withRamp { State.reset with opnd := 0x8000 }))) State.result =
      some 0x00008000 := by decide

/-- PIX table: a colored pixel keeps its marker, and a gray one is replaced. -/
theorem test_pixG :
    after (step (busyOn 0x00000821 (withRamp { State.reset with opnd := 0x8C00 }))) State.result =
      some 0x00008C00 ∧
    after (step (busyOn 0x00000821 (withRamp { State.reset with opnd := 0x4210 }))) State.result =
      some 0x00008010 := by decide

/-- An illegal word is accepted and performed as error ILLEGAL. -/
theorem test_illegal_word :
    after (step (busyOn 0x00000101 State.reset)) (fun t => (t.status.toWord, t.errAddr)) =
      some (0x104, 0) := by decide

/-- The boundaries of RANGE: V9 to V12, V24 to V27. -/
theorem test_range_boundaries :
    (State.reset.footprint (.rload 0)).last = some 87 ∧
    ({ State.reset with addr := 0xFFFFFFA8 }).commandError (.rload 0) = none ∧
    ({ State.reset with addr := 0xFFFFFFA9 }).commandError (.rload 0) = some (.plain .range) ∧
    (withHeader 0 { State.reset with addr := 0xFFFFFD3D }).commandError .bstore = some (.plain .range) ∧
    (withRaster 0xFFFFFFFE 1 1 1 State.reset).commandError (.remapF 0) = none ∧
    (withRaster 0xFFFFFFFF 1 1 1 State.reset).commandError (.remapF 0) = some (.plain .range) ∧
    (withRaster 0xFFFE0000 2 2 0x8000 State.reset).commandError (.remapF 0) = none ∧
    (withRaster 0xFFFE0000 2 3 0x8000 State.reset).commandError (.remapF 0) = some (.plain .range) := by
  decide +kernel

/-! ## The register port, against V40 to V49 -/

/-- V40: a write while BUSY = 1 is dropped and sets OVR. -/
theorem test_write_while_busy :
    after (step (facing (.writeReg 0x018 .word 0) (busyOn 0x1 { State.reset with opnd := 0x00FFFFFF })))
      (fun t => (t.opnd, t.status.toWord)) = some (0x00FFFFFF, 0x11) := by decide

/-- V42, V43. -/
theorem test_cmd_under_error_and_clear :
    after (hostStep (.writeReg 0x000 .word 0x1)
        { State.reset with status := { State.reset.status with err := true, errCode := 3 } })
      (fun t => (t.status.toWord, t.cmdLatch)) = some (0x314, 0) ∧
    after (hostStep (.writeReg 0x004 .word 0xFFFF)
        { State.reset with status := { State.reset.status with err := true, errCode := 3, ovr := true } })
      (fun t => t.status.toWord) = some 0 := by decide

/-- V44, V49. -/
theorem test_header_flag :
    after (hostStep (.writeReg 0x004 .word 0x2)
        { State.reset with status := { State.reset.status with done := true, hdrv := true } })
      (fun t => t.status.toWord) = some 0x8 ∧
    after (hostStep (.writeReg 0x020 .word 0) State.reset) (fun t => t.status.toWord) = some 0x8 := by decide

/-- V45, V46. -/
theorem test_reserved_bits_are_not_stored :
    after (hostStep (.writeReg 0x400 .word 0xFFFF1234) State.reset) (readAt · 0x400) = some (some 0x1234) ∧
    after (hostStep (.writeReg 0x00C .word 0x12345678) State.reset) (readAt · 0x00C) =
      some (some 0x5678) := by decide

/-- V47, V48. -/
theorem test_reserved_offsets :
    (readAt State.reset 0x000, readAt State.reset 0x028, readAt State.reset 0x49C, readAt State.reset 0xC00) =
      (some 0, some 0, some 0, some 0) ∧
    after (hostStep (.writeReg 0x01C .word 5) State.reset) (· == State.reset) = some true ∧
    after (hostStep (.writeReg 0x028 .word 5) State.reset) (· == State.reset) = some true := by decide +kernel

/-- R32: the four bytes of a name word. -/
theorem test_name_word :
    after (hostStep (.writeReg 0x58C .word 0x64636261) State.reset)
      (fun t => ((t.slot 1).name.toList.drop 4).take 5) = some [0x61, 0x62, 0x63, 0x64, 0] := by decide

/-- U4: a host access that is not a word at a multiple of 4. -/
theorem test_subword :
    hostStep (.readReg 0x008 .half) State.reset = .refused .hostSubword ∧
    hostStep (.writeReg 0x00A .word 1) State.reset = .refused .hostSubword := ⟨rfl, rfl⟩

/-- U7: a host access to a byte of the footprint of a command in flight, and one beside it. -/
theorem test_footprint_hazard :
    hostStep (.readMem 0x157) (busyOn 0x10 { State.reset with addr := 0x100 }) = .fault .footprintHazard ∧
    after (hostStep (.readMem 0x158) (busyOn 0x10 { State.reset with addr := 0x100 })) State.readData =
      some 0 := ⟨rfl, rfl⟩

/-- R196: the window closes at the first read of STATUS with BUSY = 0, not before. -/
theorem test_window_closes :
    after (hostStep (.readReg 0x004 .word) (busyOn 0x10 State.reset)) (fun t => t.unobserved.length) = some 1 ∧
    after (hostStep (.readReg 0x004 .word) { State.reset with unobserved := [.empty, .empty] })
      (fun t => t.unobserved.length) = some 0 := by decide

/-- R190: reset clears the error and the bank and keeps memory. -/
theorem test_reset :
    after (hostStep .reset (withBytes 0x10 [1] (withHeader 5 (State.reset.setSlot 2
        { Rec.default with tend := 9 }))))
      (fun t => (t.hdr, t.status.toWord, t.slot 2, Memory.read t.mem 0x10)) =
      some (0, 0, Rec.default, 1) := by decide

/-- R92: the sequence of `rgbToHueColor`, line by line as the host issues it, with one read that finds BUSY = 1. -/
theorem test_api_color :
    HostApi.rgbToHueColor 200 100 50 1 =
      [⟨false, .writeReg 0x018 .word 0x00C86432⟩, ⟨false, .writeReg 0x000 .word 0x1⟩,
        ⟨true, .readReg 0x004 .word⟩, ⟨false, .readReg 0x004 .word⟩, ⟨false, .readReg 0x01C .word⟩] := by decide

/-- R92: `applyHue` with the ramp by RLOAD, in gray-only mode with slot 2. -/
theorem test_api_applyHue :
    (HostApi.applyHue 2 (.record 0x1000 0) 0x2000 3 4 5 true 0).map HostInput.action =
      [.writeReg 0x008 .word 0x1000, .writeReg 0x000 .word 0x210, .readReg 0x004 .word,
        .writeReg 0x008 .word 0x2000, .writeReg 0x00C .word 3, .writeReg 0x010 .word 4,
        .writeReg 0x014 .word 5, .writeReg 0x000 .word 0xA20, .readReg 0x004 .word] := by decide

/-- R92, R31: the host writes of a ramp go to the 32 words of its slot. -/
theorem test_api_ramp :
    ((HostApi.placeRamp 7 (.writes (Vector.replicate 32 0x8421))).map HostInput.action).getLast? =
      some (.writeReg 0xB7C .word 0x8421) ∧
    (HostApi.placeRamp 7 (.writes (Vector.replicate 32 0x8421))).length = 32 := by decide

/-- R92: `loadPaletteFile` reads HDR and then every word of every slot. -/
theorem test_api_loadBlock :
    ((HostApi.loadBlock 0x1000 0).drop 3).head? = some (HostApi.rd 0x020) ∧
    ((HostApi.loadBlock 0x1000 0).drop 4).head? = some (HostApi.rd 0x400) ∧
    (HostApi.loadBlock 0x1000 0).getLast? = some (HostApi.rd 0xB98) ∧
    (HostApi.loadBlock 0x1000 0).length = 4 + 8 * 39 := by decide +kernel

/-- R92: `savePaletteFile` with the header by BLOAD, slot 1 by RCLR and slot 3 by host writes. -/
theorem test_api_saveBlock :
    let q := HostApi.saveBlock 0x2000 (.block 0x1000 0)
      #v[.standing, .cleared 0, .standing, .writes Rec.default, .standing, .standing, .standing, .standing] 0;
    q.take 5 = [HostApi.wr 0x008 0x1000, HostApi.wr 0x000 0x13, HostApi.rd 0x004,
      HostApi.wr 0x000 0x112, HostApi.rd 0x004] ∧
    q.drop 38 = [HostApi.wr 0x784 0, HostApi.wr 0x788 0x6C6C754E, HostApi.wr 0x78C 0, HostApi.wr 0x790 0,
      HostApi.wr 0x794 0, HostApi.wr 0x798 0,
      HostApi.wr 0x008 0x2000, HostApi.wr 0x000 0x14, HostApi.rd 0x004] ∧
    q.length = 47 := by decide +kernel

/-- R92, R23: the check of STATUS.ERR. -/
theorem test_api_check : HostApi.sawError 0x0000040C = true ∧ HostApi.sawError 0x0000000A = false := by decide

/-! ## Witnesses: a state and operands that meet the hypotheses of each statement -/

/-- Every word can be the latched one; and one word for each of the four grounds, at the ends of their ranges. -/
theorem witness_IllegalWordRaisesIllegal :
    (∀ v, (busyOn v State.reset).engineMoves = true ∧ (busyOn v State.reset).cmdLatch = v) ∧
    (∀ v ∈ [0x00000000, 0x00000022, 0x000000FF],
      v % 256 ∉ [0x01, 0x02, 0x03, 0x04, 0x10, 0x11, 0x12, 0x13, 0x14, 0x20, 0x21]) ∧
    0x00001001 / 4096 ≠ 0 ∧ 0x80000020 / 4096 ≠ 0 ∧
    0x00000101 / 256 % 8 ≠ 0 ∧ 0x00000714 / 256 % 8 ≠ 0 ∧
    0x00000801 / 2048 % 2 = 1 ∧ 0x00000910 / 2048 % 2 = 1 :=
  ⟨fun _ => ⟨rfl, rfl⟩, by decide, by decide, by decide, by decide, by decide, by decide, by decide⟩

theorem witness_StepRunsTheLatchedCommand :
    (busyOn 0x00000721 State.reset).engineMoves = true ∧
    decode (busyOn 0x00000721 State.reset).cmdLatch = .ok (.pixF 7) := by decide

theorem witness_OutsideActsInOrder :
    ActsNext (facing (.readReg 0x004 .word) (busyOn 0x1 State.reset)) (.readReg 0x004 .word) [] ∧
    State.reset.status.busy = false ∧ State.reset.pending = [] :=
  ⟨⟨by decide, true, rfl⟩, by decide, by decide⟩

theorem witness_PerformEndsTheCommand :
    (busyOn 0x00000000 State.reset).engineMoves = true ∧
    (busyOn 0x00000000 State.reset).status.done = false ∧
    (busyOn 0x00000000 State.reset).status.err = false := by decide

/-- A register access, and a write of the byte after the footprint of RLOAD, before the engine's step. -/
theorem witness_AcceptedCommandFinishes :
    let s := { busyOn 0x10 State.reset with
      pending := [⟨true, .writeReg 0x018 .word 5⟩, ⟨true, .writeMem 88 7⟩] };
    s.status.busy = true ∧ (s.pending.takeWhile (·.early)).length = 2 ∧
    ∀ a ∈ s.pending.takeWhile (·.early), IsPlainAccess s a.action := by
  intro s
  refine ⟨by decide, by decide, fun a ha => ?_⟩
  obtain rfl | rfl : a = ⟨true, .writeReg 0x018 .word 5⟩ ∨ a = ⟨true, .writeMem 88 7⟩ := by
    simpa [s] using ha
  · exact ⟨rfl, rfl⟩
  · show ∀ f ∈ s.unobserved, (88 : Word).toNat ∉ f.bytes
    decide +kernel

theorem witness_ScaleLevelBoundaries : 1 ≤ (1 : Fin 32).val ∧ 1 ≤ (31 : Fin 32).val := by decide

/-- Where the platform of V14 refuses a write, 0x5000 is the lowest refused byte of a footprint across it. -/
theorem guarded_lowest {f : Nat → Prop} {ks : List AccessKind} (s : State) (hf : f 0x5000)
    (hk : AccessKind.write ∈ ks) : LowestRefused (guarded s) f ks 0x5000 := by
  refine ⟨hf, ⟨.write, hk, rfl⟩, fun c _ ⟨k, _, hr⟩ => ?_⟩
  simp [guarded, State.admits] at hr
  omega

/-- A closed platform refuses the first byte of a footprint at the top or at the bottom of memory. -/
theorem closed_lowest {a n : Nat} {k : AccessKind} (s : State) (hn : 0 < n)
    (ha : (closed s).admits a k = false) : LowestRefused (closed s) (bytesOf a n) [k] a :=
  ⟨⟨le_refl a, by omega⟩, ⟨k, by simp, ha⟩, fun _ hc _ => hc.1⟩

/-- The reset platform admits everything. -/
theorem reset_admits (s : State) (h : s.denied = []) (f : Nat → Prop) (ks : List AccessKind) :
    AllAdmitted s f ks := fun b _ k _ => by simp [State.admits, h]

/-- Where everything is admitted, a span inside the address space passes its check. -/
theorem span_passes (s : State) (h : s.denied = []) {n : Nat} {k : AccessKind}
    (ha : s.addr.toNat + n ≤ 0x100000000) : s.footprintError (.span s.addr.toNat n k) = none := by
  rw [State.footprintError_eq_none]
  intro b hb
  have := Footprint.mem_bytes_span.mp hb
  refine ⟨?_, by simp [State.refuses, State.admits, h]⟩
  show b ≤ 0xFFFFFFFF
  omega

/-- RANGE above the boundary; BUS and completion at it. -/
theorem witness_RloadDecodesOneRecord :
    0xFFFFFFA8 < ({ State.reset with addr := 0xFFFFFFA9 }).addr.toNat ∧
    (let s := closed { State.reset with addr := 0xFFFFFFA8 };
      s.addr.toNat ≤ 0xFFFFFFA8 ∧ LowestRefused s (bytesOf s.addr.toNat 88) [.read] 0xFFFFFFA8) ∧
    (let s := { State.reset with addr := 0xFFFFFFA8 };
      s.addr.toNat ≤ 0xFFFFFFA8 ∧ AllAdmitted s (bytesOf s.addr.toNat 88) [.read]) :=
  ⟨by decide, ⟨by decide, closed_lowest _ (by decide) (by decide)⟩, by decide, reset_admits _ rfl _ _⟩

theorem witness_RstoreEncodesOneRecord :
    0xFFFFFFA8 < ({ State.reset with addr := 0xFFFFFFFF }).addr.toNat ∧
    (let s := guarded { State.reset with addr := 0x4FD0 };
      s.addr.toNat ≤ 0xFFFFFFA8 ∧ LowestRefused s (bytesOf s.addr.toNat 88) [.write] 0x5000) ∧
    (let s := { State.reset with addr := 0xFFFFFFA8 };
      s.addr.toNat ≤ 0xFFFFFFA8 ∧ AllAdmitted s (bytesOf s.addr.toNat 88) [.write]) :=
  ⟨by decide, ⟨by decide, guarded_lowest _ ⟨by decide, by decide⟩ (by decide)⟩, by decide, reset_admits _ rfl _ _⟩

theorem witness_BloadDecodesOneBlock :
    0xFFFFFD3C < ({ State.reset with addr := 0xFFFFFD3D }).addr.toNat ∧
    (let s := closed State.reset;
      s.addr.toNat ≤ 0xFFFFFD3C ∧ LowestRefused s (bytesOf s.addr.toNat 708) [.read] 0) ∧
    (let s := { State.reset with addr := 0xFFFFFD3C };
      s.addr.toNat ≤ 0xFFFFFD3C ∧ AllAdmitted s (bytesOf s.addr.toNat 708) [.read]) :=
  ⟨by decide, ⟨by decide, closed_lowest _ (by decide) (by decide)⟩, by decide, reset_admits _ rfl _ _⟩

theorem witness_BstoreEncodesOneBlock :
    State.reset.status.hdrv = false ∧
    (let s := withHeader 0 { State.reset with addr := 0xFFFFFD3D };
      s.status.hdrv = true ∧ 0xFFFFFD3C < s.addr.toNat) ∧
    (let s := withHeader 0 (closed State.reset);
      s.status.hdrv = true ∧ s.addr.toNat ≤ 0xFFFFFD3C ∧
        LowestRefused s (bytesOf s.addr.toNat 708) [.write] 0) ∧
    (let s := withHeader 0 { State.reset with addr := 0xFFFFFD3C };
      s.status.hdrv = true ∧ s.addr.toNat ≤ 0xFFFFFD3C ∧
        AllAdmitted s (bytesOf s.addr.toNat 708) [.write]) :=
  ⟨by decide, by decide,
    ⟨by decide, by decide, closed_lowest (withHeader 0 State.reset) (by decide) (by decide)⟩,
    by decide, by decide, reset_admits _ rfl _ _⟩

/-- V8: the first and last byte of the header, and the last byte of the name in record 7. -/
theorem test_bstore :
    let s := withHeader 0xCAFEF00D { State.reset with addr := 0x2000 };
    ∃ t, exec .bstore s = .next t ∧ t.status.toWord = 0xA ∧ Memory.read t.mem 0x2000 = 0x0D ∧
      Memory.read t.mem 0x2003 = 0xCA ∧ Memory.read t.mem (0x2004 + 88 * 7 + 71) = 0x6C := by
  intro s
  refine ⟨_, exec_done ((State.commandError_bstore _).trans ((if_pos rfl).trans ?_)), by decide,
    (read_effect_bstore s (k := 0) (by omega)).trans (by decide),
    (read_effect_bstore s (k := 3) (by omega)).trans (by decide),
    (read_effect_bstore s (k := 691) (by omega)).trans (by decide)⟩
  exact span_passes s rfl (by decide)

theorem witness_RecordBytesRoundTrip :
    State.reset.status.err = false ∧
    (∃ t, exec (.rload 3) State.reset = .next t ∧ t.status.err = false ∧
      ∃ u, exec (.rstore 3) { t with addr := 0x200 } = .next u ∧ u.status.err = false) ∧
    ColorsClear (fun k => Memory.read State.reset.mem (State.reset.addr.toNat + k)) ∧
    CanonicalName (fun j => Memory.read State.reset.mem (State.reset.addr.toNat + 68 + j)) := by
  refine ⟨rfl, ⟨_, rfl, rfl, _, rfl, rfl⟩, fun i _ => ?_, fun j _ h => ?_, fun j _ k _ _ => rfl⟩
  · show (0 : Nat) + 256 * 0 < 32768
    omega
  · exact absurd (show (0 : Byte) = 0x0A from h) (by decide)

theorem witness_RecordSlotRoundTrip :
    State.reset.status.err = false ∧
    (∃ t, exec (.rstore 3) State.reset = .next t ∧ t.status.err = false ∧
      ∃ u, exec (.rload 3) t = .next u ∧ u.status.err = false) := by
  refine ⟨rfl, _, exec_done ((State.commandError_rstore _ _).trans ?_), rfl,
    _, exec_done ((State.commandError_rload _ _).trans ?_), rfl⟩
  · exact span_passes State.reset rfl (by decide)
  · exact span_passes (effectOf (.rstore 3) State.reset).complete rfl (by decide)

theorem witness_BlockRoundTrip :
    State.reset.status.err = false ∧
    (∃ t, exec .bload State.reset = .next t ∧ t.status.err = false ∧
      ∃ u, exec .bstore { t with addr := 0x2000 } = .next u ∧ u.status.err = false) := by
  refine ⟨rfl, _, exec_done ((State.commandError_bload _).trans ?_), rfl,
    _, exec_done ((State.commandError_bstore _).trans ((if_pos rfl).trans ?_)), rfl⟩
  · exact span_passes State.reset rfl (by decide)
  · exact span_passes { (effectOf .bload State.reset).complete with addr := 0x2000 } rfl (by decide)

/-- GEOMETRY; RANGE; BUS; and completion, for an empty and for a nonempty buffer. -/
theorem witness_RemapRewritesEveryPixel :
    (let s := withRaster 0 4 0 3 State.reset;
      s.stride.toNat < s.width.toNat) ∧
    (let s := withRaster 0xFFFFFFFF 1 1 1 State.reset;
      s.width.toNat ≤ s.stride.toNat ∧ 0 < s.width.toNat ∧ 0 < s.height.toNat ∧
        0xFFFFFFFF < lastPixelByte s) ∧
    (let s := guarded (withRaster 0x4FF0 16 1 16 State.reset);
      s.width.toNat ≤ s.stride.toNat ∧ lastPixelByte s ≤ 0xFFFFFFFF ∧
        LowestRefused s (pixelBytes s) [.read, .write] 0x5000) ∧
    (let s := withRaster 0 0 5 0 State.reset;
      s.width.toNat ≤ s.stride.toNat ∧ s.width.toNat = 0 ∧
        AllAdmitted s (pixelBytes s) [.read, .write]) ∧
    (let s := withRaster 0xFFFFFFFE 1 1 1 State.reset;
      s.width.toNat ≤ s.stride.toNat ∧ lastPixelByte s ≤ 0xFFFFFFFF ∧
        AllAdmitted s (pixelBytes s) [.read, .write]) :=
  ⟨by decide, by decide,
    ⟨by decide, by decide, guarded_lowest _ ⟨0, by decide, 8, by decide, .inl rfl⟩ (by decide)⟩,
    ⟨by decide, by decide, reset_admits _ rfl _ _⟩, by decide, by decide, reset_admits _ rfl _ _⟩

theorem witness_ModesDifferOnlyOnColoredPixels :
    let s := withRamp { State.reset with opnd := 0x0C00 };
    ∃ f g, exec (.pixF 0) s = .next f ∧ exec (.pixG 0) s = .next g ∧ g.result ≠ f.result :=
  ⟨_, _, rfl, rfl, by decide⟩

/-- The ramp whose entry `k` is the gray of level `k`, for both modes. -/
theorem witness_SecondPassOfAMode :
    let ramp : Vector Half 32 := Vector.ofFn fun k => BitVec.ofNat 16 (k.val * 0x0421);
    (∀ k : Fin 32, redOf (ramp[k]).toNat = k.val) ∧
    ∀ k : Fin 32, ramp[k] = 0 ∨
      (redOf (ramp[k]).toNat = greenOf (ramp[k]).toNat ∧ greenOf (ramp[k]).toNat = blueOf (ramp[k]).toNat) := by
  decide +kernel

theorem witness_ErrorsLeaveEverythingElse :
    State.reset.status.err = false ∧
    (∃ t, exec .bstore State.reset = .next t ∧ t.status.err = true ∧ t.status.errCode ≠ 4) ∧
    ∃ t, exec (.rstore 0) (guarded { State.reset with addr := 0x4FD0 }) = .next t ∧
      t.status.err = true ∧ t.status.errCode = 4 := by
  refine ⟨rfl, ⟨_, rfl, rfl, by decide⟩, _, exec_error (e := ⟨.bus, 0x5000⟩) ?_, rfl, rfl⟩
  decide +kernel

/-- A pending error, with a read, a clearing write and a reset to come. -/
theorem witness_ErrorStaysUntilCleared :
    let s := { State.reset with status := { State.reset.status with err := true, errCode := 4 } };
    s.status.err = true ∧ s.status.busy = false ∧
    (∃ t, step (facing (.readReg 0x024 .word) s) = .next t ∧ t.status.err = true) ∧
    (∃ t, step (facing (.writeReg 0x004 .word 0x4) s) = .next t ∧ t.status.err = false) ∧
    ∃ t, step (facing .reset s) = .next t ∧ t.status.err = false :=
  ⟨rfl, rfl, ⟨_, rfl, rfl⟩, ⟨_, rfl, rfl⟩, _, rfl, rfl⟩

theorem witness_PortWritesGiveTheMemory :
    ∃ t, exec (.rstore 0) State.reset = .next t ∧ t.mem ≠ State.reset.mem := by
  refine ⟨_, exec_done ((State.commandError_rstore _ _).trans (span_passes State.reset rfl (by decide))), ?_⟩
  decide +kernel

/-- A command that fails its check, and one that passes it. -/
theorem witness_PortAccessesFollowFootprint :
    State.reset.commandError .bstore = some (.plain .nohdr) ∧
    (withRaster 0 2 2 3 State.reset).commandError (.remapF 0) = none := by decide

theorem witness_PortAccessCounts :
    (withRaster 0 2 2 3 State.reset).commandError (.remapG 0) = none ∧
    State.reset.commandError (.rload 0) = none ∧ State.reset.commandError .enc = none :=
  ⟨by decide, (State.commandError_rload _ _).trans (span_passes State.reset rfl (by decide)), rfl⟩

/-- The first and last reserved offset of each of the three ranges of R39. -/
theorem witness_RegisterMapReads :
    State.reset.status.busy = false ∧
    ∀ o ∈ [0x028, 0x3FC, 0x49C, 0x4FC, 0xB9C, 0xBFC, 0xC00, 0xFFC], ReservedOffset o := by
  refine ⟨rfl, ?_⟩
  simp [ReservedOffset]

theorem witness_HostReadHasNoSideEffect :
    (∃ t, hostStep (.readReg 0x01C .word) (busyOn 0x1 State.reset) = .next t ∧ t.draws = 1) ∧
    ∃ t, hostStep (.readReg 0x004 .word) State.reset = .next t ∧ t.unobserved = [] :=
  ⟨⟨_, rfl, rfl⟩, _, rfl, rfl⟩

theorem witness_ReadsWhileBusy :
    (busyOn 0x1 State.reset).status.busy = true ∧ ReservedOffset 0x49C ∧ 7 < 8 ∧ 33 < 34 := by
  refine ⟨rfl, ?_, by decide, by decide⟩
  simp [ReservedOffset]

/-- BUSY; ERR; and neither. -/
theorem witness_CmdWriteIssuesOrDrops :
    (busyOn 0x1 State.reset).status.busy = true ∧
    { State.reset.status with err := true }.err = true ∧
    State.reset.status.busy = false ∧ State.reset.status.err = false := by decide

theorem witness_OperandWritesWhileIdle : State.reset.status.busy = false := rfl

theorem witness_HdrWriteEstablishesHeader : State.reset.status.busy = false := rfl

/-- An idle block, for every slot; and the first and the last register of each shape that it lets the host set. -/
theorem witness_WriteThenReadOfTheWindow :
    State.reset.status.busy = false ∧
    WritableBits 0x008 32 ∧ WritableBits 0x020 32 ∧ WritableBits 0x00C 16 ∧ WritableBits 0x400 16 ∧
    WritableBits 0xB84 16 ∧ WritableBits 0x488 32 ∧ WritableBits 0xB98 32 := by
  refine ⟨rfl, .inl ⟨by decide, rfl⟩, .inl ⟨by decide, rfl⟩, .inr (.inl ⟨by decide, rfl⟩), ?_, ?_, ?_, ?_⟩
  · exact .inr (.inr (.inl ⟨0, by decide, 0, by decide, rfl, rfl⟩))
  · exact .inr (.inr (.inl ⟨7, by decide, 33, by decide, rfl, rfl⟩))
  · exact .inr (.inr (.inr ⟨0, by decide, 0, by decide, rfl, rfl⟩))
  · exact .inr (.inr (.inr ⟨7, by decide, 4, by decide, rfl, rfl⟩))

theorem witness_WritesWhileBusyAreDropped :
    (busyOn 0x1 State.reset).status.busy = true ∧ WritableBits 0xB84 16 ∧ ReservedOffset 0xB9C := by
  refine ⟨rfl, .inr (.inr (.inl ⟨7, by decide, 33, by decide, rfl, rfl⟩)), ?_⟩
  simp [ReservedOffset]

theorem witness_ReadOnlyWritesDoNothing :
    State.reset.status.busy = false ∧ ReservedOffset 0x028 := by
  refine ⟨rfl, ?_⟩
  simp [ReservedOffset]

theorem witness_SubwordAccessIsRefused :
    BusWidth.half ≠ .word ∧ (0x00A : BitVec 12).toNat % 4 ≠ 0 := by decide

/-- A window with its last byte; a window kept and one closed by a step; a byte beside every window. -/
theorem witness_FootprintIsExclusive :
    let s := busyOn 0x10 { State.reset with addr := 0x100 };
    (∃ f ∈ s.unobserved, (0x157 : Word).toNat ∈ f.bytes) ∧
    (∃ t, step s = .next t ∧ t.unobserved = s.unobserved) ∧
    (∃ t, step (facing (.readReg 0x004 .word) { s with status := State.reset.status }) = .next t ∧
      t.unobserved = []) ∧
    ∀ f ∈ s.unobserved, (0x158 : Word).toNat ∉ f.bytes := by
  intro s
  refine ⟨⟨_, List.mem_cons_self, by decide +kernel⟩, ⟨(effectOf (.rload 0) s).complete, ?_, rfl⟩,
    ⟨_, rfl, rfl⟩, by decide +kernel⟩
  exact ((if_pos (by decide)).trans (perform_eq_exec (by decide))).trans
    (exec_done ((State.commandError_rload _ _).trans (span_passes s rfl (by decide))))

/-- A dropped write; and, where the invariant holds, a write beside the footprint of RLOAD, with its last byte; and both
cases of a change of the admission map. -/
theorem witness_OperandsStandWhileBusy :
    (let s := facing (.writeReg 0x018 .word 5) (busyOn 0x1 State.reset);
      s.status.busy = true ∧ s.engineMoves = false ∧ ∃ t, step s = .next t ∧ t.status.ovr = true) ∧
    (let s := facing (.writeMem 88 7) (busyOn 0x10 State.reset);
      s.status.busy = true ∧ s.engineMoves = false ∧ Safety.Inv s ∧
        87 ∈ (s.footprintOfWord s.cmdLatch).bytes ∧ ∃ t, step s = .next t ∧ Memory.read t.mem 88 = 7) ∧
    (busyOn 0x10 State.reset).status.busy = true ∧ State.reset.status.busy = false := by
  refine ⟨⟨rfl, rfl, _, rfl, rfl⟩, ⟨rfl, rfl, ?_, by decide +kernel, ?_⟩, rfl, rfl⟩
  · exact ⟨⟨by decide, by decide, by decide, by decide⟩, by decide, by decide, fun _ => List.mem_cons_self⟩
  · have h : State.exclusive { busyOn 0x10 State.reset with pending := [] } 88 = false := by decide +kernel
    refine ⟨{ busyOn 0x10 State.reset with pending := [], mem := Memory.write [] 88 7 }, ?_, by decide⟩
    show (if State.exclusive { busyOn 0x10 State.reset with pending := [] } 88 = true then _ else _) = _
    rw [h]
    rfl

theorem witness_ResultWrittenOnlyByColorCommands :
    (∃ t, step (busyOn 0x3 State.reset) = .next t ∧ t.result ≠ State.reset.result) ∧
    ∃ t, step (facing .reset { State.reset with result := 1 }) = .next t ∧ t.result ≠ 1 :=
  ⟨⟨_, rfl, by decide⟩, _, rfl, by decide⟩

/-- The flag cleared by reset, set by a header write, and set by BLOAD. -/
theorem witness_HeaderFlagChanges :
    (∃ t, step (facing .reset (withHeader 5 State.reset)) = .next t ∧ t.status.hdrv = false) ∧
    (∃ t, step (facing (.writeReg 0x020 .word 5) State.reset) = .next t ∧ t.status.hdrv = true) ∧
    ∃ t, step (busyOn 0x13 State.reset) = .next t ∧ t.status.hdrv = true := by
  refine ⟨⟨_, rfl, rfl⟩, ⟨_, rfl, rfl⟩, (effectOf .bload (busyOn 0x13 State.reset)).complete, ?_, rfl⟩
  exact ((if_pos (by decide)).trans (perform_eq_exec (by decide))).trans
    (exec_done ((State.commandError_bload _).trans (span_passes (busyOn 0x13 State.reset) rfl (by decide))))

theorem witness_ResetWhileIdle : (withHeader 5 State.reset).status.busy = false := rfl

/-- A store in flight: its write footprint, a byte outside it, and the state it would have left. -/
theorem witness_ResetWhileBusy :
    let s := busyOn 0x11 State.reset;
    s.status.busy = true ∧ decode s.cmdLatch = .ok (.rstore 0) ∧
    (∃ t, perform s = .next t ∧ Memory.read t.mem 1 = 0x80) ∧
    88 ∉ (s.portWrites (.rstore 0)).map Prod.fst := by
  intro s
  refine ⟨rfl, by decide, ⟨(effectOf (.rstore 0) s).complete, ?_, ?_⟩, ?_⟩
  · exact (perform_eq_exec (by decide)).trans
      (exec_done ((State.commandError_rstore _ _).trans (span_passes s rfl (by decide))))
  · decide +kernel
  · decide +kernel

theorem witness_StepKeepsInvariant :
    Safety.Inv (busyOn 0x4 State.reset) ∧ ∃ t, step (busyOn 0x4 State.reset) = .next t :=
  ⟨⟨⟨by decide, by decide, by decide, by decide⟩, by decide, by decide, fun _ => List.mem_cons_self⟩, _, rfl⟩

theorem witness_IssuedCommandRuns : State.reset.status.busy = false ∧ State.reset.status.err = false := ⟨rfl, rfl⟩

theorem witness_SlotWritesFillTheSlot : State.reset.status.busy = false := rfl

theorem witness_ColorCallsReturnTheirValue :
    State.reset.status.busy = false ∧ State.reset.status.err = false := ⟨rfl, rfl⟩

end Sys2Proof.Tests
end

section
/-! PROOFS. What a host write does, register by register, and what one action from outside can do. -/

namespace Sys2Proof.Machine

open Sys2Proof.Statement

/-! ## Which register an offset names -/

/-- CMD and STATUS stand below offset 8 (R21). -/
theorem regAt_ne_cmd_ne_status {o : BitVec 12} (ho : o.toNat % 4 = 0) (h8 : 8 ≤ o.toNat)
    (hr : regAt o ≠ .reserved) : regAt o ≠ .cmd ∧ regAt o ≠ .status := by
  have h := offset_regAt o ho hr
  constructor <;> intro he <;> simp only [he, Reg.offset] at h <;> omega

/-- A reserved offset of R39 holds no register. -/
theorem regAt_of_reservedOffset {offset : Nat} (h : ReservedOffset offset) :
    (BitVec.ofNat 12 offset).toNat % 4 = 0 ∧ regAt (BitVec.ofNat 12 offset) = .reserved := by
  obtain ⟨h4, h⟩ := h
  have ho : (BitVec.ofNat 12 offset).toNat = offset := BitVec.toNat_ofNat offset 12 ▸ Nat.mod_eq_of_lt (by omega)
  rw [regAt_eq_reserved _ (by omega), ho]
  omega

/-- The offset of a register that an idle block lets the host set is a multiple of 4 past STATUS, and not
reserved (R21, R31, R39). -/
theorem offset_of_writableBits {offset bits : Nat} (h : WritableBits offset bits) :
    8 ≤ offset ∧ offset < 0xC00 ∧ offset % 4 = 0 ∧ (offset < 0x028 ∨ (0x400 ≤ offset ∧ offset % 0x100 < 0x9C)) := by
  obtain ⟨h, -⟩ | ⟨h, -⟩ | ⟨n, hn, i, hi, rfl, -⟩ | ⟨n, hn, j, hj, rfl, -⟩ := h
  · simp only [List.mem_cons, List.not_mem_nil, or_false] at h
    omega
  · simp only [List.mem_cons, List.not_mem_nil, or_false] at h
    omega
  · omega
  · omega

/-- RESULT, ERRADDR and every register an idle block lets the host set are registers other than CMD and STATUS. -/
theorem regAt_of_operand {offset : Nat} (h : offset = 0x01C ∨ offset = 0x024 ∨ ∃ bits, WritableBits offset bits) :
    (BitVec.ofNat 12 offset).toNat % 4 = 0 ∧ regAt (BitVec.ofNat 12 offset) ≠ .cmd ∧
      regAt (BitVec.ofNat 12 offset) ≠ .status ∧ regAt (BitVec.ofNat 12 offset) ≠ .reserved := by
  have hb : 8 ≤ offset ∧ offset < 0xC00 ∧ offset % 4 = 0 ∧
      (offset < 0x028 ∨ (0x400 ≤ offset ∧ offset % 0x100 < 0x9C)) := by
    obtain rfl | rfl | ⟨bits, h⟩ := h
    · decide
    · decide
    · exact offset_of_writableBits h
  have ho : (BitVec.ofNat 12 offset).toNat = offset := BitVec.toNat_ofNat offset 12 ▸ Nat.mod_eq_of_lt (by omega)
  have h4 : (BitVec.ofNat 12 offset).toNat % 4 = 0 := by omega
  have hr : regAt (BitVec.ofNat 12 offset) ≠ .reserved := by
    rw [Ne, regAt_eq_reserved _ h4]
    omega
  obtain ⟨hc, hs⟩ := regAt_ne_cmd_ne_status h4 (by omega) hr
  exact ⟨h4, hc, hs, hr⟩

/-! ## One host write -/

/-- A busy block drops a write of every register but CMD and STATUS, and sets OVR (R56). -/
theorem hostWrite_dropped {s : State} (hb : s.status.busy = true) {r : Reg} (hc : r ≠ .cmd) (hs : r ≠ .status)
    (hr : r ≠ .reserved) (v : Word) : s.hostWrite r v = s.dropWrite := by
  cases r with
  | cmd => exact absurd rfl hc
  | status => exact absurd rfl hs
  | reserved => exact absurd rfl hr
  | _ => simp [State.hostWrite, hb]

/-- An idle block takes a write of every register but CMD and STATUS (R53, R54, R55, R59). -/
theorem hostWrite_idle {s : State} (hb : s.status.busy = false) {r : Reg} (hc : r ≠ .cmd) (hs : r ≠ .status)
    (v : Word) : s.hostWrite r v = s.writeIdle v r := by
  cases r with
  | cmd => exact absurd rfl hc
  | status => exact absurd rfl hs
  | reserved => rfl
  | _ => simp [State.hostWrite, hb]

/-- A word write of an idle block, by the register at its offset. -/
theorem hostStep_writeReg_idle {s : State} (hb : s.status.busy = false) {o : BitVec 12} (ho : o.toNat % 4 = 0)
    {r : Reg} (hr : regAt o = r) (hc : r ≠ .cmd) (hs : r ≠ .status) (v : Word) :
    hostStep (.writeReg o .word v) s = .next (s.writeIdle v r) := by
  rw [hostStep_writeReg ho, hr, hostWrite_idle hb hc hs]

/-- A flag that bit `k` of a written word clears (R52). -/
theorem and_not_getLsbD (b : Bool) (v : Word) (k : Nat) :
    (b && !v.getLsbD k) = if v.toNat / 2 ^ k % 2 = 1 then false else b := by
  rw [getLsbD_eq_decide]
  split <;> simp [*]

/-- The low 16 bits of a written word (R53). -/
theorem setWidth_eq_ofNat_mod (v : Word) : v.setWidth 16 = BitVec.ofNat 16 (v.toNat % 65536) := by
  apply BitVec.eq_of_toNat_eq
  simp

/-- No host write changes RESULT (R29, R59). -/
@[simp] theorem hostWrite_result (s : State) (r : Reg) (v : Word) : (s.hostWrite r v).result = s.result := by
  have hcmd : (s.writeCmd v).result = s.result := by
    unfold State.writeCmd
    split <;> rfl
  have hidle : (s.writeIdle v r).result = s.result := by cases r <;> rfl
  cases hb : s.status.busy with
  | true => obtain h | h | h := hostWrite_busy hb r v <;> rw [h] <;> rfl
  | false =>
    by_cases hc : r = .cmd
    · exact hc ▸ hcmd
    by_cases hs : r = .status
    · exact hs ▸ State.writeStatus_result s v
    rw [hostWrite_idle hb hc hs, hidle]

/-! ## One action from outside -/

/-- An access that is not a word at a multiple of 4 has no meaning (R58). -/
theorem wholeWordAccess_eq_false {o : BitVec 12} {w : BusWidth} (h : w ≠ .word ∨ o.toNat % 4 ≠ 0) :
    wholeWordAccess o w = false := by
  obtain h | h := h <;> simp [wholeWordAccess, h]

theorem wholeWordAccess_eq_true {o : BitVec 12} {w : BusWidth} :
    wholeWordAccess o w = true ↔ w = .word ∧ o.toNat % 4 = 0 := by
  simp [wholeWordAccess]

/-- All that one action from outside can do, where it has a meaning and is no fault (R50 to R59, R8, R190). -/
theorem hostStep_cases {a : HostAction} {s t : State} (h : hostStep a s = .next t) :
    (∃ o, a = .readReg o .word ∧ o.toNat % 4 = 0 ∧ t = s.hostRead (regAt o)) ∨
    (∃ o v, a = .writeReg o .word v ∧ o.toNat % 4 = 0 ∧ t = s.hostWrite (regAt o) v) ∨
    (∃ x, a = .readMem x ∧ s.exclusive x = false ∧
      t = { s with readData := (Memory.read s.mem x.toNat).setWidth 32 }) ∨
    (∃ x v, a = .writeMem x v ∧ s.exclusive x = false ∧ t = { s with mem := Memory.write s.mem x.toNat v }) ∨
    (∃ d, a = .setAdmission d ∧ s.status.busy = false ∧ t = { s with denied := d }) ∨
    (a = .reset ∧ t = s.resetInput) := by
  cases a with
  | readReg o w =>
    simp only [hostStep] at h
    split at h
    · next hw =>
      obtain ⟨rfl, ho⟩ := wholeWordAccess_eq_true.mp hw
      exact .inl ⟨o, rfl, ho, (Host.Outcome.next.inj h).symm⟩
    · contradiction
  | writeReg o w v =>
    simp only [hostStep] at h
    split at h
    · next hw =>
      obtain ⟨rfl, ho⟩ := wholeWordAccess_eq_true.mp hw
      exact .inr (.inl ⟨o, v, rfl, ho, (Host.Outcome.next.inj h).symm⟩)
    · contradiction
  | readMem x =>
    simp only [hostStep] at h
    split at h
    · contradiction
    · next hx => exact .inr (.inr (.inl ⟨x, rfl, by simpa using hx, (Host.Outcome.next.inj h).symm⟩))
  | writeMem x v =>
    simp only [hostStep] at h
    split at h
    · contradiction
    · next hx => exact .inr (.inr (.inr (.inl ⟨x, v, rfl, by simpa using hx, (Host.Outcome.next.inj h).symm⟩)))
  | setAdmission d =>
    simp only [hostStep] at h
    split at h
    · contradiction
    · next hb =>
      exact .inr (.inr (.inr (.inr (.inl ⟨d, rfl, by simpa using hb, (Host.Outcome.next.inj h).symm⟩))))
  | reset => exact .inr (.inr (.inr (.inr (.inr ⟨rfl, (Host.Outcome.next.inj h).symm⟩))))

/-- Only the reset input, of all actions from outside, changes RESULT (R29, R190). -/
theorem hostStep_result {a : HostAction} {s t : State} (h : hostStep a s = .next t) :
    a = .reset ∨ t.result = s.result := by
  obtain ⟨o, -, -, rfl⟩ | ⟨o, v, -, -, rfl⟩ | ⟨x, -, -, rfl⟩ | ⟨x, v, -, -, rfl⟩ | ⟨d, -, -, rfl⟩ | ⟨rfl, -⟩ :=
    hostStep_cases h
  · obtain ⟨d, u, n, hread, -⟩ := hostRead_cases s (regAt o)
    exact .inr (by rw [hread])
  · exact .inr (hostWrite_result s (regAt o) v)
  · exact .inr rfl
  · exact .inr rfl
  · exact .inr rfl
  · exact .inl rfl

/-! ## Who writes RESULT -/

/-- The commands that write RESULT (R29). -/
def WritesResult (i : Instr) : Prop :=
  i ∈ [Instr.enc, .dec, .mkset, .mkclr] ∨ ∃ n, i = .pixF n ∨ i = .pixG n

/-- An effect sets RESULT and nothing else, or leaves it as it was (R29). -/
theorem effectOf_result (i : Instr) (s : State) :
    (WritesResult i ∧ ∃ v, effectOf i s = s.setResult v) ∨ (effectOf i s).result = s.result := by
  cases i with
  | enc | dec | mkset | mkclr => exact .inl ⟨.inl (by simp), _, rfl⟩
  | pixF n | pixG n => exact .inl ⟨.inr ⟨n, by simp⟩, _, rfl⟩
  | rload | rclr => exact .inr (State.setSlot_result ..)
  | rstore | bstore | remapF | remapG => exact .inr (State.setMem_result ..)
  | bload => exact .inr (State.setBlock_result ..)

/-- A perform step that changes RESULT completes a command that writes it. -/
theorem perform_result {s t : State} (h : perform s = .next t) (hr : t.result ≠ s.result) :
    t.status = s.status.finishDone ∧ ∃ i, decode s.cmdLatch = .ok i ∧ WritesResult i := by
  obtain ⟨i, hd, hexec⟩ | ⟨-, hraise⟩ := perform_cases s
  · rw [hexec] at h
    obtain ⟨e, -, rfl⟩ | ⟨-, rfl⟩ := exec_cases h
    · exact absurd (State.raise_result s e) hr
    · obtain ⟨hi, v, heff⟩ | hkept := effectOf_result i s
      · exact ⟨by rw [heff]; rfl, i, hd, hi⟩
      · exact absurd hkept hr
  · rw [hraise] at h
    exact absurd (Host.Outcome.next.inj h ▸ rfl) hr

end Sys2Proof.Machine
end

section
/-! PROOFS. The obligations about the registers, their writes and their reset values. -/

namespace Sys2Proof.Proofs

open Sys2Proof.Machine Sys2Proof.Statement

/-- Settles O46, by the register at the offset: one that a busy block drops, or none. -/
theorem writesWhileBusyAreDropped : Obligations.WritesWhileBusyAreDropped := by
  intro s offset v hb
  constructor
  · intro h
    obtain ⟨h4, hc, hs, hr⟩ := regAt_of_operand h
    rw [hostStep_writeReg h4, hostWrite_dropped hb hc hs hr]
    rfl
  · intro h
    obtain ⟨h4, hr⟩ := regAt_of_reservedOffset h
    rw [hostStep_writeReg h4, hr]
    rfl

/-- Settles O51, by who takes the step: the engine, an idle wait, or the outside world. -/
theorem resultWrittenOnlyByColorCommands : Obligations.ResultWrittenOnlyByColorCommands := by
  intro s t h hr
  obtain ⟨hm, hstep⟩ | ⟨-, -, hstep⟩ | ⟨hm, ⟨e, a⟩, rest, hp, hstep⟩ := step_cases s <;> rw [hstep] at h
  · obtain ⟨hstatus, i, hd, hi⟩ := perform_result h hr
    exact .inr ⟨hm, hstatus, i, hd, hi⟩
  · exact absurd (Host.Outcome.next.inj h ▸ rfl) hr
  · obtain rfl | hkept := hostStep_result h
    · exact .inl ⟨rest, hm, e, hp⟩
    · exact absurd hkept hr

/-- Settles O42, by the bits of the written word as numbers. -/
theorem statusWriteClearsByOnes : Obligations.StatusWriteClearsByOnes := by
  intro s v
  have herrCode : (s.status.hostWrite v).errCode = if v.toNat / 4 % 2 = 1 then 0 else s.status.errCode := by
    rw [Status.hostWrite_errCode, getLsbD_eq_decide]
    simp
  exact ⟨s.status.hostWrite v, hostStep_writeReg (o := 0x004) (by decide) v s, and_not_getLsbD _ v 1,
    and_not_getLsbD _ v 2, herrCode, and_not_getLsbD _ v 4, rfl, rfl⟩

/-- Settles O43, by the idle write of each register. -/
theorem operandWritesWhileIdle : Obligations.OperandWritesWhileIdle := by
  intro s v hb low
  have hlow : v.setWidth 16 = low := setWidth_eq_ofNat_mod v
  have idle : ∀ (o : BitVec 12) (r : Reg), o.toNat % 4 = 0 → regAt o = r → r ≠ .cmd → r ≠ .status →
      hostStep (.writeReg o .word v) s = .next (s.writeIdle v r) :=
    fun o r ho hr hc hs => hostStep_writeReg_idle hb ho hr hc hs v
  rw [← hlow]
  exact ⟨idle 0x008 .addr (by decide) rfl nofun nofun, idle 0x00C .width (by decide) rfl nofun nofun,
    idle 0x010 .height (by decide) rfl nofun nofun, idle 0x014 .stride (by decide) rfl nofun nofun,
    idle 0x018 .opnd (by decide) rfl nofun nofun⟩

/-- Settles O44, by the idle write of HDR. -/
theorem hdrWriteEstablishesHeader : Obligations.HdrWriteEstablishesHeader := by
  intro s v hb
  exact hostStep_writeReg_idle (r := .hdr) hb (by decide) rfl nofun nofun v

/-- Settles O48: no such access is a whole word. -/
theorem subwordAccessIsRefused : Obligations.SubwordAccessIsRefused := by
  intro s offset w v h
  have hw := wholeWordAccess_eq_false h
  constructor <;> simp [hostStep, hw]

/-- Settles O53, by the reset state's literal fields; memory, by the reset input of an idle block. -/
theorem resetValues : Obligations.ResetValues := by
  refine ⟨rfl, rfl, rfl, rfl, rfl, rfl, rfl, rfl, rfl, rfl, rfl, ?_, ?_⟩
  · intro n
    have hslot : State.reset.bank[n] = Rec.default := Vector.getElem_replicate n.isLt
    rw [hslot]
    exact ⟨fun i => Vector.getElem_replicate i.isLt, rfl, rfl, rfl⟩
  · intro u t hb h
    obtain rfl : u.resetInput = t := Host.Outcome.next.inj h
    simp [State.resetInput, hb]

end Sys2Proof.Proofs
end

section
/-! PROOFS. The decoder as the inverse of the encoder, and the rows of the opcode table as sets of words. -/

namespace Sys2Proof

/-! ## The word of a decoded command -/

/-- A word whose RSV is 0 is the word of its other fields (R80). -/
theorem eq_commandWord_fields {v : Word} (hr : reservedField v = 0) :
    v = commandWord (modeField v) (slotField v) (opField v) := by
  rw [reservedField_eq_zero] at hr
  apply BitVec.eq_of_toNat_eq
  rw [commandWord_toNat, opField_toNat, slotField_val, modeField_eq]
  cases h : decide (v.toNat / 2048 % 2 = 1) <;> simp at h ⊢ <;> omega

section
variable {v : Word} {i j : Instr} {op : BitVec 8} {f full gray : Slot → Instr}

theorem eq_encode_of_decodePlain (h : decodePlain i v = .ok j) (he : encode i = commandWord false 0 op)
    (hr : reservedField v = 0) (hop : (opField v).toNat = op.toNat) : v = encode j := by
  unfold decodePlain at h
  split at h
  · next hs =>
    split at h
    · contradiction
    · next hm =>
      obtain rfl : i = j := Except.ok.inj h
      rw [eq_commandWord_fields hr, he, hs, Bool.eq_false_of_not_eq_true hm, BitVec.eq_of_toNat_eq hop]
  · contradiction

theorem eq_encode_of_decodeSlotted (h : decodeSlotted f v = .ok j)
    (he : ∀ s, encode (f s) = commandWord false s op) (hr : reservedField v = 0)
    (hop : (opField v).toNat = op.toNat) : v = encode j := by
  unfold decodeSlotted at h
  split at h
  · contradiction
  · next hm =>
    obtain rfl : f (slotField v) = j := Except.ok.inj h
    rw [he, ← Bool.eq_false_of_not_eq_true hm, ← BitVec.eq_of_toNat_eq hop]
    exact eq_commandWord_fields hr

theorem eq_encode_of_decodeModal (h : decodeModal full gray v = .ok j)
    (hfull : ∀ s, encode (full s) = commandWord false s op) (hgray : ∀ s, encode (gray s) = commandWord true s op)
    (hr : reservedField v = 0) (hop : (opField v).toNat = op.toNat) : v = encode j := by
  obtain rfl := Except.ok.inj h
  have hv := eq_commandWord_fields hr
  rw [BitVec.eq_of_toNat_eq hop] at hv
  split
  · next hm => rw [hgray, ← hm, ← hv]
  · next hm => rw [hfull, ← Bool.eq_false_of_not_eq_true hm, ← hv]

end

theorem decode_encode (i : Instr) : decode (encode i) = .ok i := by
  cases i with
  | enc | dec | mkset | mkclr | bload | bstore => decide
  | rload s | rstore s | rclr s | remapF s | remapG s | pixF s | pixG s => revert s; decide

theorem eq_encode_of_decode {v : Word} {i : Instr} (h : decode v = .ok i) : v = encode i := by
  unfold decode at h
  split at h
  · next hr =>
    split at h
    case h_5 hop | h_6 hop | h_7 hop => exact eq_encode_of_decodeSlotted h (fun _ => rfl) hr hop
    case h_10 hop | h_11 hop => exact eq_encode_of_decodeModal h (fun _ => rfl) (fun _ => rfl) hr hop
    case h_12 => contradiction
    all_goals next hop => exact eq_encode_of_decodePlain h rfl hr hop
  · contradiction

/-- A word decodes to a command exactly when it is the command's word (R87, R90). -/
theorem decode_eq_ok_iff {v : Word} {i : Instr} : decode v = .ok i ↔ v = encode i :=
  ⟨eq_encode_of_decode, fun h => h ▸ decode_encode i⟩

/-! ## The words of a row -/

/-- The mask of a row with a slot takes bits 10:8 out of a word and keeps all others. -/
theorem and_slotMask_toNat (v : Word) :
    (v &&& 0xFFFFF8FF).toNat = v.toNat / 2048 * 2048 + v.toNat % 256 := by
  have hhigh : (v.toNat &&& 0xFFFFF8FF) / 2 ^ 11 = v.toNat / 2048 := by
    rw [Nat.and_div_two_pow]
    exact (Nat.and_two_pow_sub_one_eq_mod _ 21).trans (Nat.mod_eq_of_lt (by omega))
  have hlow : (v.toNat &&& 0xFFFFF8FF) % 2 ^ 11 = v.toNat % 256 := by
    rw [Nat.and_mod_two_pow]
    exact (Nat.and_two_pow_sub_one_eq_mod _ 8).trans (Nat.mod_mod_of_dvd _ (by decide))
  rw [BitVec.toNat_and]
  change v.toNat &&& 0xFFFFF8FF = _
  omega

/-- Every mnemonic has one row. -/
theorem row_eq_of_mnemonic_eq : ∀ r ∈ opcodeRows, ∀ r' ∈ opcodeRows, r.mnemonic = r'.mnemonic → r = r' := by
  decide

theorem exists_row_of_mnemonic_iff {r : OpcodeRow} (hr : r ∈ opcodeRows) (p : OpcodeRow → Prop) (q : Prop) :
    (∃ r' ∈ opcodeRows, p r' ∧ r'.mnemonic = r.mnemonic ∧ q) ↔ p r ∧ q := by
  constructor
  · rintro ⟨r', hr', hp, hm, hq⟩
    exact ⟨row_eq_of_mnemonic_eq r' hr' r hr hm ▸ hp, hq⟩
  · rintro ⟨hp, hq⟩
    exact ⟨r, hr, hp, rfl, hq⟩

/-- A word is the command `i` by the table (R87): a row of the command's mnemonic covers it, and its bits 10:8 are the
slot that the command's line writes. -/
def TableCommand (v : Word) (i : Instr) : Prop :=
  ∃ r ∈ opcodeRows, r.covers v = true ∧ r.mnemonic = i.toLine.mnemonic ∧
    (i.toLine.operand = none ∨ i.toLine.operand = some (v.toNat / 256 % 8))

section
variable {v : Word} {i : Instr} {m : Mnemonic}

theorem tableCommand_iff_of_plainRow (hi : i.toLine = ⟨m, none⟩)
    (hr : ⟨m, encode i, 0xFFFFFFFF⟩ ∈ opcodeRows) : TableCommand v i ↔ v = encode i := by
  have hmask : v &&& 0xFFFFFFFF = v := BitVec.and_allOnes
  rw [TableCommand, hi, exists_row_of_mnemonic_iff hr, OpcodeRow.covers, beq_iff_eq, hmask]
  simp

theorem tableCommand_iff_of_slotRow {g : Bool} {op : BitVec 8} {s : Slot} (hi : i.toLine = ⟨m, some s.val⟩)
    (he : encode i = commandWord g s op) (hr : ⟨m, commandWord g 0 op, 0xFFFFF8FF⟩ ∈ opcodeRows) :
    TableCommand v i ↔ v = encode i := by
  have hop := op.isLt
  have hs := s.isLt
  rw [TableCommand, hi, exists_row_of_mnemonic_iff hr, he, OpcodeRow.covers, beq_iff_eq, ← BitVec.toNat_inj,
    ← BitVec.toNat_inj (x := v), and_slotMask_toNat, commandWord_toNat, commandWord_toNat]
  cases g <;> simp <;> omega

end

/-- The word that the table gives a command is the command's word (R87, R90). -/
theorem tableCommand_iff (v : Word) (i : Instr) : TableCommand v i ↔ v = encode i := by
  cases i with
  | enc | dec | mkset | mkclr | bload | bstore => exact tableCommand_iff_of_plainRow rfl (by decide)
  | rload s | rstore s | rclr s | remapF s | remapG s | pixF s | pixG s =>
    exact tableCommand_iff_of_slotRow rfl rfl (by decide)

/-- No two rows agree on the bits that both their masks keep. -/
theorem eq_of_rows_agree :
    ∀ r ∈ opcodeRows, ∀ r' ∈ opcodeRows, r.bits &&& r'.mask = r'.bits &&& r.mask → r = r' := by
  decide

/-- Rows that cover a common word agree on the bits that both their masks keep. -/
theorem rows_agree_of_covers {r r' : OpcodeRow} {v : Word} (h : r.covers v = true) (h' : r'.covers v = true) :
    r.bits &&& r'.mask = r'.bits &&& r.mask := by
  rw [OpcodeRow.covers, beq_iff_eq] at h h'
  rw [← h, ← h', BitVec.and_assoc, BitVec.and_assoc, BitVec.and_comm r.mask]

end Sys2Proof
end

section
/-! PROOFS. The obligations about the encoding. -/

namespace Sys2Proof.Proofs

/-- Settles O3: by the command's word for the first part, by the bits two rows share for the second. -/
theorem decodeFollowsOpcodeTable : Obligations.DecodeFollowsOpcodeTable := by
  intro v
  constructor
  · intro i
    exact decode_eq_ok_iff.trans (tableCommand_iff v i).symm
  · intro r hr r' hr' h h'
    exact eq_of_rows_agree r hr r' hr' (rows_agree_of_covers h h')

end Sys2Proof.Proofs
end

section
/-! PROOFS. The color codec as plain arithmetic: the word each color command computes from OPND, and the word one of them
computes from another's RESULT. -/

namespace Sys2Proof.Machine

open Sys2Proof.Statement

/-! ## Channels and levels -/

/-- The model's scaling is the level of R101: floor division leaves at most 31, which fits in 5 bits. -/
@[simp] theorem scale5_toNat (c : Byte) : (scale5 c).toNat = level c.toNat := by
  have hc := c.isLt
  have hfit : (BitVec.ofNat 5 (c.toNat * 31 / 255)).toNat = c.toNat * 31 / 255 := by
    rw [BitVec.toNat_ofNat]
    omega
  have hzero : c ≠ 0 ↔ c.toNat ≠ 0 := by simp [← BitVec.toNat_inj]
  simp only [scale5, level, hzero]
  split
  · rfl
  · exact hfit

/-- The model's expansion is a multiplication by 8 (R103): at most 248, which fits in 8 bits. -/
@[simp] theorem expand8_toNat (f : BitVec 5) : (expand8 f).toNat = 8 * f.toNat := by
  rw [expand8, BitVec.toNat_ofNat]
  omega

/-- Level `k` without forcing begins at `ceil(255k / 31)` (R108). -/
theorem le_scaled_iff (k c : Nat) : k ≤ c * 31 / 255 ↔ (255 * k + 30) / 31 ≤ c := by
  omega

/-- With the forced level, level 1 begins at 1 and every higher level where it does without forcing (R108). -/
theorem le_level_iff {k : Nat} (hk : 1 ≤ k) (c : Nat) :
    k ≤ level c ↔ (if k = 1 then 1 else (255 * k + 30) / 31) ≤ c := by
  unfold level
  by_cases h1 : k = 1
  · rw [if_pos h1]
    split <;> omega
  · rw [if_neg h1, ← le_scaled_iff]
    split <;> omega

/-- Scaling an expanded field back: `floor(248f / 255)` is `f - 1` for a nonzero field, and forcing restores field 1
(R107). -/
theorem level_eight_mul {f : Nat} (hf : f < 32) : level (8 * f) = if f ≤ 1 then f else f - 1 := by
  unfold level
  split <;> split <;> omega

/-! ## The word each color command computes -/

/-- ENC's color, of OPND as a number (R84, R100). -/
def encNumber (o : Nat) : Nat := level (o / 65536 % 256) * 1024 + level (o / 256 % 256) * 32 + level (o % 256)

/-- DEC's RGB value, of OPND as a number (R84, R85, R102). -/
def decNumber (o : Nat) : Nat :=
  8 * redOf (o % 65536) * 65536 + 8 * greenOf (o % 65536) * 256 + 8 * blueOf (o % 65536)

/-- MKSET's color, of OPND as a number (R104). -/
def mksetNumber (o : Nat) : Nat := o % 32768 + 32768

/-- MKCLR's color, of OPND as a number (R105). -/
def mkclrNumber (o : Nat) : Nat := (o + 32768) % 65536

theorem resultOfHalf_encodeColor (o : Word) : resultOfHalf (encodeColor o) = BitVec.ofNat 32 (encNumber o.toNat) := by
  rw [resultOfHalf_eq, encodeColor, pack555_toNat, scale5_toNat, scale5_toNat, scale5_toNat, operandRed_toNat,
    operandGreen_toNat, operandBlue_toNat, encNumber]

theorem decodeColor_operandColor (o : Word) :
    decodeColor (operandColor o) = BitVec.ofNat 32 (decNumber o.toNat) := by
  apply BitVec.eq_of_toNat_eq
  rw [decodeColor, resultOfRgb_toNat, expand8_toNat, expand8_toNat, expand8_toNat, red5_toNat, green5_toNat,
    blue5_toNat, operandColor_toNat, BitVec.toNat_ofNat]
  simp only [decNumber, redOf, greenOf, blueOf]
  omega

theorem resultOfHalf_setMarker (o : Word) :
    resultOfHalf (setMarker (operandColor o)) = BitVec.ofNat 32 (mksetNumber o.toNat) := by
  rw [resultOfHalf_eq, setMarker_toNat, operandColor_toNat, mksetNumber, Nat.mod_mod_of_dvd _ (by decide)]

theorem resultOfHalf_flipMarker (o : Word) :
    resultOfHalf (flipMarker (operandColor o)) = BitVec.ofNat 32 (mkclrNumber o.toNat) := by
  rw [resultOfHalf_eq, flipMarker_toNat, operandColor_toNat, mkclrNumber, Nat.mod_add_mod]

/-! ## A color command, and one after another -/

/-- In every state `i` completes with RESULT the number `f` of OPND, and changes nothing else but STATUS. -/
def Computes (i : Instr) (f : Nat → Nat) : Prop :=
  ∀ s : State, exec i s =
    .next { s with status := doneStatus s.status, result := BitVec.ofNat 32 (f s.opnd.toNat) }

/-- A command without checks whose effect is a write of RESULT computes that number (R67, R172). -/
theorem computes_of_effectOf {i : Instr} {f : Nat → Nat} (hcheck : ∀ s : State, s.commandError i = none)
    (heffect : ∀ s, effectOf i s = s.setResult (BitVec.ofNat 32 (f s.opnd.toNat))) : Computes i f := by
  intro s
  rw [exec_done (hcheck s), heffect, State.complete_setResult]
  rfl

theorem computes_enc : Computes .enc encNumber :=
  computes_of_effectOf (fun _ => rfl) fun s => congrArg s.setResult (resultOfHalf_encodeColor s.opnd)

theorem computes_dec : Computes .dec decNumber :=
  computes_of_effectOf (fun _ => rfl) fun s => congrArg s.setResult (decodeColor_operandColor s.opnd)

theorem computes_mkset : Computes .mkset mksetNumber :=
  computes_of_effectOf (fun _ => rfl) fun s => congrArg s.setResult (resultOfHalf_setMarker s.opnd)

theorem computes_mkclr : Computes .mkclr mkclrNumber :=
  computes_of_effectOf (fun _ => rfl) fun s => congrArg s.setResult (resultOfHalf_flipMarker s.opnd)

/-- The second command takes as its operand the 32-bit word that the first leaves in RESULT (R85). -/
theorem Computes.feed_eq {i j : Instr} {f g : Nat → Nat} (hi : Computes i f) (hj : Computes j g) (s : State) :
    feed i j s = some (BitVec.ofNat 32 (g (f s.opnd.toNat % 2 ^ 32))) := by
  simp only [feed, hi s, hj _, BitVec.toNat_ofNat]

/-- ENC on the word of DEC scales each of the three expanded fields back (R107). -/
theorem encNumber_decNumber (o : Nat) :
    encNumber (decNumber o % 2 ^ 32) =
      level (8 * redOf (o % 65536)) * 1024 + level (8 * greenOf (o % 65536)) * 32 +
        level (8 * blueOf (o % 65536)) := by
  have hr : redOf (o % 65536) < 32 := Nat.mod_lt _ (by decide)
  have hg : greenOf (o % 65536) < 32 := Nat.mod_lt _ (by decide)
  have hb : blueOf (o % 65536) < 32 := Nat.mod_lt _ (by decide)
  have hred : decNumber o % 2 ^ 32 / 65536 % 256 = 8 * redOf (o % 65536) := by unfold decNumber; omega
  have hgreen : decNumber o % 2 ^ 32 / 256 % 256 = 8 * greenOf (o % 65536) := by unfold decNumber; omega
  have hblue : decNumber o % 2 ^ 32 % 256 = 8 * blueOf (o % 65536) := by unfold decNumber; omega
  rw [encNumber, hred, hgreen, hblue]

end Sys2Proof.Machine
end

section
/-! PROOFS. The obligations about the color codec. -/

namespace Sys2Proof.Proofs

open Sys2Proof.Machine Sys2Proof.Statement

/-- Settles O9, by the number ENC computes. -/
theorem encGivesScaledColor : Obligations.EncGivesScaledColor :=
  ⟨decode_encode .enc, computes_enc⟩

/-- Settles O10, by the number DEC computes. -/
theorem decGivesExpandedChannels : Obligations.DecGivesExpandedChannels :=
  ⟨decode_encode .dec, computes_dec⟩

/-- Settles O11, by the number MKSET computes. -/
theorem mksetSetsBit15 : Obligations.MksetSetsBit15 :=
  ⟨decode_encode .mkset, computes_mkset⟩

/-- Settles O12, by the number MKCLR computes. -/
theorem mkclrFlipsBit15 : Obligations.MkclrFlipsBit15 :=
  ⟨decode_encode .mkclr, computes_mkclr⟩

/-- Settles O14, by the level of each expanded field. -/
theorem hueColorRoundTrip : Obligations.HueColorRoundTrip := by
  intro s c back
  have hr : level (8 * redOf c) = back (redOf c) := level_eight_mul (Nat.mod_lt _ (by decide))
  have hg : level (8 * greenOf c) = back (greenOf c) := level_eight_mul (Nat.mod_lt _ (by decide))
  have hb : level (8 * blueOf c) = back (blueOf c) := level_eight_mul (Nat.mod_lt _ (by decide))
  rw [computes_dec.feed_eq computes_enc, encNumber_decNumber, hr, hg, hb]

/-- Settles O16: each law is the one number computed from the other, modulo 2^16. -/
theorem markerLaws : Obligations.MarkerLaws := by
  intro s
  have hflipFlip : mkclrNumber (mkclrNumber s.opnd.toNat % 2 ^ 32) = s.opnd.toNat % 65536 := by
    unfold mkclrNumber; omega
  have hsetFlip : mkclrNumber (mksetNumber s.opnd.toNat % 2 ^ 32) = s.opnd.toNat % 32768 := by
    unfold mkclrNumber mksetNumber; omega
  have hflipSet : mksetNumber (mkclrNumber s.opnd.toNat % 2 ^ 32) = s.opnd.toNat % 32768 + 32768 := by
    unfold mksetNumber mkclrNumber; omega
  rw [computes_mkclr.feed_eq computes_mkclr, computes_mkset.feed_eq computes_mkclr,
    computes_mkclr.feed_eq computes_mkset, hflipFlip, hsetFlip, hflipSet]
  exact ⟨rfl, rfl, by omega, rfl⟩

/-- Settles O15, by where each level begins. -/
theorem scaleLevelBoundaries : Obligations.ScaleLevelBoundaries := by
  intro k c hk
  rw [scale5_toNat]
  exact ⟨le_level_iff hk c.toNat, le_scaled_iff k.val c.toNat⟩

end Sys2Proof.Proofs
end

section
/-! PROOFS. The record codec: the check of a span of bytes, the bytes a record and a block decode from and encode to,
and what comes back of bytes that are decoded and encoded again. -/

namespace Sys2Proof.Machine

open Sys2Proof.Statement

/-! ## The word of a command with a slot -/

/-- The word of a line as the sum of its opcode and its slot field (R90). -/
theorem commandWord_eq_ofNat (s : Slot) (op : BitVec 8) :
    commandWord false s op = BitVec.ofNat 32 (op.toNat + 256 * s.val) := by
  apply BitVec.eq_of_toNat_eq
  have hop := op.isLt
  have hs := s.isLt
  rw [commandWord_toNat, Bool.toNat_false, BitVec.toNat_ofNat]
  omega

theorem decode_ofNat_of_encode {i : Instr} {s : Slot} {op : BitVec 8} (h : encode i = commandWord false s op) :
    decode (BitVec.ofNat 32 (op.toNat + 256 * s.val)) = .ok i := by
  rw [← commandWord_eq_ofNat, ← h, decode_encode]

/-! ## A command that checks a span of bytes -/

/-- The memory system refuses a byte of a span exactly where the span's kind is not admitted (R66). -/
theorem refuses_span (s : State) (a n b : Nat) (k : AccessKind) :
    s.refuses (.span a n k) b = !s.admits b k := by
  cases k <;> simp [State.refuses, Footprint.needs]

section
variable {i : Instr} {s : State} {n : Nat} {k : AccessKind}
  (hcheck : s.commandError i = s.footprintError (.span s.addr.toNat n k))
include hcheck

/-- A span past the top of the address space ends in RANGE (R66). -/
theorem exec_range_of_span (hn : 0 < n) (htop : 0x100000000 < s.addr.toNat + n) :
    exec i s = .next (errorState s 3 0) := by
  have hlast : s.addr.toNat + n - 1 ∈ (Footprint.span s.addr.toNat n k).bytes :=
    Footprint.mem_bytes_span.mpr (by omega)
  have herror : s.commandError i = some (.plain .range) :=
    hcheck.trans (State.footprintError_eq_some.mpr (.inl ⟨⟨_, hlast, show 0xFFFFFFFF < _ by omega⟩, rfl⟩))
  exact exec_error herror

/-- A span inside the address space ends in BUS at its lowest byte that is not admitted (R66). -/
theorem exec_bus_of_span (htop : s.addr.toNat + n ≤ 0x100000000) {b : Nat}
    (hb : LowestRefused s (bytesOf s.addr.toNat n) [k] b) : exec i s = .next (errorState s 4 b) := by
  obtain ⟨hmem, ⟨k', hk', hrefused⟩, hlow⟩ := hb
  obtain rfl : k' = k := List.mem_singleton.mp hk'
  have herror : s.commandError i = some ⟨.bus, BitVec.ofNat 32 b⟩ := by
    refine hcheck.trans (State.footprintError_eq_some.mpr (.inr ⟨fun c hc => ?_, b,
      Footprint.mem_bytes_span.mpr hmem, ?_, fun c hc hcr => ?_, rfl⟩))
    · have := Footprint.mem_bytes_span.mp hc
      change c ≤ 0xFFFFFFFF
      omega
    · rw [refuses_span, hrefused]
      rfl
    · rw [refuses_span, Bool.not_eq_true'] at hcr
      exact hlow c (Footprint.mem_bytes_span.mp hc) ⟨k', hk', hcr⟩
  exact exec_error herror

/-- A span inside the address space with every byte admitted lets the command complete (R66, R172). -/
theorem exec_done_of_span (htop : s.addr.toNat + n ≤ 0x100000000)
    (hall : AllAdmitted s (bytesOf s.addr.toNat n) [k]) : exec i s = .next (effectOf i s).complete := by
  refine exec_done (hcheck.trans (State.footprintError_eq_none.mpr fun b hb => ?_))
  have hmem := Footprint.mem_bytes_span.mp hb
  rw [refuses_span, hall b hmem k (List.mem_singleton.mpr rfl)]
  exact ⟨show b ≤ 0xFFFFFFFF by omega, rfl⟩

end

/-- A command that ends without error has completed with its effect (R172, R173). -/
theorem eq_complete_of_exec {i : Instr} {s t : State} (h : exec i s = .next t) (herr : t.status.err = false) :
    t = (effectOf i s).complete := by
  obtain ⟨e, -, rfl⟩ | ⟨-, rfl⟩ := exec_cases h
  · exact absurd herr (by simp)
  · rfl

/-- A completed write of memory changes memory and STATUS alone (R130, R134). -/
theorem complete_of_effectOf_setMem {i : Instr} {s : State} {m : Memory} (h : effectOf i s = s.setMem m) :
    (effectOf i s).complete =
      { s with status := doneStatus s.status, mem := (effectOf i s).complete.mem } := by
  rw [h]
  rfl

/-- RSTORE keeps every byte outside its footprint (R130). -/
theorem read_effect_rstore_other (s : State) (n : Slot) {b : Nat} (hb : ¬ bytesOf s.addr.toNat 88 b) :
    Memory.read (effectOf (.rstore n) s).complete.mem b = Memory.read s.mem b := by
  rw [effectOf, State.complete_mem, State.setMem_mem, Memory.read_writeBytes_vector_other _ _ _ hb]

/-- BSTORE keeps every byte outside its footprint (R134). -/
theorem read_effect_bstore_other (s : State) {b : Nat} (hb : ¬ bytesOf s.addr.toNat 708 b) :
    Memory.read (effectOf .bstore s).complete.mem b = Memory.read s.mem b := by
  rw [effectOf, State.complete_mem, State.setMem_mem, Memory.read_writeBytes_vector_other _ _ _ hb]

/-! ## One record -/

/-- The model's decoding of a record is the one of R120, R123 and R125. -/
theorem decodedFrom_decodeRecord (b : Nat → Byte) : DecodedFrom b (decodeRecord b) where
  ramp i := by
    rw [Fin.getElem_fin, decodeRecord_ramp b i.val i.isLt, setMarker_toNat, halfOfBytes_toNat]
  tstart := by rw [decodeRecord_tstart, setMarker_toNat, halfOfBytes_toNat]
  tend := by rw [decodeRecord_tend, setMarker_toNat, halfOfBytes_toNat]
  ended j := by
    rintro ⟨k, hk, hz⟩
    rw [Fin.getElem_fin, decodeRecord_name, decodeName_getElem _ _ j.isLt, if_neg]
    rw [lt_nameLen_iff j.isLt]
    exact fun h => h k hk (by rw [Vector.getElem_ofFn, hz])
  text j h := by
    rw [Fin.getElem_fin, decodeRecord_name, decodeName_getElem _ _ j.isLt, if_pos, Vector.getElem_ofFn]
    rw [lt_nameLen_iff j.isLt]
    intro k hk
    rw [Vector.getElem_ofFn]
    exact h k hk

/-- The two bytes of a flipped color as a number (R126). -/
theorem lowByte_add_highByte_flipMarker (c : Half) :
    (lowByte (flipMarker c)).toNat + 256 * (highByte (flipMarker c)).toNat = (c.toNat + 32768) % 65536 := by
  rw [← halfOfBytes_toNat, halfOfBytes_lowByte_highByte, flipMarker_toNat]

/-- The model's encoding of a record is the one of R120, R124 and R126. -/
theorem encodedTo_of_recordByte {r : Rec} {b : Nat → Byte} (hb : ∀ k < 88, b k = recordByte r k) :
    EncodedTo r b where
  ramp i := by
    obtain ⟨hlow, hhigh⟩ := recordByte_ramp r i.val i.isLt
    rw [hb _ (by omega), hb _ (by omega), hlow, hhigh, lowByte_add_highByte_flipMarker, Fin.getElem_fin]
  tstart := by
    rw [hb 64 (by omega), hb 65 (by omega), (recordByte_tstart r).1, (recordByte_tstart r).2,
      lowByte_add_highByte_flipMarker]
  tend := by
    rw [hb 66 (by omega), hb 67 (by omega), (recordByte_tend r).1, (recordByte_tend r).2,
      lowByte_add_highByte_flipMarker]
  ended j := by
    rintro ⟨k, hk, hz⟩
    rw [hb _ (by omega), recordByte_name r j.val j.isLt, if_neg]
    rw [lt_nameLen_iff j.isLt]
    exact fun h => h k.val hk hz
  text j h := by
    rw [hb _ (by omega), recordByte_name r j.val j.isLt, if_pos, Fin.getElem_fin]
    rw [lt_nameLen_iff j.isLt]
    exact fun k hk => h ⟨k, by omega⟩ hk

/-! ## One block -/

theorem decodeBlock_header_toNat (m : Memory) (a : Nat) :
    (decodeBlock (Memory.bytesFrom m a)).1.toNat = halfAt m a + 65536 * halfAt m (a + 2) := by
  simp only [decodeBlock, Memory.bytesFrom, wordOfBytes_toNat, halfAt, Nat.add_zero, Nat.add_assoc, Nat.reduceAdd]
  omega

theorem decodedFrom_decodeBlock (m : Memory) (a : Nat) (k : Fin 8) :
    DecodedFrom (fun j => Memory.read m (a + 4 + 88 * k + j)) ((decodeBlock (Memory.bytesFrom m a)).2[k]) := by
  have hrec : (decodeBlock (Memory.bytesFrom m a)).2[k] =
      decodeRecord fun j => Memory.read m (a + 4 + 88 * k + j) := by
    simp [decodeBlock, Memory.bytesFrom, Nat.add_assoc]
  rw [hrec]
  exact decodedFrom_decodeRecord _

section
variable {m : Memory} {a : Nat} {h : Word} {recs : Vector Rec 8}
  (hm : ∀ k < 708, Memory.read m (a + k) = blockByte h recs k)
include hm

theorem read_header_of_blockByte {k : Nat} (hk : k < 4) : Memory.read m (a + k) = byteOfWord h k := by
  rw [hm k (by omega), blockByte_header h recs k hk]

theorem header_toNat_of_blockByte : halfAt m a + 65536 * halfAt m (a + 2) = h.toNat := by
  have hbyte : ∀ k < 4, (Memory.read m (a + k)).toNat = h.toNat / 2 ^ (8 * k) % 256 := fun k hk => by
    rw [read_header_of_blockByte hm hk, byteOfWord_toNat]
  have h0 := hbyte 0 (by omega)
  have h1 := hbyte 1 (by omega)
  have h2 := hbyte 2 (by omega)
  have h3 := hbyte 3 (by omega)
  have hlt := h.isLt
  simp only [halfAt, Nat.add_assoc, Nat.reduceAdd]
  simp only [Nat.add_zero] at h0
  omega

theorem encodedTo_of_blockByte (k : Fin 8) :
    EncodedTo (recs[k]) fun j => Memory.read m (a + 4 + 88 * k + j) := by
  refine encodedTo_of_recordByte fun j hj => ?_
  have haddr : a + 4 + 88 * k + j = a + (4 + 88 * k + j) := by omega
  rw [haddr, hm _ (by omega), blockByte_record h recs k.val j k.isLt hj, Fin.getElem_fin]

end

/-! ## Bytes that are decoded and encoded again -/

/-- A header comes back byte by byte (R132, R133). -/
theorem byteOfWord_decodeBlock (m : Memory) (a : Nat) {k : Nat} (hk : k < 4) :
    byteOfWord (decodeBlock (Memory.bytesFrom m a)).1 k = Memory.read m (a + k) := by
  have h0 := (Memory.read m (a + 0)).isLt
  have h1 := (Memory.read m (a + 1)).isLt
  have h2 := (Memory.read m (a + 2)).isLt
  have h3 := (Memory.read m (a + 3)).isLt
  apply BitVec.eq_of_toNat_eq
  simp only [byteOfWord_toNat, decodeBlock, Memory.bytesFrom, wordOfBytes_toNat]
  obtain rfl | rfl | rfl | rfl : k = 0 ∨ k = 1 ∨ k = 2 ∨ k = 3 := by omega
  all_goals omega

/-- `c` gives what comes back of the 88 bytes `b`: colors with bit 15 clear, and names with line feeds as spaces and
zeros from the terminator on (R136, R137). -/
structure RecordBack (b c : Nat → Byte) : Prop where
  color : ∀ i < 34, (c (2 * i)).toNat + 256 * (c (2 * i + 1)).toNat =
    ((b (2 * i)).toNat + 256 * (b (2 * i + 1)).toNat) % 32768
  ended : ∀ j < 20, (∃ l ≤ j, b (68 + l) = 0) → c (68 + j) = 0
  text  : ∀ j < 20, (∀ l ≤ j, b (68 + l) ≠ 0) → c (68 + j) = if b (68 + j) = 0x0A then 0x20 else b (68 + j)

/-- A decoded name has a zero exactly where a zero stands at or before it in the bytes (R122, R123). -/
theorem decodedFrom_name_eq_zero_iff {b : Nat → Byte} {r : Rec} (h : DecodedFrom b r) (j : Fin 20) :
    r.name[j] = 0 ↔ ∃ l ≤ j.val, b (68 + l) = 0 := by
  constructor
  · intro hz
    by_contra hn
    have hne : ∀ l ≤ j.val, b (68 + l) ≠ 0 := fun l hl hb => hn ⟨l, hl, hb⟩
    rw [h.text j hne] at hz
    split at hz
    · exact absurd hz (by decide)
    · exact hne j.val le_rfl hz
  · exact h.ended j

theorem recordBack_of_decodedFrom {b c : Nat → Byte} {r : Rec} (hb : DecodedFrom b r) (hc : EncodedTo r c) :
    RecordBack b c where
  color i hi := by
    obtain hi | rfl | rfl : i < 32 ∨ i = 32 ∨ i = 33 := by omega
    · have hdec := hb.ramp ⟨i, hi⟩
      have henc := hc.ramp ⟨i, hi⟩
      simp only at hdec henc
      omega
    · have hdec := hb.tstart
      have henc := hc.tstart
      simp only [Nat.reduceMul, Nat.reduceAdd]
      omega
    · have hdec := hb.tend
      have henc := hc.tend
      simp only [Nat.reduceMul, Nat.reduceAdd]
      omega
  ended j hj hz := hc.ended ⟨j, hj⟩ ⟨⟨j, hj⟩, le_rfl, (decodedFrom_name_eq_zero_iff hb _).mpr hz⟩
  text j hj hne := by
    rw [hc.text ⟨j, hj⟩, hb.text ⟨j, hj⟩ hne]
    intro k hk hz
    obtain ⟨l, hl, hzero⟩ := (decodedFrom_name_eq_zero_iff hb k).mp hz
    exact hne l (hl.trans hk) hzero

/-- The offsets of a record are those of its 34 colors and its 20 name bytes (R120). -/
theorem forall_lt_recBytes {p : Nat → Prop} :
    (∀ k < 88, p k) ↔ (∀ i < 34, p (2 * i) ∧ p (2 * i + 1)) ∧ ∀ j < 20, p (68 + j) := by
  refine ⟨fun h => ⟨fun i _ => ⟨h _ (by omega), h _ (by omega)⟩, fun j _ => h _ (by omega)⟩, ?_⟩
  rintro ⟨hcolor, hname⟩ k hk
  by_cases hn : 68 ≤ k
  · have hat : 68 + (k - 68) = k := by omega
    exact hat ▸ hname (k - 68) (by omega)
  · obtain ⟨hlow, hhigh⟩ := hcolor (k / 2) (by omega)
    obtain heven | hodd : 2 * (k / 2) = k ∨ 2 * (k / 2) + 1 = k := by omega
    · exact heven ▸ hlow
    · exact hodd ▸ hhigh

/-- The offsets of a block are those of its header and of its eight records (R121). -/
theorem forall_lt_blockBytes {p : Nat → Prop} :
    (∀ k < 708, p k) ↔ (∀ k < 4, p k) ∧ ∀ k < 8, ∀ j < 88, p (4 + 88 * k + j) := by
  refine ⟨fun h => ⟨fun k _ => h _ (by omega), fun k _ j _ => h _ (by omega)⟩, ?_⟩
  rintro ⟨hheader, hrecord⟩ k hk
  by_cases h4 : k < 4
  · exact hheader k h4
  · have hat : 4 + 88 * ((k - 4) / 88) + (k - 4) % 88 = k := by omega
    exact hat ▸ hrecord ((k - 4) / 88) (by omega) ((k - 4) % 88) (by omega)

namespace RecordBack

variable {b c : Nat → Byte}

/-- A color comes back whole exactly if its bit 15 was clear. -/
theorem color_eq_iff (h : RecordBack b c) {i : Nat} (hi : i < 34) :
    (c (2 * i) = b (2 * i) ∧ c (2 * i + 1) = b (2 * i + 1)) ↔
      (b (2 * i)).toNat + 256 * (b (2 * i + 1)).toNat < 32768 := by
  have hcolor := h.color i hi
  have hlow := (b (2 * i)).isLt
  have hlow' := (c (2 * i)).isLt
  rw [← BitVec.toNat_inj, ← BitVec.toNat_inj]
  omega

/-- A name comes back whole exactly if it is canonical. -/
theorem name_eq_iff (h : RecordBack b c) :
    (∀ j < 20, c (68 + j) = b (68 + j)) ↔ CanonicalName fun j => b (68 + j) := by
  constructor
  · refine fun heq => ⟨fun j hj hfeed => ?_, fun j hj k hk hz => ?_⟩
    · by_contra hn
      have hne : ∀ l ≤ j, b (68 + l) ≠ 0 := by
        intro l hl hz
        obtain hlt | rfl := Nat.lt_or_eq_of_le hl
        · exact hn ⟨l, hlt, hz⟩
        · exact absurd (hfeed.symm.trans hz) (by decide)
      have hspace := h.text j hj hne
      rw [if_pos hfeed, heq j hj] at hspace
      exact absurd (hfeed.symm.trans hspace) (by decide)
    · exact (heq j hj).symm.trans (h.ended j hj ⟨k, hk.le, hz⟩)
  · rintro ⟨hfeed, hzeros⟩ j hj
    by_cases hz : ∃ l ≤ j, b (68 + l) = 0
    · obtain ⟨l, hl, hzero⟩ := hz
      rw [h.ended j hj ⟨l, hl, hzero⟩]
      obtain hlt | rfl := Nat.lt_or_eq_of_le hl
      · exact (hzeros j hj l hlt hzero).symm
      · exact hzero.symm
    · rw [h.text j hj fun l hl hzero => hz ⟨l, hl, hzero⟩, if_neg]
      intro hf
      obtain ⟨k, hk, hzero⟩ := hfeed j hj hf
      exact hz ⟨k, hk.le, hzero⟩

/-- The 88 bytes come back exactly if they are canonical (R136, R137). -/
theorem eq_iff (h : RecordBack b c) :
    (∀ k < 88, c k = b k) ↔ ColorsClear b ∧ CanonicalName fun j => b (68 + j) := by
  rw [forall_lt_recBytes, h.name_eq_iff, ColorsClear]
  exact and_congr_left' (forall₂_congr fun i hi => h.color_eq_iff hi)

end RecordBack

/-- BLOAD at X and then BSTORE at Y, both without error: the header comes back, and each record as `RecordBack` says. -/
theorem block_back {s t u : State} {y : Word} (hload : exec .bload s = .next t) (ht : t.status.err = false)
    (hstore : exec .bstore { t with addr := y } = .next u) (hu : u.status.err = false) :
    (∀ k < 4, Memory.read u.mem (y.toNat + k) = Memory.read s.mem (s.addr.toNat + k)) ∧
    ∀ k < 8, RecordBack (fun j => Memory.read s.mem (s.addr.toNat + 4 + 88 * k + j))
      (fun j => Memory.read u.mem (y.toNat + 4 + 88 * k + j)) := by
  obtain rfl := eq_complete_of_exec hload ht
  obtain rfl := eq_complete_of_exec hstore hu
  have hbytes := fun k (hk : k < 708) =>
    read_effect_bstore { (effectOf .bload s).complete with addr := y } hk
  constructor
  · intro k hk
    exact (read_header_of_blockByte hbytes hk).trans (byteOfWord_decodeBlock s.mem s.addr.toNat hk)
  · intro k hk
    exact recordBack_of_decodedFrom (decodedFrom_decodeBlock s.mem s.addr.toNat ⟨k, hk⟩)
      (encodedTo_of_blockByte hbytes ⟨k, hk⟩)

end Sys2Proof.Machine
end

section
/-! PROOFS. The obligations about the record codec. -/

namespace Sys2Proof.Proofs

open Sys2Proof.Machine Sys2Proof.Statement

/-- Settles O17, by the check of 88 bytes and the decoding of a record. -/
theorem rloadDecodesOneRecord : Obligations.RloadDecodesOneRecord := by
  intro n s
  have hcheck := State.commandError_rload s n
  exact ⟨decode_ofNat_of_encode (op := 0x10) rfl, fun h => exec_range_of_span hcheck (by decide) (by omega),
    fun h b hb => exec_bus_of_span hcheck (by omega) hb,
    fun h hall => ⟨_, decodedFrom_decodeRecord _, exec_done_of_span hcheck (by omega) hall⟩⟩

/-- Settles O18, by the check of 88 bytes and the bytes the effect writes. -/
theorem rstoreEncodesOneRecord : Obligations.RstoreEncodesOneRecord := by
  intro n s
  have hcheck := State.commandError_rstore s n
  refine ⟨decode_ofNat_of_encode (op := 0x11) rfl, fun h => exec_range_of_span hcheck (by decide) (by omega),
    fun h b hb => exec_bus_of_span hcheck (by omega) hb,
    fun h hall => ⟨(effectOf (.rstore n) s).complete.mem, ?_, ?_, ?_⟩⟩
  · rw [exec_done_of_span hcheck (by omega) hall, ← complete_of_effectOf_setMem rfl]
  · exact encodedTo_of_recordByte fun k hk => read_effect_rstore s n hk
  · exact fun b hb => read_effect_rstore_other s n hb

/-- Settles O19: RCLR checks nothing, and its effect is the default record. -/
theorem rclrSetsDefaultRecord : Obligations.RclrSetsDefaultRecord := by
  intro n s
  exact ⟨decode_ofNat_of_encode (op := 0x12) rfl, Rec.default, fun i => Vector.getElem_replicate i.isLt, rfl, rfl,
    rfl, exec_done rfl⟩

/-- Settles O20, by the check of 708 bytes and the decoding of a block. -/
theorem bloadDecodesOneBlock : Obligations.BloadDecodesOneBlock := by
  refine ⟨decode_encode .bload, fun s => ?_⟩
  have hcheck := State.commandError_bload s
  exact ⟨fun h => exec_range_of_span hcheck (by decide) (by omega),
    fun h b hb => exec_bus_of_span hcheck (by omega) hb,
    fun h hall => ⟨_, _, decodeBlock_header_toNat s.mem s.addr.toNat, decodedFrom_decodeBlock s.mem s.addr.toNat,
      exec_done_of_span hcheck (by omega) hall⟩⟩

/-- Settles O21, by the header check, the check of 708 bytes and the bytes the effect writes. -/
theorem bstoreEncodesOneBlock : Obligations.BstoreEncodesOneBlock := by
  refine ⟨decode_encode .bstore, fun s => ?_⟩
  have hcheck : s.status.hdrv = true →
      s.commandError .bstore = s.footprintError (.span s.addr.toNat 708 .write) :=
    fun hv => (State.commandError_bstore s).trans (if_pos hv)
  have hbytes := fun k (hk : k < 708) => read_effect_bstore s hk
  refine ⟨fun hv => ?_, fun hv h => exec_range_of_span (hcheck hv) (by decide) (by omega),
    fun hv h b hb => exec_bus_of_span (hcheck hv) (by omega) hb,
    fun hv h hall => ⟨(effectOf .bstore s).complete.mem, ?_, ?_, ?_, ?_⟩⟩
  · exact exec_error ((State.commandError_bstore s).trans (if_neg (by simp [hv])))
  · rw [exec_done_of_span (hcheck hv) (by omega) hall, ← complete_of_effectOf_setMem rfl]
  · exact header_toNat_of_blockByte hbytes
  · exact encodedTo_of_blockByte hbytes
  · exact fun b hb => read_effect_bstore_other s hb

/-- Settles O24, record by record: each is decoded and encoded again. -/
theorem blockRoundTrip : Obligations.BlockRoundTrip := by
  intro s t u y _ hload ht hstore hu
  obtain ⟨hheader, hrecord⟩ := block_back hload ht hstore hu
  refine ⟨hheader, fun k hk i hi => (hrecord k hk).color i hi, fun k hk j hj => ?_, ?_⟩
  · simp only [Nat.add_assoc (s.addr.toNat + 4 + 88 * k) 68, Nat.add_assoc (y.toNat + 4 + 88 * k) 68]
    exact ⟨(hrecord k hk).ended j hj, (hrecord k hk).text j hj⟩
  · rw [forall_lt_blockBytes, and_iff_right hheader]
    refine forall₂_congr fun k hk => ?_
    simp only [Nat.add_assoc (s.addr.toNat + 4 + 88 * k) 68, ← (hrecord k hk).eq_iff]
    simp only [Nat.add_assoc]

end Sys2Proof.Proofs
end

section
/-! PROOFS. The remap engine as plain arithmetic: what each mode makes of a pixel, and REMAP's checks and buffer walk in
the words of the statements. -/

namespace Sys2Proof.Machine

open Sys2Proof.Statement

/-! ## The word of a command in gray-only mode -/

/-- The word of a line with G set as the sum of bit 11, its opcode and its slot field (R90). -/
theorem commandWord_true_eq_ofNat (s : Slot) (op : BitVec 8) :
    commandWord true s op = BitVec.ofNat 32 (0x800 + op.toNat + 256 * s.val) := by
  apply BitVec.eq_of_toNat_eq
  have hop := op.isLt
  have hs := s.isLt
  rw [commandWord_toNat, Bool.toNat_true, BitVec.toNat_ofNat]
  omega

theorem decode_ofNat_of_encode_gray {i : Instr} {s : Slot} {op : BitVec 8} (h : encode i = commandWord true s op) :
    decode (BitVec.ofNat 32 (0x800 + op.toNat + 256 * s.val)) = .ok i := by
  rw [← commandWord_true_eq_ofNat, ← h, decode_encode]

/-! ## Gray pixels -/

/-- A gray pixel: its three fields are equal (R155). -/
abbrev IsGray (p : Nat) : Prop := redOf p = greenOf p ∧ greenOf p = blueOf p

theorem fields_eq_iff_isGray (p : Half) : (red5 p = green5 p ∧ green5 p = blue5 p) ↔ IsGray p.toNat := by
  simp only [IsGray, redOf, greenOf, blueOf, ← BitVec.toNat_inj, red5_toNat, green5_toNat, blue5_toNat]

/-- The gray pixel values: a marker bit, and one level in all three fields (R164). -/
theorem isGray_iff_exists {p : Nat} (hp : p < 65536) :
    IsGray p ↔ ∃ m < 2, ∃ k < 32, p = m * 32768 + k * 1024 + k * 32 + k := by
  simp only [IsGray, redOf, greenOf, blueOf]
  constructor
  · have hred : p / 1024 = p / 32 / 32 := (Nat.div_div_eq_div_mul p 32 32).symm
    have hmarker : p / 32768 = p / 1024 / 32 := (Nat.div_div_eq_div_mul p 1024 32).symm
    exact fun h => ⟨p / 32768, by omega, p % 32, by omega, by omega⟩
  · rintro ⟨m, -, k, hk, rfl⟩
    have hred : (m * 32768 + k * 1024 + k * 32 + k) / 1024 = 32 * m + k := by omega
    have hgreen : (m * 32768 + k * 1024 + k * 32 + k) / 32 = 32 * (32 * m + k) + k := by omega
    omega

/-! ## One pixel -/

/-- A pixel is replaced unless it is zero or, in gray-only mode, colored (R153 to R155). -/
theorem remapPixel_replaces_iff (p : Half) (ramp : Vector Half 32) (gray : Bool) :
    (remapPixel p ramp gray).1 = true ↔ p ≠ 0 ∧ (gray = true → IsGray p.toNat) := by
  simp only [remapPixel, fields_eq_iff_isGray]
  grind

/-- A replaced pixel has the ramp entry of its red field (R154, R155). -/
theorem newPixel_of_replaced {p : Half} {ramp : Vector Half 32} {gray : Bool}
    (h : (remapPixel p ramp gray).1 = true) : newPixel ramp gray p = rampAt ramp (red5 p) := by
  unfold newPixel
  unfold remapPixel at h ⊢
  grind

theorem rampAt_red5 (ramp : Vector Half 32) (p : Half) :
    rampAt ramp (red5 p) = ramp[redOf p.toNat]'(Nat.mod_lt _ (by decide)) := by
  simp only [rampAt, red5_toNat, redOf]

/-- The value a mode gives a pixel, over the naturals (R153 to R155). -/
def modePixel (gray : Bool) (ramp : Vector Half 32) : Nat → Nat :=
  if gray then grayPixel ramp else fullPixel ramp

/-- What a mode makes of a nonzero pixel that is, in gray-only mode, gray (R154, R155). -/
theorem modePixel_of_replaced {gray : Bool} {ramp : Vector Half 32} {p : Nat} (h0 : p ≠ 0)
    (hg : gray = true → IsGray p) :
    modePixel gray ramp p = (ramp[redOf p]'(Nat.mod_lt _ (by decide))).toNat := by
  cases gray with
  | false => exact if_neg h0
  | true => exact (if_pos (hg rfl)).trans (if_neg h0)

theorem modePixel_zero (gray : Bool) (ramp : Vector Half 32) : modePixel gray ramp 0 = 0 := by
  cases gray <;> rfl

/-- Gray-only mode keeps a colored pixel (R155). -/
theorem modePixel_of_colored {ramp : Vector Half 32} {p : Nat} (h : ¬ IsGray p) : modePixel true ramp p = p :=
  if_neg h

/-- On a gray pixel gray-only mode is full mode (R162). -/
theorem modePixel_of_gray {ramp : Vector Half 32} {p : Nat} (h : IsGray p) :
    modePixel true ramp p = modePixel false ramp p :=
  if_pos h

/-- The model's per-pixel function is the one of the statements, in both modes (R156). -/
theorem newPixel_toNat (ramp : Vector Half 32) (gray : Bool) (p : Half) :
    (newPixel ramp gray p).toNat = modePixel gray ramp p.toNat := by
  by_cases h : (remapPixel p ramp gray).1 = true
  · obtain ⟨h0, hg⟩ := (remapPixel_replaces_iff p ramp gray).mp h
    rw [newPixel_of_replaced h, rampAt_red5, modePixel_of_replaced (by simpa [← BitVec.toNat_inj] using h0) hg]
  · rw [newPixel_of_kept (Bool.eq_false_of_not_eq_true h)]
    rw [remapPixel_replaces_iff, not_and, Classical.not_imp] at h
    by_cases h0 : p = 0
    · rw [h0]
      exact (modePixel_zero gray ramp).symm
    · obtain ⟨rfl, hg⟩ := h h0
      exact (modePixel_of_colored hg).symm

/-- A pixel whose red field indexes its own value in the ramp is left as it is, replaced or kept (R163). -/
theorem newPixel_of_rampAt_self {p : Half} {ramp : Vector Half 32} (h : rampAt ramp (red5 p) = p) (gray : Bool) :
    newPixel ramp gray p = p := by
  cases hw : (remapPixel p ramp gray).1 with
  | true => rw [newPixel_of_replaced hw, h]
  | false => exact newPixel_of_kept hw

/-- In a ramp whose entries' red fields are their own indexes, an entry's red field finds the entry (R163). -/
theorem rampAt_red5_rampAt {ramp : Vector Half 32} (h : ∀ k : Fin 32, redOf (ramp[k]).toNat = k.val) (k : BitVec 5) :
    rampAt ramp (red5 (rampAt ramp k)) = rampAt ramp k := by
  have hk : red5 (rampAt ramp k) = k := BitVec.eq_of_toNat_eq ((red5_toNat _).trans (h k.toFin))
  rw [hk]

/-- Over such a ramp a second pass of either mode changes nothing (R163). -/
theorem newPixel_newPixel {ramp : Vector Half 32} (h : ∀ k : Fin 32, redOf (ramp[k]).toNat = k.val) (gray : Bool)
    (p : Half) : newPixel ramp gray (newPixel ramp gray p) = newPixel ramp gray p := by
  cases hw : (remapPixel p ramp gray).1 with
  | true =>
    rw [newPixel_of_replaced hw]
    exact newPixel_of_rampAt_self (rampAt_red5_rampAt h _) gray
  | false => rw [newPixel_of_kept hw, newPixel_of_kept hw]

/-- The command of a mode on one pixel (R157, R158). -/
abbrev pixOf (gray : Bool) (n : Slot) : Instr := if gray then .pixG n else .pixF n

/-- PIX completes with RESULT its mode's value of the pixel operand, and changes nothing else but STATUS (R157, R158). -/
theorem exec_pixOf (gray : Bool) (n : Slot) (s : State) :
    exec (pixOf gray n) s = .next { s with
      status := doneStatus s.status
      result := BitVec.ofNat 32 (modePixel gray (s.slot n).ramp (s.opnd.toNat % 65536)) } := by
  have hcheck : s.commandError (pixOf gray n) = none := by cases gray <;> rfl
  have heffect : effectOf (pixOf gray n) s =
      s.setResult (resultOfHalf (newPixel (s.slot n).ramp gray (operandColor s.opnd))) := by cases gray <;> rfl
  rw [exec_done hcheck, heffect, State.complete_setResult, resultOfHalf_eq, newPixel_toNat, operandColor_toNat]
  rfl

theorem result_of_exec_pixOf {gray : Bool} {n : Slot} {s t : State} (h : exec (pixOf gray n) s = .next t) :
    t.result = BitVec.ofNat 32 (modePixel gray (s.slot n).ramp (s.opnd.toNat % 65536)) := by
  rw [exec_pixOf] at h
  rw [← Host.Outcome.next.inj h]

/-! ## The check of a raster buffer -/

theorem mem_bytes_rasterFootprint {s : State} {b : Nat} : b ∈ s.rasterFootprint.bytes ↔ pixelBytes s b :=
  Footprint.mem_bytes_raster

/-- A byte of a raster buffer is refused where it is not admitted for read or not for write (R66). -/
theorem refuses_rasterFootprint {s : State} {b : Nat} :
    s.refuses s.rasterFootprint b = true ↔ ∃ k ∈ [AccessKind.read, .write], s.admits b k = false := by
  simp [State.refuses, State.rasterFootprint, Footprint.needs]

/-- The last byte of a nonempty raster buffer is a pixel byte, and no pixel byte is above it (R66). -/
theorem lastPixelByte_isMax {s : State} (hw : 0 < s.width.toNat) (hh : 0 < s.height.toNat) :
    pixelBytes s (lastPixelByte s) ∧ ∀ b, pixelBytes s b → b ≤ lastPixelByte s := by
  have hlast : s.rasterFootprint.last = some (lastPixelByte s) := if_neg (by omega)
  obtain ⟨hmem, hmax⟩ := Footprint.last_isMax hlast
  exact ⟨mem_bytes_rasterFootprint.mp hmem, fun b hb => hmax b (mem_bytes_rasterFootprint.mpr hb)⟩

/-- A buffer that has a pixel byte is nonempty. -/
theorem pos_of_pixelBytes {s : State} {b : Nat} (h : pixelBytes s b) : 0 < s.width.toNat ∧ 0 < s.height.toNat := by
  obtain ⟨y, hy, x, hx, -⟩ := h
  omega

theorem pixelBytes_le_lastPixelByte {s : State} {b : Nat} (h : pixelBytes s b) : b ≤ lastPixelByte s := by
  obtain ⟨hw, hh⟩ := pos_of_pixelBytes h
  exact (lastPixelByte_isMax hw hh).2 b h

/-! ## REMAP -/

/-- The command of a mode on a raster buffer (R160, R161). -/
abbrev remapOf (gray : Bool) (n : Slot) : Instr := if gray then .remapG n else .remapF n

theorem commandError_remapOf (s : State) (gray : Bool) (n : Slot) :
    s.commandError (remapOf gray n) =
      if s.stride.toNat < s.width.toNat then some (.plain .geometry)
      else s.footprintError s.rasterFootprint := by
  cases gray with
  | false => exact State.commandError_remapF s n
  | true => exact State.commandError_remapG s n

theorem decode_remapOf (gray : Bool) (n : Slot) :
    decode (BitVec.ofNat 32 ((if gray then 0x820 else 0x20) + 256 * n.val)) = .ok (remapOf gray n) := by
  cases gray with
  | false => exact decode_ofNat_of_encode (op := 0x20) rfl
  | true => exact decode_ofNat_of_encode_gray (op := 0x20) rfl

theorem effectOf_remapOf (gray : Bool) (n : Slot) (s : State) :
    effectOf (remapOf gray n) s = s.setMem (s.remapBuffer gray n) := by
  cases gray <;> rfl

section
variable {s : State} (gray : Bool) (n : Slot)

/-- Rows longer than their pitch end in GEOMETRY, before the footprint is checked (R152, R174). -/
theorem exec_remapOf_geometry (h : s.stride.toNat < s.width.toNat) :
    exec (remapOf gray n) s = .next (errorState s 2 0) :=
  exec_error ((commandError_remapOf s gray n).trans (if_pos h))

variable (hgeo : s.width.toNat ≤ s.stride.toNat)
include hgeo

/-- A nonempty buffer past the top of the address space ends in RANGE (R66). -/
theorem exec_remapOf_range (hw : 0 < s.width.toNat) (hh : 0 < s.height.toNat) (htop : 0xFFFFFFFF < lastPixelByte s) :
    exec (remapOf gray n) s = .next (errorState s 3 0) := by
  have hlast := mem_bytes_rasterFootprint.mpr (lastPixelByte_isMax hw hh).1
  have hrange : s.footprintError s.rasterFootprint = some (.plain .range) :=
    State.footprintError_eq_some.mpr (.inl ⟨⟨_, hlast, htop⟩, rfl⟩)
  exact exec_error ((commandError_remapOf s gray n).trans ((if_neg hgeo.not_gt).trans hrange))

/-- A buffer inside the address space ends in BUS at its lowest byte not admitted for read or for write (R66). -/
theorem exec_remapOf_bus (htop : lastPixelByte s ≤ 0xFFFFFFFF) {b : Nat}
    (hb : LowestRefused s (pixelBytes s) [.read, .write] b) :
    exec (remapOf gray n) s = .next (errorState s 4 b) := by
  obtain ⟨hmem, hrefused, hlow⟩ := hb
  have hbus : s.footprintError s.rasterFootprint = some ⟨.bus, BitVec.ofNat 32 b⟩ :=
    State.footprintError_eq_some.mpr (.inr
      ⟨fun c hc => (pixelBytes_le_lastPixelByte (mem_bytes_rasterFootprint.mp hc)).trans htop,
        b, mem_bytes_rasterFootprint.mpr hmem, refuses_rasterFootprint.mpr hrefused,
        fun c hc hcr => hlow c (mem_bytes_rasterFootprint.mp hc) (refuses_rasterFootprint.mp hcr), rfl⟩)
  exact exec_error ((commandError_remapOf s gray n).trans ((if_neg hgeo.not_gt).trans hbus))

/-- An empty buffer, or one inside the address space with every byte admitted, is walked (R66, R159, R172). -/
theorem exec_remapOf_done
    (hrange : s.width.toNat = 0 ∨ s.height.toNat = 0 ∨ lastPixelByte s ≤ 0xFFFFFFFF)
    (hall : AllAdmitted s (pixelBytes s) [.read, .write]) :
    exec (remapOf gray n) s = .next { s with status := doneStatus s.status, mem := s.remapBuffer gray n } := by
  have hnone : s.footprintError s.rasterFootprint = none := by
    refine State.footprintError_eq_none.mpr fun b hb => ?_
    have hpix := mem_bytes_rasterFootprint.mp hb
    have hpos := pos_of_pixelBytes hpix
    have hle := pixelBytes_le_lastPixelByte hpix
    refine ⟨show b ≤ 0xFFFFFFFF by omega, Bool.eq_false_iff.mpr fun hr => ?_⟩
    obtain ⟨k, hk, hk'⟩ := refuses_rasterFootprint.mp hr
    exact absurd (hall b hpix k hk) (by simp [hk'])
  rw [exec_done ((commandError_remapOf s gray n).trans ((if_neg hgeo.not_gt).trans hnone)), effectOf_remapOf,
    State.complete_setMem]
  rfl

end

theorem readHalf_toNat (m : Memory) (a : Nat) : (Memory.readHalf m a).toNat = halfAt m a :=
  halfOfBytes_toNat _ _

/-- Every pixel of the buffer has, after the walk, its mode's value of its old value (R159). -/
theorem halfAt_remapBuffer {s : State} (gray : Bool) (n : Slot) (hgeo : s.width.toNat ≤ s.stride.toNat) {x y : Nat}
    (hy : y < s.height.toNat) (hx : x < s.width.toNat) :
    let p := pixelAddress s.addr.toNat s.stride.toNat x y
    halfAt (s.remapBuffer gray n) p = modePixel gray (s.slot n).ramp (halfAt s.mem p) := by
  intro p
  have hp : p ∈ rasterPixels s.addr.toNat s.width.toNat s.height.toNat s.stride.toNat :=
    mem_rasterPixels.mpr ⟨y, hy, x, hx, rfl⟩
  rw [← readHalf_toNat, State.remapBuffer, readHalf_walk (rasterPixels_pairwise hgeo) hp, newPixel_toNat,
    readHalf_toNat]

/-- The walk keeps every byte that is no pixel's (R150, R159). -/
theorem read_remapBuffer_other {s : State} (gray : Bool) (n : Slot) {b : Nat} (hb : ¬ pixelBytes s b) :
    Memory.read (s.remapBuffer gray n) b = Memory.read s.mem b := by
  refine read_walk_other (fun p hp => ?_) s.mem
  obtain ⟨y, hy, x, hx, rfl⟩ := mem_rasterPixels.mp hp
  exact ⟨fun e => hb ⟨y, hy, x, hx, .inl e⟩, fun e => hb ⟨y, hy, x, hx, .inr e⟩⟩

end Sys2Proof.Machine
end

section
/-! PROOFS. The obligations about the remap engine. -/

namespace Sys2Proof.Proofs

open Sys2Proof.Machine Sys2Proof.Statement

/-- Settles O25, by the value full mode gives a pixel. -/
theorem pixFullMode : Obligations.PixFullMode :=
  fun n s => ⟨decode_ofNat_of_encode (op := 0x21) rfl, exec_pixOf false n s⟩

/-- Settles O26, by the value gray-only mode gives a pixel. -/
theorem pixGrayMode : Obligations.PixGrayMode :=
  fun n s => ⟨decode_ofNat_of_encode_gray (op := 0x21) rfl, exec_pixOf true n s⟩

/-- Settles O27, by the check of a raster buffer and what the buffer walk leaves in each byte. -/
theorem remapRewritesEveryPixel : Obligations.RemapRewritesEveryPixel :=
  fun n _ gray => ⟨decode_remapOf gray n, exec_remapOf_geometry gray n, exec_remapOf_range gray n,
    fun hgeo htop _ hb => exec_remapOf_bus gray n hgeo htop hb,
    fun hgeo hrange hall => ⟨_, exec_remapOf_done gray n hgeo hrange hall,
      fun _ hy _ hx => halfAt_remapBuffer gray n hgeo hy hx, fun _ hb => read_remapBuffer_other gray n hb⟩⟩

/-- Settles O28: on a gray pixel gray-only mode is full mode, and it keeps any other pixel. -/
theorem modesDifferOnlyOnColoredPixels : Obligations.ModesDifferOnlyOnColoredPixels := by
  intro n s f g hf hg p gray
  have hfull : f.result = BitVec.ofNat 32 (modePixel false (s.slot n).ramp p) := result_of_exec_pixOf hf
  have hgray : g.result = BitVec.ofNat 32 (modePixel true (s.slot n).ramp p) := result_of_exec_pixOf hg
  by_cases h : IsGray p
  · have hsame : g.result = f.result := by rw [hgray, hfull, modePixel_of_gray h]
    exact ⟨.inr hsame, fun _ => hsame, fun hne => absurd hsame hne⟩
  · rw [modePixel_of_colored h] at hgray
    have hkept : g.result.toNat = p := by
      rw [hgray, BitVec.toNat_ofNat]
      omega
    have hzero : p = 0 → g.result = f.result := fun h0 => by rw [hgray, hfull, h0, modePixel_zero]
    refine ⟨.inl hkept, fun h' => hzero (h'.resolve_left h), fun hne => ⟨mt hzero hne, h, hkept, ?_⟩⟩
    rw [hfull, modePixel_of_replaced (mt hzero hne) (by simp), BitVec.toNat_ofNat]
    exact Nat.mod_eq_of_lt (by omega)

/-- Settles O29, by the two conditions under which a pixel is replaced. -/
theorem replacedPixelValues : Obligations.ReplacedPixelValues := by
  intro p ramp
  rw [remapPixel_replaces_iff, remapPixel_replaces_iff, ← isGray_iff_exists p.isLt]
  simp

/-- Settles O30: a ramp that takes level 1 to level 2 and level 2 to 0 shows that the modes are not idempotent. Of the two
premises on the ramp the first alone suffices: gray-only mode keeps an entry that is not gray. -/
theorem secondPassOfAMode : Obligations.SecondPassOfAMode := by
  refine ⟨fun gray => ⟨(Vector.replicate 32 0).set 1 0x0842, 0x0421, ?_⟩, fun gray ramp hself _ p =>
    newPixel_newPixel hself gray p⟩
  cases gray <;> decide

end Sys2Proof.Proofs
end

section
/-! PROOFS. How commands end with an error: the words that are no command's, what an error leaves, and the errors each
command can raise. -/

namespace Sys2Proof.Machine

open Sys2Proof.Statement

/-! ## Words that are no command's -/

/-- The four grounds of ILLEGAL, on the word as a number (R175). -/
abbrev IllegalWord (v : Nat) : Prop :=
  v % 256 ∉ [0x01, 0x02, 0x03, 0x04, 0x10, 0x11, 0x12, 0x13, 0x14, 0x20, 0x21] ∨ v / 4096 ≠ 0 ∨
    (v % 256 ∈ [0x01, 0x02, 0x03, 0x04, 0x13, 0x14] ∧ v / 256 % 8 ≠ 0) ∨
    (v % 256 ∉ [0x20, 0x21] ∧ v / 2048 % 2 = 1)

theorem not_illegalWord_encode (i : Instr) : ¬ IllegalWord (encode i).toNat := by
  cases i with
  | enc | dec | mkset | mkclr | bload | bstore => decide
  | rload n | rstore n | rclr n | remapF n | remapG n | pixF n | pixG n => revert n; decide

/-- The perform step answers a word that has one of the four grounds with ILLEGAL (R175). -/
theorem perform_of_illegalWord {s : State} (h : IllegalWord s.cmdLatch.toNat) :
    perform s = .next (errorState s 1 0) := by
  obtain ⟨i, hd, -⟩ | ⟨-, hraise⟩ := perform_cases s
  · rw [eq_encode_of_decode hd] at h
    exact absurd h (not_illegalWord_encode i)
  · exact hraise

/-! ## What an error is and what it leaves -/

/-- A command that ends with ERR = 1, and found it 0, has raised the error of its checks (R173, R181). -/
theorem eq_raise_of_exec {i : Instr} {s t : State} (hs : s.status.err = false) (h : exec i s = .next t)
    (ht : t.status.err = true) : ∃ e, s.commandError i = some e ∧ t = s.raise e := by
  obtain herror | ⟨-, rfl⟩ := exec_cases h
  · exact herror
  · obtain ⟨-, -, hkept, -⟩ := effectOf_frame i s
    rw [State.complete_status, Status.finishDone_err, hkept, hs] at ht
    contradiction

/-- A footprint check raises RANGE or BUS, and an address with BUS alone (R66). -/
theorem footprintError_code {s : State} {f : Footprint} {e : CmdError} (h : s.footprintError f = some e) :
    e.code.bits ∈ [3, 4] ∧ (e.code.bits ≠ 4 → e.address = 0) := by
  obtain ⟨-, rfl⟩ | ⟨-, a, -, -, -, rfl⟩ := State.footprintError_eq_some.mp h
  · decide
  · exact ⟨List.mem_cons_of_mem _ List.mem_cons_self, fun hne => absurd rfl hne⟩

/-- The checks of a command raise an error that R180 gives it, and an address with BUS alone (R35, R174). -/
theorem commandError_code {i : Instr} {s : State} {e : CmdError} (h : s.commandError i = some e) :
    e.code.bits ∈ possibleErrors i ∧ (e.code.bits ≠ 4 → e.address = 0) := by
  cases i with
  | enc | dec | mkset | mkclr | rclr | pixF | pixG => contradiction
  | rload n => exact footprintError_code ((State.commandError_rload s n).symm.trans h)
  | rstore n => exact footprintError_code ((State.commandError_rstore s n).symm.trans h)
  | bload => exact footprintError_code ((State.commandError_bload s).symm.trans h)
  | bstore =>
    rw [State.commandError_bstore] at h
    split at h
    · exact (footprintError_code h).imp_left (List.mem_cons_of_mem _)
    · cases h
      decide
  | remapF n | remapG n =>
    simp only [State.commandError_remapF, State.commandError_remapG] at h
    split at h
    · cases h
      exact ⟨List.mem_cons_self, fun _ => rfl⟩
    · exact (footprintError_code h).imp_left (List.mem_cons_of_mem _)

/-! ## A state for each error a command can raise -/

/-- The command ends with the error code `c` in some state with ERR = 0. -/
def Raises (i : Instr) (c : BitVec 4) : Prop :=
  ∃ s t : State, s.status.err = false ∧ exec i s = .next t ∧ t.status.err = true ∧ t.status.errCode = c

theorem raises_of_exec {i : Instr} {s : State} {c : BitVec 4} {a : Nat} (hs : s.status.err = false)
    (h : exec i s = .next (errorState s c a)) : Raises i c :=
  ⟨s, _, hs, h, rfl, rfl⟩

/-- ADDR is the last address, so that every footprint passes the top; the buffer is one pixel, and a header stands. -/
def topOfMemory : State :=
  { State.reset with
    status := State.reset.status.establishHeader, addr := 0xFFFFFFFF, width := 1, height := 1, stride := 1 }

/-- ADDR is the first address, and the memory system admits no access to any; a one-pixel buffer and a header. -/
def nothingAdmitted : State :=
  { topOfMemory with addr := 0, denied := [⟨0, 0xFFFFFFFF, .read⟩, ⟨0, 0xFFFFFFFF, .write⟩] }

theorem lowestRefused_nothingAdmitted {f : Nat → Prop} {k : AccessKind} {ks : List AccessKind} (hf : f 0)
    (hk : k ∈ ks) : LowestRefused nothingAdmitted f ks 0 :=
  ⟨hf, ⟨k, hk, by cases k <;> rfl⟩, fun c _ _ => c.zero_le⟩

/-- A command whose check, once a header stands, is that of a span raises RANGE and BUS. -/
theorem raises_of_span {i : Instr} {n : Nat} {k : AccessKind}
    (hcheck : ∀ s : State, s.status.hdrv = true → s.commandError i = s.footprintError (.span s.addr.toNat n k))
    (hn : 1 < n) (hn' : n ≤ 0x100000000) : ∀ c ∈ [3, 4], Raises i c := by
  have hrange : Raises i 3 :=
    raises_of_exec (s := topOfMemory) rfl (exec_range_of_span (hcheck _ rfl) (by omega)
      (show 0x100000000 < 0xFFFFFFFF + n by omega))
  have hbus : Raises i 4 :=
    raises_of_exec (s := nothingAdmitted) rfl (exec_bus_of_span (hcheck nothingAdmitted rfl)
      (show 0 + n ≤ 0x100000000 by omega)
      (lowestRefused_nothingAdmitted (show 0 ≤ 0 ∧ 0 < 0 + n by omega) List.mem_cons_self))
  exact List.forall_mem_cons.mpr ⟨hrange, List.forall_mem_singleton.mpr hbus⟩

/-- REMAP raises GEOMETRY, RANGE and BUS, in either mode. -/
theorem raises_remapOf (gray : Bool) (n : Slot) : ∀ c ∈ [2, 3, 4], Raises (remapOf gray n) c := by
  have hgeometry : Raises (remapOf gray n) 2 :=
    raises_of_exec (s := { State.reset with width := 1 }) rfl (exec_remapOf_geometry gray n (by decide))
  have hrange : Raises (remapOf gray n) 3 :=
    raises_of_exec (s := topOfMemory) rfl (exec_remapOf_range gray n (by decide) (by decide) (by decide) (by decide))
  have hbus : Raises (remapOf gray n) 4 :=
    raises_of_exec (s := nothingAdmitted) rfl (exec_remapOf_bus gray n (by decide) (by decide)
      (lowestRefused_nothingAdmitted ⟨0, by decide, 0, by decide, .inl rfl⟩ List.mem_cons_self))
  exact List.forall_mem_cons.mpr
    ⟨hgeometry, List.forall_mem_cons.mpr ⟨hrange, List.forall_mem_singleton.mpr hbus⟩⟩

/-- Each error that R180 gives a command is raised in some state. -/
theorem raises_of_mem_possibleErrors (i : Instr) : ∀ c ∈ possibleErrors i, Raises i c := by
  cases i with
  | enc | dec | mkset | mkclr | rclr | pixF | pixG => exact fun _ hc => absurd hc List.not_mem_nil
  | rload n => exact raises_of_span (fun s _ => State.commandError_rload s n) (by decide) (by decide)
  | rstore n => exact raises_of_span (fun s _ => State.commandError_rstore s n) (by decide) (by decide)
  | bload => exact raises_of_span (fun s _ => State.commandError_bload s) (by decide) (by decide)
  | bstore =>
    have hnohdr : Raises .bstore 5 :=
      raises_of_exec (s := State.reset) (a := 0) rfl (exec_error (e := .plain .nohdr) rfl)
    exact List.forall_mem_cons.mpr ⟨hnohdr,
      raises_of_span (fun s hv => (State.commandError_bstore s).trans (if_pos hv)) (by decide) (by decide)⟩
  | remapF n => exact raises_remapOf false n
  | remapG n => exact raises_remapOf true n

end Sys2Proof.Machine
end

section
/-! PROOFS. The obligations about errors. -/

namespace Sys2Proof.Proofs

open Sys2Proof.Machine Sys2Proof.Statement

/-- Settles O4: no command's word has one of the four grounds, so the perform step raises ILLEGAL. -/
theorem illegalWordRaisesIllegal : Obligations.IllegalWordRaisesIllegal := by
  intro s hm v h
  have hstep : step s = perform s := if_pos hm
  rw [hstep, perform_of_illegalWord h]

/-- Settles O31: the state is the one the raised error leaves, and the checks give an address with BUS alone. -/
theorem errorsLeaveEverythingElse : Obligations.ErrorsLeaveEverythingElse := by
  intro i s t hs h ht
  obtain ⟨e, herror, rfl⟩ := eq_raise_of_exec hs h ht
  exact ⟨rfl, (commandError_code herror).2⟩

/-- Settles O32: the checks raise no other error, and a state for each of them shows that it can be raised. -/
theorem possibleErrorsOfEachCommand : Obligations.PossibleErrorsOfEachCommand := by
  intro i c
  constructor
  · rintro ⟨s, t, hs, h, ht, rfl⟩
    obtain ⟨e, herror, rfl⟩ := eq_raise_of_exec hs h ht
    exact (commandError_code herror).1
  · exact raises_of_mem_possibleErrors i c

end Sys2Proof.Proofs
end

section
/-! PROOFS. How many bytes a command reads and writes at the memory port. -/

namespace Sys2Proof.Machine

/-! ## The size of a raster buffer -/

@[simp] theorem length_rasterPixels (a w h st : Nat) : (rasterPixels a w h st).length = w * h := by
  simp [rasterPixels, List.length_flatMap, Nat.mul_comm]

/-- Two bytes for every pixel, in whatever way the rows overlap (R65). -/
theorem length_bytes_rasterFootprint (s : State) :
    s.rasterFootprint.bytes.length = 2 * s.width.toNat * s.height.toNat := by
  simp only [State.rasterFootprint, Footprint.bytes, List.length_flatMap, List.length_cons, List.length_nil,
    List.map_const', List.sum_replicate, length_rasterPixels, smul_eq_mul]
  ring

/-! ## The counts of each shape of access list -/

/-- What is replaced is part of what is read: REMAP's writes go to bytes of its footprint, in its order (R71). -/
theorem State.remapAccesses_addresses_sublist (s : State) (gray : Bool) (n : Slot) :
    (((s.remapAccesses gray n).filterMap PortAccess.written).map Prod.fst).Sublist s.rasterFootprint.bytes := by
  rw [State.remapAccesses_addresses]
  refine List.Sublist.flatMap_right _ fun a _ => ?_
  split
  · exact List.Sublist.refl _
  · exact List.nil_sublist _

theorem readsFrom_counts (a n : Nat) :
    ((readsFrom a n).filterMap PortAccess.readAddress).length = n ∧
      ((readsFrom a n).filterMap PortAccess.written).length = 0 := by
  simp [readsFrom_reads, readsFrom_writes]

theorem writesFrom_counts {n : Nat} (a : Nat) (v : Vector Byte n) :
    ((writesFrom a v.toList).filterMap PortAccess.readAddress).length = 0 ∧
      ((writesFrom a v.toList).filterMap PortAccess.written).length = n := by
  have hwrites := congrArg List.length (writesFrom_addresses a v.toList)
  rw [List.length_map, List.length_map, List.length_range, Vector.length_toList] at hwrites
  exact ⟨by rw [writesFrom_reads, List.length_nil], hwrites⟩

theorem State.remapAccesses_counts (s : State) (gray : Bool) (n : Slot) :
    ((s.remapAccesses gray n).filterMap PortAccess.readAddress).length = 2 * s.width.toNat * s.height.toNat ∧
      ((s.remapAccesses gray n).filterMap PortAccess.written).length ≤ 2 * s.width.toNat * s.height.toNat := by
  rw [State.remapAccesses_reads, ← length_bytes_rasterFootprint]
  have hwrites := (s.remapAccesses_addresses_sublist gray n).length_le
  rw [List.length_map] at hwrites
  exact ⟨rfl, hwrites⟩

/-! ## A command that passes its checks -/

theorem State.portTrace_of_passes {s : State} {i : Instr} (h : s.commandError i = none) :
    s.portTrace i = s.accessesOf i := by
  rw [State.portTrace, h]

end Sys2Proof.Machine
end

section
/-! PROOFS. The obligation about the number of accesses at the memory port. -/

namespace Sys2Proof.Proofs

open Sys2Proof.Machine Sys2Proof.Statement

/-- Settles O36: past its checks a command's trace is its access list, whose counts are those of the list's shape. -/
theorem portAccessCounts : Obligations.PortAccessCounts := by
  intro i s h
  simp only [State.portReads, State.portWrites, State.portTrace_of_passes h]
  unfold State.accessesOf
  cases i with
  | rload _ => exact readsFrom_counts _ 88
  | rstore n => exact writesFrom_counts _ (encodeRecord (s.slot n))
  | bload => exact readsFrom_counts _ 708
  | bstore => exact writesFrom_counts _ (encodeBlock s.hdr s.bank)
  | remapF n => exact s.remapAccesses_counts false n
  | remapG n => exact s.remapAccesses_counts true n
  | enc | dec | mkset | mkclr | rclr _ | pixF _ | pixG _ => exact ⟨rfl, rfl⟩

end Sys2Proof.Proofs
end

section
/-! PROOFS. The obligations that say that decoding and encoding are inverse. -/

namespace Sys2Proof.Proofs

/-- Settles O2: a decoded word is put together again from its fields, and each command's word decodes to it. -/
theorem decodeIsInverseOfEncode : Obligations.DecodeIsInverseOfEncode :=
  fun _ _ => decode_eq_ok_iff

/-- Settles O1: six of the words are command words, and the fields of the other two are rejected by name. -/
theorem exampleWordsDecode : Obligations.ExampleWordsDecode :=
  ⟨decode_encode (.rload 3), decode_encode (.remapG 2), decode_encode (.pixF 7), decode_encode .enc,
    decode_encode .bload, decode_encode (.pixG 7), by decide, by decide⟩

end Sys2Proof.Proofs
end

section
/-! PROOFS. What a command does at the memory port: the bytes it accesses are its footprint's, and its writes, computed
from the memory before it, give the memory it leaves. -/

namespace Sys2Proof.Machine

open Sys2Proof.Statement

/-! ## Writes at the memory port as memory -/

namespace Memory

theorem replay_append (m : Memory) (ws ws' : List (Nat × Byte)) : replay m (ws ++ ws') = replay (replay m ws) ws' :=
  List.foldl_append

/-- What a byte reads as after some writes depends on its old value alone, and writes to other bytes can be left out. -/
theorem read_replay_filter {p : Nat → Bool} {a : Nat} (hp : p a = true) (ws : List (Nat × Byte)) {m n : Memory}
    (h : read m a = read n a) : read (replay m (ws.filter fun w => p w.1)) a = read (replay n ws) a := by
  induction ws generalizing m n with
  | nil => exact h
  | cons w ws ih =>
    by_cases hw : p w.1 = true
    · rw [List.filter_cons, if_pos hw, replay_cons, replay_cons]
      exact ih (by rw [read_write, read_write, h])
    · have hne : a ≠ w.1 := fun e => hw (e ▸ hp)
      rw [List.filter_cons, if_neg hw, replay_cons]
      exact ih (by rw [read_write, if_neg hne, h])

end Memory

/-- The visit of one pixel is its writes at the memory port (R71, R159). -/
theorem visitPixel_eq_replay (ramp : Vector Half 32) (gray : Bool) (m : Memory) (a : Nat) :
    visitPixel ramp gray m a = Memory.replay m ((pixelAccesses m ramp gray a).filterMap PortAccess.written) := by
  rw [pixelAccesses_writes, visitPixel]
  split <;> rfl

theorem pixelAccesses_congr {m m' : Memory} {a : Nat} (h : Memory.readHalf m a = Memory.readHalf m' a)
    (ramp : Vector Half 32) (gray : Bool) : pixelAccesses m ramp gray a = pixelAccesses m' ramp gray a := by
  simp only [pixelAccesses, h]

/-- The walk over disjoint pixels, which reads as it goes, is the writes computed from any memory that holds the same
pixels before it (R71, R159). -/
theorem walk_eq_replay {ramp : Vector Half 32} {gray : Bool} {ps : List Nat} (hd : ps.Pairwise fun p q => p + 2 ≤ q)
    {m m' : Memory} (h : ∀ p ∈ ps, Memory.readHalf m p = Memory.readHalf m' p) :
    ps.foldl (visitPixel ramp gray) m =
      Memory.replay m ((ps.flatMap (pixelAccesses m' ramp gray)).filterMap PortAccess.written) := by
  induction ps generalizing m with
  | nil => rfl
  | cons p ps ih =>
    obtain ⟨hp, hps⟩ := List.pairwise_cons.mp hd
    have hkept : ∀ q ∈ ps, Memory.readHalf (visitPixel ramp gray m p) q = Memory.readHalf m' q := fun q hq => by
      have := hp q hq
      rw [← h q (List.mem_cons_of_mem p hq), Memory.readHalf, read_visitPixel, read_visitPixel, if_neg (by omega),
        if_neg (by omega), if_neg (by omega), if_neg (by omega), Memory.readHalf]
    rw [List.foldl_cons, ih hps hkept, visitPixel_eq_replay, pixelAccesses_congr (h p List.mem_cons_self),
      List.flatMap_cons, List.filterMap_append, Memory.replay_append]

/-! ## The access list of a command -/

/-- REMAP's rows do not overlap once its geometry check passes (R152). -/
theorem width_le_stride_of_passes {s : State} {gray : Bool} {n : Slot} (h : s.commandError (remapOf gray n) = none) :
    s.width.toNat ≤ s.stride.toNat := by
  rw [commandError_remapOf] at h
  by_contra hlt
  rw [if_pos (by omega)] at h
  contradiction

theorem remapBuffer_eq_replay {s : State} {gray : Bool} {n : Slot} (h : s.commandError (remapOf gray n) = none) :
    s.remapBuffer gray n = Memory.replay s.mem ((s.remapAccesses gray n).filterMap PortAccess.written) :=
  walk_eq_replay (rasterPixels_pairwise (width_le_stride_of_passes h)) fun _ _ => rfl

/-- The memory of a command's effect is its writes over the memory before it (R71). -/
theorem effectOf_mem {i : Instr} {s : State} (h : s.commandError i = none) :
    (effectOf i s).mem = Memory.replay s.mem ((s.accessesOf i).filterMap PortAccess.written) := by
  cases i with
  | enc | dec | mkset | mkclr | rclr _ | pixF _ | pixG _ => rfl
  | rload n =>
    rw [State.accessesOf, readsFrom_writes]
    rfl
  | bload =>
    rw [State.accessesOf, readsFrom_writes]
    rfl
  | rstore n => rw [effectOf, State.setMem_mem, State.accessesOf, writesFrom_replay]
  | bstore => rw [effectOf, State.setMem_mem, State.accessesOf, writesFrom_replay]
  | remapF n => exact remapBuffer_eq_replay (gray := false) h
  | remapG n => exact remapBuffer_eq_replay (gray := true) h

theorem State.portTrace_of_fails {s : State} {i : Instr} {e : CmdError} (h : s.commandError i = some e) :
    s.portTrace i = [] := by
  rw [State.portTrace, h]

/-- A command, whether it raises an error or completes, leaves the memory its port writes give (R71, R181). -/
theorem mem_of_exec {i : Instr} {s t : State} (h : exec i s = .next t) :
    t.mem = Memory.replay s.mem (s.portWrites i) := by
  obtain ⟨e, herror, rfl⟩ | ⟨hnone, rfl⟩ := exec_cases h
  · rw [State.portWrites, State.portTrace_of_fails herror]
    rfl
  · rw [State.portWrites, State.portTrace_of_passes hnone]
    exact effectOf_mem hnone

/-! ## The footprint of a command -/

/-- The bytes of a command's footprint that need an access kind, in order (R65). -/
def State.footprintBytes (s : State) (i : Instr) (k : AccessKind) : List Nat :=
  if (s.footprint i).needs k then (s.footprint i).bytes else []

theorem State.mem_footprintBytes {s : State} {i : Instr} {k : AccessKind} {b : Nat} :
    b ∈ s.footprintBytes i k ↔ b ∈ (s.footprint i).bytes ∧ (s.footprint i).needs k = true := by
  unfold State.footprintBytes
  split
  · next h => simp [h]
  · next h => simp [h]

/-- A command whose checks pass has no error in its footprint (R66, R174). -/
theorem footprintError_of_passes {i : Instr} {s : State} (h : s.commandError i = none) :
    s.footprintError (s.footprint i) = none := by
  cases i with
  | enc | dec | mkset | mkclr | rclr _ | pixF _ | pixG _ => rfl
  | rload _ | rstore _ | bload => exact h
  | bstore | remapF _ | remapG _ => exact (Option.or_eq_none_iff.mp h).2

theorem bytes_span_pairwise (a n : Nat) (k : AccessKind) : (Footprint.span a n k).bytes.Pairwise (· < ·) :=
  List.pairwise_map.mpr (List.pairwise_lt_range.imp fun h => Nat.add_lt_add_left h a)

theorem bytes_raster_pairwise {a w h st : Nat} (hw : w ≤ st) :
    (Footprint.raster a w h st).bytes.Pairwise (· < ·) := by
  refine List.pairwise_flatMap.mpr ⟨fun p _ => by simp, (rasterPixels_pairwise hw).imp fun {p q} hpq => ?_⟩
  simp only [List.mem_cons, List.not_mem_nil, or_false]
  omega

/-- The footprint bytes of a command whose checks pass ascend, so that none is there twice (R71, R152). -/
theorem footprint_bytes_pairwise {i : Instr} {s : State} (h : s.commandError i = none) :
    (s.footprint i).bytes.Pairwise (· < ·) := by
  cases i with
  | enc | dec | mkset | mkclr | rclr _ | pixF _ | pixG _ => exact List.Pairwise.nil
  | rload _ | rstore _ | bload | bstore => exact bytes_span_pairwise _ _ _
  | remapF n => exact bytes_raster_pairwise (width_le_stride_of_passes (gray := false) h)
  | remapG n => exact bytes_raster_pairwise (width_le_stride_of_passes (gray := true) h)

/-- A command reads every byte of its footprint that needs to be read, in order, and no other (R65, R71). -/
theorem accessesOf_reads (i : Instr) (s : State) :
    (s.accessesOf i).filterMap PortAccess.readAddress = s.footprintBytes i .read := by
  cases i with
  | enc | dec | mkset | mkclr | rclr _ | pixF _ | pixG _ => rfl
  | rload _ => exact readsFrom_reads _ _
  | bload => exact readsFrom_reads _ _
  | rstore _ => exact writesFrom_reads _ _
  | bstore => exact writesFrom_reads _ _
  | remapF n => exact s.remapAccesses_reads false n
  | remapG n => exact s.remapAccesses_reads true n

theorem writesFrom_addresses_vector {n : Nat} (a : Nat) (v : Vector Byte n) :
    ((writesFrom a v.toList).filterMap PortAccess.written).map Prod.fst = (List.range n).map (a + ·) := by
  rw [writesFrom_addresses, Vector.length_toList]

/-- A command writes, in order, some of the footprint bytes that need to be written, and no other (R65, R71). -/
theorem accessesOf_writes_sublist (i : Instr) (s : State) :
    (((s.accessesOf i).filterMap PortAccess.written).map Prod.fst).Sublist (s.footprintBytes i .write) := by
  cases i with
  | enc | dec | mkset | mkclr | rclr _ | pixF _ | pixG _ => exact List.Sublist.refl _
  | rload _ =>
    rw [State.accessesOf, readsFrom_writes]
    exact List.nil_sublist _
  | bload =>
    rw [State.accessesOf, readsFrom_writes]
    exact List.nil_sublist _
  | rstore n =>
    rw [State.accessesOf, writesFrom_addresses_vector]
    exact List.Sublist.refl _
  | bstore =>
    rw [State.accessesOf, writesFrom_addresses_vector]
    exact List.Sublist.refl _
  | remapF n => exact s.remapAccesses_addresses_sublist false n
  | remapG n => exact s.remapAccesses_addresses_sublist true n

theorem footprintBytes_pairwise {i : Instr} {s : State} (h : s.commandError i = none) (k : AccessKind) :
    (s.footprintBytes i k).Pairwise (· < ·) := by
  unfold State.footprintBytes
  split
  · exact footprint_bytes_pairwise h
  · exact List.Pairwise.nil

/-- Past its checks a command writes to bytes of its footprint alone, in order (R65, R71). -/
theorem portWrites_sublist {i : Instr} {s : State} (h : s.commandError i = none) :
    ((s.portWrites i).map Prod.fst).Sublist (s.footprintBytes i .write) := by
  rw [State.portWrites, State.portTrace_of_passes h]
  exact accessesOf_writes_sublist i s

/-- No command writes outside the 32-bit space: one whose footprint passes the top writes nothing (R60, R66). -/
theorem portWrites_le_topAddress (i : Instr) (s : State) : ∀ w ∈ s.portWrites i, w.1 ≤ Config.topAddress := by
  intro w hw
  cases h : s.commandError i with
  | some e =>
    rw [State.portWrites, State.portTrace_of_fails h] at hw
    exact absurd hw List.not_mem_nil
  | none =>
    have hmem := (portWrites_sublist h).mem (List.mem_map_of_mem hw)
    exact (State.footprintError_eq_none.mp (footprintError_of_passes h) w.1 (State.mem_footprintBytes.mp hmem).1).1

end Sys2Proof.Machine
end

section
/-! PROOFS. The obligations about what a command does at the memory port. -/

namespace Sys2Proof.Proofs

open Sys2Proof.Machine Sys2Proof.Statement

/-- Settles O34: the effect of a command whose checks pass is its writes, and a failed check writes nothing. -/
theorem portWritesGiveTheMemory : Obligations.PortWritesGiveTheMemory :=
  fun _ _ _ => mem_of_exec

/-- Settles O35: past its checks a command reads the footprint bytes that need reading and writes some of those that
need writing, in the order of the footprint, which ascends. -/
theorem portAccessesFollowFootprint : Obligations.PortAccessesFollowFootprint := by
  intro i s
  cases h : s.commandError i with
  | some e =>
    have htrace := State.portTrace_of_fails h
    simp only [State.portReads, State.portWrites, htrace, List.filterMap_nil, List.map_nil]
    exact ⟨.nil, .nil, fun _ _ => trivial, nofun⟩
  | none =>
    have hreads : s.portReads i = s.footprintBytes i .read := by
      rw [State.portReads, State.portTrace_of_passes h, accessesOf_reads]
    have hwrites := portWrites_sublist h
    rw [hreads]
    exact ⟨footprintBytes_pairwise h _, (footprintBytes_pairwise h _).sublist hwrites, nofun,
      fun _ => ⟨fun _ => State.mem_footprintBytes, fun _ hb => State.mem_footprintBytes.mp (hwrites.mem hb)⟩⟩

end Sys2Proof.Proofs
end

section
/-! PROOFS. What one step of the engine and one action from outside can do to the flags, the windows and what a busy
block holds. -/

namespace Sys2Proof.Machine

open Sys2Proof.Statement

/-! ## The engine's step -/

/-- Every command ends in a next state, by an error or complete (R171). -/
theorem exists_exec (i : Instr) (s : State) : ∃ t, exec i s = .next t := by
  cases h : s.commandError i with
  | some e => exact ⟨_, exec_error h⟩
  | none => exact ⟨_, exec_done h⟩

/-- A command that has ended leaves BUSY = 0 (R172, R173). -/
theorem busy_of_exec {i : Instr} {s t : State} (h : exec i s = .next t) : t.status.busy = false := by
  obtain ⟨e, -, rfl⟩ | ⟨-, rfl⟩ := exec_cases h
  · rfl
  · rfl

/-- The perform step answers a next state for every latched word (R171, R198). -/
theorem exists_perform (s : State) : ∃ t, perform s = .next t := by
  obtain ⟨i, -, hexec⟩ | ⟨-, hraise⟩ := perform_cases s
  · exact hexec ▸ exists_exec i s
  · exact ⟨_, hraise⟩

/-- All the perform step can do: it raises one error, with an address for BUS alone, or completes the latched command
(R35, R171, R175). -/
theorem perform_next_cases {s t : State} (h : perform s = .next t) :
    (∃ e, t = s.raise e ∧ (e.code.bits ≠ 4 → e.address = 0)) ∨
    ∃ i, decode s.cmdLatch = .ok i ∧ s.commandError i = none ∧ t = (effectOf i s).complete := by
  obtain ⟨i, hd, hexec⟩ | ⟨-, hraise⟩ := perform_cases s
  · rw [hexec] at h
    obtain ⟨e, herror, rfl⟩ | ⟨hnone, rfl⟩ := exec_cases h
    · exact .inl ⟨e, rfl, (commandError_code herror).2⟩
    · exact .inr ⟨i, hd, hnone, rfl⟩
  · rw [hraise] at h
    exact .inl ⟨.plain .illegal, (Host.Outcome.next.inj h).symm, fun _ => rfl⟩

/-- The perform step ends the command, and keeps the actions to come and the windows (R172, R173). -/
theorem perform_frame {s t : State} (h : perform s = .next t) :
    t.status.busy = false ∧ t.pending = s.pending ∧ t.unobserved = s.unobserved := by
  obtain ⟨e, rfl, -⟩ | ⟨i, -, -, rfl⟩ := perform_next_cases h
  · exact ⟨rfl, rfl, rfl⟩
  · obtain ⟨-, -, -, -, -, -, -, -, -, -, -, -, -, hwindows, hpending, -⟩ := effectOf_frame i s
    exact ⟨rfl, hpending, hwindows⟩

/-- A completed command leaves ERR as it was (R172). -/
theorem complete_effectOf_err (i : Instr) (s : State) : (effectOf i s).complete.status.err = s.status.err := by
  obtain ⟨-, -, herr, -⟩ := effectOf_frame i s
  exact herr

/-- The perform step on a block with DONE = ERR = 0 sets exactly one of the two (R172, R173). -/
theorem perform_done_iff {s t : State} (h : perform s = .next t) (hdone : s.status.done = false)
    (herr : s.status.err = false) : t.status.done = true ↔ t.status.err = false := by
  obtain ⟨e, rfl, -⟩ | ⟨i, -, -, rfl⟩ := perform_next_cases h
  · simp [hdone]
  · rw [complete_effectOf_err]
    simp [herr]

/-- Of all effects BLOAD's alone changes STATUS: it establishes the header (R34). -/
theorem effectOf_status (i : Instr) (s : State) :
    (i = .bload ∧ (effectOf i s).status = s.status.establishHeader) ∨ (effectOf i s).status = s.status := by
  cases i with
  | bload => exact .inl ⟨rfl, State.setBlock_status ..⟩
  | enc | dec | mkset | mkclr | pixF _ | pixG _ => exact .inr (State.setResult_status ..)
  | rload _ | rclr _ => exact .inr (State.setSlot_status ..)
  | rstore _ | bstore | remapF _ | remapG _ => exact .inr (State.setMem_status ..)

/-! ## One step -/

/-- All one step can be, where it answers a next state: the engine's, a wait, or the next action from outside. -/
theorem step_next_cases {s t : State} (h : step s = .next t) :
    (s.engineMoves = true ∧ perform s = .next t) ∨ t = s ∨
    ∃ a rest, ActsNext s a rest ∧ hostStep a { s with pending := rest } = .next t := by
  obtain ⟨hm, hstep⟩ | ⟨-, -, hstep⟩ | ⟨hm, ⟨e, a⟩, rest, hp, hstep⟩ := step_cases s <;> rw [hstep] at h
  · exact .inl ⟨hm, h⟩
  · exact .inr (.inl (Host.Outcome.next.inj h).symm)
  · exact .inr (.inr ⟨a, rest, ⟨hm, e, hp⟩, h⟩)

theorem step_of_engineMoves {s : State} (h : s.engineMoves = true) : step s = perform s := if_pos h

theorem step_of_actsNext {s : State} {a : HostAction} {rest : List HostInput} (h : ActsNext s a rest) :
    step s = hostStep a { s with pending := rest } := by
  obtain ⟨hm, e, hp⟩ := h
  simp [step, hm, outsideStep, hp]

theorem busy_of_engineMoves {s : State} (h : s.engineMoves = true) : s.status.busy = true :=
  (Bool.and_eq_true _ _ ▸ h : _ ∧ _).1

theorem engineMoves_eq_true {s : State} (hb : s.status.busy = true)
    (hp : ∀ a rest, s.pending = a :: rest → a.early = false) : s.engineMoves = true := by
  unfold State.engineMoves
  rw [hb]
  split
  · rfl
  · next a rest h => simp [hp a rest h]

/-! ## One host read -/

/-- A read that draws a free value finds BUSY = 1 (R57). -/
theorem hostRead_draws (s : State) (r : Reg) : (s.hostRead r).draws = s.draws ∨ s.status.busy = true := by
  unfold State.hostRead
  split
  · next h => exact .inr (Bool.and_eq_true _ _ ▸ h : _ ∧ _).1
  · exact .inl rfl

/-- A register that is not reserved stands at its own offset alone (R21, R31). -/
theorem eq_offset_of_regAt {o : BitVec 12} (ho : o.toNat % 4 = 0) {r : Reg} (h : regAt o = r) (hr : r ≠ .reserved) :
    o = BitVec.ofNat 12 r.offset := by
  rw [← h, offset_regAt o ho (h ▸ hr), BitVec.ofNat_toNat, BitVec.setWidth_eq]

/-! ## One host write -/

/-- A CMD write of a block that is busy or has an error pending (R51). -/
theorem writeCmd_dropped {s : State} (h : s.status.busy = true ∨ s.status.err = true) (v : Word) :
    s.writeCmd v = s.dropWrite := by
  obtain h | h := h <;> simp [State.writeCmd, h]

/-- A CMD write of an idle block without an error (R51). -/
theorem writeCmd_accepted {s : State} (hb : s.status.busy = false) (he : s.status.err = false) (v : Word) :
    s.writeCmd v = s.acceptCommand v := by
  simp [State.writeCmd, hb, he]

theorem hostStep_writeCmd (v : Word) (s : State) : hostStep (.writeReg 0x000 .word v) s = .next (s.writeCmd v) :=
  hostStep_writeReg (o := 0x000) (by decide) v s

/-- All a host write of a register can do (R51 to R56, R59). -/
theorem hostWrite_cases (s : State) (r : Reg) (v : Word) :
    s.hostWrite r v = s.dropWrite ∨ s.hostWrite r v = s ∨ (r = .status ∧ s.hostWrite r v = s.writeStatus v) ∨
    (s.status.busy = false ∧ s.status.err = false ∧ s.hostWrite r v = s.acceptCommand v) ∨
    (s.status.busy = false ∧ s.hostWrite r v = s.writeIdle v r) := by
  by_cases hs : r = .status
  · subst hs
    exact .inr (.inr (.inl ⟨rfl, rfl⟩))
  by_cases hc : r = .cmd
  · subst hc
    by_cases hdrop : s.status.busy = true ∨ s.status.err = true
    · exact .inl (writeCmd_dropped hdrop v)
    · obtain ⟨hb, he⟩ : s.status.busy = false ∧ s.status.err = false := by simpa using hdrop
      exact .inr (.inr (.inr (.inl ⟨hb, he, writeCmd_accepted hb he v⟩)))
  cases hb : s.status.busy with
  | false => exact .inr (.inr (.inr (.inr ⟨rfl, hostWrite_idle hb hc hs v⟩)))
  | true =>
    by_cases hr : r = .reserved
    · subst hr
      exact .inr (.inl rfl)
    · exact .inl (hostWrite_dropped hb hc hs hr v)

/-- A write of an idle block's register changes STATUS only at HDR, which then holds the written value (R54). -/
theorem writeIdle_status (s : State) (v : Word) (r : Reg) :
    (s.writeIdle v r).status = s.status ∨
    (r = .hdr ∧ (s.writeIdle v r).status = s.status.establishHeader ∧ (s.writeIdle v r).hdr = v) := by
  cases r with
  | hdr => exact .inr ⟨rfl, rfl, rfl⟩
  | _ => exact .inl rfl

/-- It keeps ERRADDR, memory and the windows (R53 to R55, R59). -/
theorem writeIdle_frame (s : State) (v : Word) (r : Reg) :
    (s.writeIdle v r).errAddr = s.errAddr ∧ (s.writeIdle v r).mem = s.mem ∧
      (s.writeIdle v r).unobserved = s.unobserved := by
  cases r <;> exact ⟨rfl, rfl, rfl⟩

/-- A written STATUS with bit 2 clear keeps ERR and ERRCODE (R52). -/
theorem Status.hostWrite_keeps_error {v : Word} (hv : v.getLsbD 2 = false) (t : Status) :
    (t.hostWrite v).err = t.err ∧ (t.hostWrite v).errCode = t.errCode := by
  rw [Status.hostWrite_err, Status.hostWrite_errCode, hv]
  exact ⟨Bool.and_true _, rfl⟩

/-- A written STATUS with bit 2 set clears ERR and ERRCODE (R52). -/
theorem Status.hostWrite_clears_error {v : Word} (hv : v.getLsbD 2 = true) (t : Status) :
    (t.hostWrite v).err = false ∧ (t.hostWrite v).errCode = 0 := by
  rw [Status.hostWrite_err, Status.hostWrite_errCode, hv]
  exact ⟨Bool.and_false _, rfl⟩

/-- `t` is idle with the pending error of `s` (R182). -/
def ErrorStands (s t : State) : Prop :=
  t.status.err = true ∧ t.status.errCode = s.status.errCode ∧ t.errAddr = s.errAddr ∧ t.status.busy = false

/-- Of all host writes only that of STATUS, with bit 2 set, ends a pending error, and it keeps ERRADDR (R52, R182). -/
theorem hostWrite_error {s : State} (he : s.status.err = true) (hb : s.status.busy = false) (r : Reg) (v : Word) :
    ErrorStands s (s.hostWrite r v) ∨ (r = .status ∧ v.getLsbD 2 = true ∧ (s.hostWrite r v).status.err = false ∧
      (s.hostWrite r v).status.errCode = 0 ∧ (s.hostWrite r v).errAddr = s.errAddr) := by
  obtain h | h | ⟨hr, h⟩ | ⟨-, hclear, -⟩ | ⟨-, h⟩ := hostWrite_cases s r v
  · exact .inl (by rw [h]; exact ⟨he, rfl, rfl, hb⟩)
  · exact .inl (by rw [h]; exact ⟨he, rfl, rfl, hb⟩)
  · rw [h]
    cases hv : v.getLsbD 2 with
    | false =>
      obtain ⟨herr, hcode⟩ := Status.hostWrite_keeps_error hv s.status
      exact .inl ⟨herr.trans he, hcode, rfl, hb⟩
    | true =>
      obtain ⟨herr, hcode⟩ := Status.hostWrite_clears_error hv s.status
      exact .inr ⟨hr, rfl, herr, hcode, rfl⟩
  · exact absurd hclear (by simp [he])
  · have haddr := (writeIdle_frame s v r).1
    obtain hst | ⟨-, hst, -⟩ := writeIdle_status s v r <;> exact .inl (by simp [ErrorStands, h, hst, haddr, he, hb])

/-- HDRV is set by an accepted write of HDR alone, and cleared by no host write (R34). -/
theorem hostWrite_hdrv (s : State) (r : Reg) (v : Word) :
    (s.hostWrite r v).status.hdrv = s.status.hdrv ∨
    (s.status.busy = false ∧ r = .hdr ∧ (s.hostWrite r v).status.hdrv = true ∧ (s.hostWrite r v).hdr = v) := by
  obtain h | h | ⟨-, h⟩ | ⟨-, -, h⟩ | ⟨hb, h⟩ := hostWrite_cases s r v <;> rw [h]
  · exact .inl rfl
  · exact .inl rfl
  · exact .inl rfl
  · exact .inl rfl
  · obtain hst | ⟨hr, hst, hhdr⟩ := writeIdle_status s v r <;> rw [hst]
    · exact .inl rfl
    · exact .inr ⟨hb, hr, rfl, hhdr⟩

/-- No host write closes a window of exclusive use (R196). -/
theorem mem_unobserved_hostWrite {s : State} {f : Footprint} (hf : f ∈ s.unobserved) (r : Reg) (v : Word) :
    f ∈ (s.hostWrite r v).unobserved := by
  obtain h | h | ⟨-, h⟩ | ⟨-, -, h⟩ | ⟨-, h⟩ := hostWrite_cases s r v <;> rw [h]
  · exact hf
  · exact hf
  · exact hf
  · exact List.mem_cons_of_mem _ hf
  · rwa [(writeIdle_frame s v r).2.2]

/-! ## Exclusive use -/

theorem exclusive_eq_true {s : State} {a : Word} : s.exclusive a = true ↔ ∃ f ∈ s.unobserved, a.toNat ∈ f.bytes := by
  simp [State.exclusive]

theorem exclusive_eq_false {s : State} {a : Word} :
    s.exclusive a = false ↔ ∀ f ∈ s.unobserved, a.toNat ∉ f.bytes := by
  simp [State.exclusive]

/-! ## A busy block -/

/-- All that one action from outside other than reset does while BUSY = 1: to flags other than BUSY and HDRV, to the
value last returned and the count of draws, and to a byte of memory in no window (R51, R52, R56, R57, R196). -/
theorem hostStep_busy {a : HostAction} {s t : State} (hb : s.status.busy = true) (h : hostStep a s = .next t) :
    a = .reset ∨ ∃ st m d n, t = { s with status := st, mem := m, readData := d, draws := n } ∧
      st.busy = true ∧ st.hdrv = s.status.hdrv ∧
      (m = s.mem ∨ ∃ (x : Word) (v : Byte), s.exclusive x = false ∧ m = Memory.write s.mem x.toNat v) := by
  obtain ⟨o, -, -, rfl⟩ | ⟨o, v, -, -, rfl⟩ | ⟨x, -, -, rfl⟩ | ⟨x, v, -, hx, rfl⟩ | ⟨d, -, hidle, -⟩ | ⟨rfl, -⟩ :=
    hostStep_cases h
  · obtain ⟨d, u, n, hread, rfl | ⟨hidle, -⟩⟩ := hostRead_cases s (regAt o)
    · exact .inr ⟨s.status, s.mem, d, n, hread, hb, rfl, .inl rfl⟩
    · exact absurd hidle (by simp [hb])
  · right
    obtain h | h | h := hostWrite_busy hb (regAt o) v <;> rw [h]
    · exact ⟨s.status.overrun, s.mem, s.readData, s.draws, rfl, hb, rfl, .inl rfl⟩
    · exact ⟨s.status.hostWrite v, s.mem, s.readData, s.draws, rfl, hb, rfl, .inl rfl⟩
    · exact ⟨s.status, s.mem, s.readData, s.draws, rfl, hb, rfl, .inl rfl⟩
  · exact .inr ⟨s.status, s.mem, _, s.draws, rfl, hb, rfl, .inl rfl⟩
  · exact .inr ⟨s.status, _, s.readData, s.draws, rfl, hb, rfl, .inr ⟨x, v, hx, rfl⟩⟩
  · exact absurd hidle (by simp [hb])
  · exact .inl rfl

/-- An access that the spec gives a meaning is answered (R50, R72). -/
theorem exists_hostStep_of_isPlainAccess {s : State} {a : HostAction} (h : IsPlainAccess s a) :
    a ≠ .reset ∧ ∃ t, hostStep a s = .next t := by
  cases a with
  | readReg o w =>
    obtain ⟨rfl, ho⟩ := h
    exact ⟨nofun, _, hostStep_readReg ho s⟩
  | writeReg o w v =>
    obtain ⟨rfl, ho⟩ := h
    exact ⟨nofun, _, hostStep_writeReg ho v s⟩
  | readMem x => exact ⟨nofun, _, by rw [hostStep, exclusive_eq_false.mpr h]; rfl⟩
  | writeMem x v => exact ⟨nofun, _, by rw [hostStep, exclusive_eq_false.mpr h]; rfl⟩
  | setAdmission d => exact h.elim
  | reset => exact h.elim

/-- What an access may touch depends on the windows alone. -/
theorem isPlainAccess_congr {s t : State} (h : t.unobserved = s.unobserved) (a : HostAction) :
    IsPlainAccess t a ↔ IsPlainAccess s a := by
  cases a <;> simp only [IsPlainAccess, h]

/-- An early access of a busy block is answered and leaves it busy, with the windows it had (R57, R196). -/
theorem exists_step_of_earlyAccess {s : State} (hb : s.status.busy = true) {a : HostInput} {rest : List HostInput}
    (hp : s.pending = a :: rest) (hearly : a.early = true) (h : IsPlainAccess s a.action) :
    ∃ t, step s = .next t ∧ t.status.busy = true ∧ t.pending = rest ∧ t.unobserved = s.unobserved := by
  have hacts : ActsNext s a.action rest := ⟨by simp [State.engineMoves, hp, hearly], a.early, hp⟩
  obtain ⟨hreset, t, ht⟩ := exists_hostStep_of_isPlainAccess (s := { s with pending := rest }) h
  obtain ⟨st, m, d, n, rfl, hbusy, -⟩ := (hostStep_busy (s := { s with pending := rest }) hb ht).resolve_left hreset
  exact ⟨_, (step_of_actsNext hacts).trans ht, hbusy, rfl, rfl⟩

/-- Where the engine moves, one step ends the command (R171, R198). -/
theorem exists_run_of_engineMoves {s : State} (h : s.engineMoves = true) :
    ∃ t, Runs 1 s t ∧ t.status.busy = false ∧ t.pending = s.pending := by
  obtain ⟨t, ht⟩ := exists_perform s
  obtain ⟨hidle, hpending, -⟩ := perform_frame ht
  exact ⟨t, runs_succ ((step_of_engineMoves h).trans ht) (runs_zero t), hidle, hpending⟩

/-- The engine performs the command after exactly the early accesses (R171, R198). -/
theorem exists_run_of_accepted {s : State} (hb : s.status.busy = true)
    (h : ∀ a ∈ s.pending.takeWhile (·.early), IsPlainAccess s a.action) :
    ∃ t, Runs ((s.pending.takeWhile (·.early)).length + 1) s t ∧ t.status.busy = false ∧
      t.pending = s.pending.drop (s.pending.takeWhile (·.early)).length := by
  generalize hp : s.pending = ps at h
  induction ps generalizing s with
  | nil =>
    have hm : s.engineMoves = true := by simp [State.engineMoves, hb, hp]
    have hrun := exists_run_of_engineMoves hm
    rw [hp] at hrun
    exact hrun
  | cons a ps ih =>
    cases hearly : a.early with
    | false =>
      have hm : s.engineMoves = true := by simp [State.engineMoves, hb, hp, hearly]
      have hrun := exists_run_of_engineMoves hm
      rw [hp] at hrun
      rw [List.takeWhile_cons_of_neg (by simp [hearly])]
      exact hrun
    | true =>
      rw [List.takeWhile_cons_of_pos hearly] at h ⊢
      obtain ⟨t, hstep, hbusy, hpending, hwindows⟩ :=
        exists_step_of_earlyAccess hb hp hearly (h a List.mem_cons_self)
      obtain ⟨u, hrun, hend⟩ := ih hbusy hpending fun b hmem =>
        (isPlainAccess_congr hwindows b.action).mpr (h b (List.mem_cons_of_mem a hmem))
      exact ⟨u, runs_succ hstep hrun, hend⟩

/-! ## The header flag -/

/-- The two ways a step from `s` to `t` establishes a header: a BLOAD that completes, and an accepted write of HDR
(R34). -/
def EstablishesHeader (s t : State) : Prop :=
  (s.engineMoves = true ∧ decode s.cmdLatch = .ok .bload ∧ t.status.done = true) ∨
  (s.status.busy = false ∧ ∃ rest w v, ActsNext s (.writeReg 0x020 w v) rest ∧ t.hdr = v)

/-- All one step can do to HDRV: keep it, establish a header, or be the reset input (R34). -/
theorem step_hdrv {s t : State} (h : step s = .next t) :
    t.status.hdrv = s.status.hdrv ∨ (t.status.hdrv = true ∧ EstablishesHeader s t) ∨
    (t.status.hdrv = false ∧ ∃ rest, ActsNext s .reset rest) := by
  obtain ⟨hm, h⟩ | rfl | ⟨a, rest, hacts, h⟩ := step_next_cases h
  · obtain ⟨e, rfl, -⟩ | ⟨i, hd, -, rfl⟩ := perform_next_cases h
    · exact .inl rfl
    · obtain ⟨rfl, -⟩ | hst := effectOf_status i s
      · exact .inr (.inl ⟨rfl, .inl ⟨hm, hd, rfl⟩⟩)
      · exact .inl (by rw [State.complete_status, Status.finishDone_hdrv, hst])
  · exact .inl rfl
  obtain ⟨o, -, -, rfl⟩ | ⟨o, v, rfl, ho, rfl⟩ | ⟨x, -, -, rfl⟩ | ⟨x, v, -, -, rfl⟩ | ⟨d, -, -, rfl⟩ | ⟨rfl, rfl⟩ :=
    hostStep_cases h
  · obtain ⟨d, u, n, hread, -⟩ := hostRead_cases { s with pending := rest } (regAt o)
    exact .inl (by rw [hread])
  · obtain hkept | ⟨hb, hr, hset, hhdr⟩ := hostWrite_hdrv { s with pending := rest } (regAt o) v
    · exact .inl hkept
    · obtain rfl := eq_offset_of_regAt ho hr nofun
      exact .inr (.inl ⟨hset, .inr ⟨hb, rest, .word, v, hacts, hhdr⟩⟩)
  · exact .inl rfl
  · exact .inl rfl
  · exact .inl rfl
  · exact .inr (.inr ⟨rfl, rest, hacts⟩)

/-! ## A reset with a command in flight -/

theorem interruptedMemory_of_command {s : State} {i : Instr} (h : decode s.cmdLatch = .ok i) :
    s.interruptedMemory =
      Memory.replay s.mem ((s.portWrites i).filter fun w => Config.resetTakesNew s.draws w.1) := by
  rw [State.interruptedMemory, h]

theorem interruptedMemory_of_illegal {s : State} {e : DecodeError} (h : decode s.cmdLatch = .error e) :
    s.interruptedMemory = s.mem := by
  rw [State.interruptedMemory, h]

/-- A byte has its new value where the free value says so, and else its old one (R191). -/
theorem read_interruptedMemory {s t : State} (h : perform s = .next t) (a : Nat) :
    Memory.read s.interruptedMemory a = Memory.read s.mem a ∨
      Memory.read s.interruptedMemory a = Memory.read t.mem a := by
  cases hd : decode s.cmdLatch with
  | error e => exact .inl (by rw [interruptedMemory_of_illegal hd])
  | ok i =>
    rw [perform_eq_exec hd] at h
    rw [interruptedMemory_of_command hd, mem_of_exec h]
    cases hnew : Config.resetTakesNew s.draws a with
    | true => exact .inr (Memory.read_replay_filter hnew _ rfl)
    | false =>
      refine .inl (Memory.read_replay_other (fun w hw e => ?_) s.mem)
      have := (List.mem_filter.mp hw).2
      simp [e, hnew] at this

/-- A byte that the command would not have written keeps its value (R191). -/
theorem read_interruptedMemory_other {s : State} {a : Nat}
    (h : ∀ i, decode s.cmdLatch = .ok i → a ∉ (s.portWrites i).map Prod.fst) :
    Memory.read s.interruptedMemory a = Memory.read s.mem a := by
  cases hd : decode s.cmdLatch with
  | error e => rw [interruptedMemory_of_illegal hd]
  | ok i =>
    rw [interruptedMemory_of_command hd]
    exact Memory.read_replay_other
      (fun w hw e => h i hd (List.mem_map.mpr ⟨w, (List.mem_filter.mp hw).1, e⟩)) s.mem

end Sys2Proof.Machine
end

section
/-! PROOFS. The obligations about the step and the rules of the whole machine. -/

namespace Sys2Proof.Proofs

open Sys2Proof.Machine Sys2Proof.Statement

/-- Settles O5: the engine performs the decoded latched word, and a loaded word stands in CMDLATCH with BUSY = 1 and no
early action to come. -/
theorem stepRunsTheLatchedCommand : Obligations.StepRunsTheLatchedCommand := by
  have engine : ∀ (s : State) (i : Instr), s.engineMoves = true → decode s.cmdLatch = .ok i → step s = exec i s :=
    fun s i hm hd => (step_of_engineMoves hm).trans (perform_eq_exec hd)
  refine ⟨engine, fun s i => ⟨?_, rfl, rfl, rfl, rfl⟩⟩
  have hword : s.withFetchWord 32 (encode i).toNat = s.loadCommand (encode i) := by
    rw [State.withFetchWord, Nat.mod_eq_of_lt (encode i).isLt, BitVec.ofNat_toNat, BitVec.setWidth_eq]
  have hmoves : (s.loadCommand (encode i)).engineMoves = true := by
    refine engineMoves_eq_true rfl fun a rest hp => ?_
    change holdBack s.pending = a :: rest at hp
    cases hps : s.pending with
    | nil => simp [hps, holdBack] at hp
    | cons b ps =>
      rw [hps, holdBack, List.cons.injEq] at hp
      rw [← hp.1]
  rw [hword]
  exact engine _ i hmoves (decode_encode i)

/-- Settles O6, by who takes the step. -/
theorem outsideActsInOrder : Obligations.OutsideActsInOrder :=
  ⟨fun _ _ _ => step_of_actsNext, fun s hb hp => by simp [step, State.engineMoves, hb, outsideStep, hp]⟩

/-- Settles O7, by the two ends of the perform step: the raised error and the completion. -/
theorem performEndsTheCommand : Obligations.PerformEndsTheCommand := by
  intro s hm hdone herr
  obtain ⟨t, ht⟩ := exists_perform s
  exact ⟨t, (step_of_engineMoves hm).trans ht, (perform_frame ht).1, perform_done_iff ht hdone herr⟩

/-- Settles O8, by induction on the actions to come: each early one is answered and leaves the block busy. -/
theorem acceptedCommandFinishes : Obligations.AcceptedCommandFinishes :=
  fun _ hb h => exists_run_of_accepted hb h

/-- Settles O33: the engine of an idle block does not move, and of what the outside world can do only the write of
STATUS and the reset input reach ERR, ERRCODE or ERRADDR. -/
theorem errorStaysUntilCleared : Obligations.ErrorStaysUntilCleared := by
  constructor
  · intro s t herr hb h
    obtain ⟨hm, -⟩ | rfl | ⟨a, rest, hacts, h⟩ := step_next_cases h
    · exact absurd (busy_of_engineMoves hm) (by simp [hb])
    · exact .inl ⟨herr, rfl, rfl, hb⟩
    obtain ⟨o, -, -, rfl⟩ | ⟨o, v, rfl, ho, rfl⟩ | ⟨x, -, -, rfl⟩ | ⟨x, v, -, -, rfl⟩ | ⟨d, -, -, rfl⟩ | ⟨rfl, -⟩ :=
      hostStep_cases h
    · obtain ⟨d, u, n, hread, -⟩ := hostRead_cases { s with pending := rest } (regAt o)
      rw [hread]
      exact .inl ⟨herr, rfl, rfl, hb⟩
    · obtain hstands | ⟨hr, hv, hclear⟩ := hostWrite_error (s := { s with pending := rest }) herr hb (regAt o) v
      · exact .inl hstands
      · obtain rfl := eq_offset_of_regAt ho hr nofun
        exact .inr (.inl ⟨rest, .word, v, hacts, hv, hclear⟩)
    · exact .inl ⟨herr, rfl, rfl, hb⟩
    · exact .inl ⟨herr, rfl, rfl, hb⟩
    · exact .inl ⟨herr, rfl, rfl, hb⟩
    · exact .inr (.inr ⟨rest, hacts⟩)
  · intro s v herr
    rw [hostStep_writeCmd, writeCmd_dropped (.inr herr)]
    rfl

/-- Settles O49: an access finds its byte in a window or in none, and only a read of STATUS takes windows away. -/
theorem footprintIsExclusive : Obligations.FootprintIsExclusive := by
  refine ⟨fun s f a v hf ha => ?_, fun s t h => ?_, fun s a v h => ?_⟩
  · have hx : s.exclusive a = true := exclusive_eq_true.mpr ⟨f, hf, ha⟩
    exact ⟨if_pos hx, if_pos hx⟩
  · obtain ⟨-, h⟩ | rfl | ⟨a, rest, hacts, h⟩ := step_next_cases h
    · exact .inl fun f hf => by rwa [(perform_frame h).2.2]
    · exact .inl fun _ hf => hf
    obtain ⟨o, rfl, ho, rfl⟩ | ⟨o, v, -, -, rfl⟩ | ⟨x, -, -, rfl⟩ | ⟨x, v, -, -, rfl⟩ | ⟨d, -, -, rfl⟩ | ⟨-, rfl⟩ :=
      hostStep_cases h
    · obtain ⟨d, u, n, hread, rfl | ⟨hb, hr, -⟩⟩ := hostRead_cases { s with pending := rest } (regAt o)
      · exact .inl fun _ hf => by rwa [hread]
      · obtain rfl := eq_offset_of_regAt ho hr nofun
        exact .inr ⟨hb, rest, .word, hacts⟩
    · exact .inl fun _ hf => mem_unobserved_hostWrite (s := { s with pending := rest }) hf (regAt o) v
    · exact .inl fun _ hf => hf
    · exact .inl fun _ hf => hf
    · exact .inl fun _ hf => hf
    · exact .inl fun _ hf => hf
  · have hx : s.exclusive a = false := exclusive_eq_false.mpr h
    refine ⟨?_, Memory.write s.mem a.toNat v, ?_, by simp, fun b hb => by simp [hb]⟩
    · rw [hostStep, hx, BitVec.ofNat_toNat]
      rfl
    · rw [hostStep, hx]
      rfl

/-- Settles O50: a busy block lets the outside world reach flags, the value returned and memory outside every window,
and the footprint of the command in flight is a window. -/
theorem operandsStandWhileBusy : Obligations.OperandsStandWhileBusy := by
  refine ⟨fun s t hb hm h => ?_, fun s d => ⟨fun hb => if_pos hb, fun hb => if_neg (by simp [hb])⟩⟩
  obtain ⟨hm', -⟩ | rfl | ⟨a, rest, hacts, h⟩ := step_next_cases h
  · exact absurd hm' (by simp [hm])
  · exact .inr ⟨rfl, rfl, rfl, rfl, rfl, rfl, rfl, rfl, rfl, rfl, rfl, hb, rfl, fun _ _ _ => rfl⟩
  obtain rfl | ⟨st, m, d, n, rfl, hbusy, hhdrv, hm⟩ := hostStep_busy (s := { s with pending := rest }) hb h
  · exact .inl ⟨rest, hacts⟩
  refine .inr ⟨rfl, rfl, rfl, rfl, rfl, rfl, rfl, hhdrv, rfl, rfl, rfl, hbusy, rfl, fun hinv b hb' => ?_⟩
  obtain rfl | ⟨x, v, hx, rfl⟩ := hm
  · rfl
  · have hne : b ≠ x.toNat := fun e => exclusive_eq_false.mp hx _ (hinv.exclusive hb) (e ▸ hb')
    simp [hne]

/-- Settles O52, by all a step can do to the flag. -/
theorem headerFlagChanges : Obligations.HeaderFlagChanges := by
  intro s t h
  obtain hkept | ⟨hset, hways⟩ | ⟨hclear, hreset⟩ := step_hdrv h
  · rw [hkept]
    exact ⟨fun h1 h0 => absurd h1 (by simp [h0]), fun h0 h1 => absurd h1 (by simp [h0])⟩
  · exact ⟨fun _ h0 => absurd hset (by simp [h0]), fun _ _ => hways⟩
  · exact ⟨fun _ _ => hreset, fun _ h1 => absurd h1 (by simp [hclear])⟩

/-- Settles O54: an idle block's reset input takes no free value. -/
theorem resetWhileIdle : Obligations.ResetWhileIdle := by
  intro s hb
  simp [hostStep, State.resetInput, hb]

/-- Settles O55: a write of the abandoned command takes effect or does not, by its address, and no other byte is
written. -/
theorem resetWhileBusy : Obligations.ResetWhileBusy := by
  intro s hb
  exact ⟨s.interruptedMemory, by simp [hostStep, State.resetInput, hb], fun _ ht => read_interruptedMemory ht,
    fun _ => read_interruptedMemory_other⟩

end Sys2Proof.Proofs
end

section
/-! PROOFS. The invariant of Safety: what each operation of the block and of its surroundings keeps of it. -/

namespace Sys2Proof.Safety

open Sys2Proof.Machine Sys2Proof.Statement

/-! ## STATUS -/

theorem errorCode_bits_legal (c : ErrorCode) : 1 ≤ c.bits.toNat ∧ c.bits.toNat ≤ 5 := by
  cases c <;> decide

namespace StatusLegal

variable {t : Status}

theorem reset : StatusLegal State.reset.status :=
  ⟨by decide, nofun, fun _ => rfl, nofun⟩

theorem overrun (h : StatusLegal t) : StatusLegal t.overrun :=
  ⟨h.oneEnd, h.busyClear, h.codeClear, h.codeLegal⟩

theorem establishHeader (h : StatusLegal t) : StatusLegal t.establishHeader :=
  ⟨h.oneEnd, h.busyClear, h.codeClear, h.codeLegal⟩

theorem accept (h : StatusLegal t) (he : t.err = false) : StatusLegal t.accept :=
  ⟨by simp, fun _ => ⟨rfl, he⟩, h.codeClear, h.codeLegal⟩

theorem finishDone (h : StatusLegal t) (hb : t.busy = true) : StatusLegal t.finishDone :=
  ⟨by simp [(h.busyClear hb).2], nofun, h.codeClear, h.codeLegal⟩

theorem finishError (h : StatusLegal t) (hb : t.busy = true) (c : ErrorCode) : StatusLegal (t.finishError c) :=
  ⟨by simp [(h.busyClear hb).1], nofun, nofun, fun _ => errorCode_bits_legal c⟩

/-- The host's write clears flags alone, and ERRCODE exactly with ERR (R52). -/
theorem hostWrite (h : StatusLegal t) (v : Word) : StatusLegal (t.hostWrite v) := by
  obtain ⟨hone, hbusy, hclear, hlegal⟩ := h
  refine ⟨?_, fun hb => ?_, ?_, ?_⟩
  · simp only [Status.hostWrite_done, Status.hostWrite_err, Bool.and_eq_true]
    exact fun ⟨hd, he⟩ => hone ⟨hd.1, he.1⟩
  · obtain ⟨hd, he⟩ := hbusy hb
    simp [hd, he]
  · cases hv : v.getLsbD 2 with
    | false =>
      obtain ⟨he, hc⟩ := Status.hostWrite_keeps_error hv t
      rwa [he, hc]
    | true => exact fun _ => (Status.hostWrite_clears_error hv t).2
  · cases hv : v.getLsbD 2 with
    | false =>
      obtain ⟨he, hc⟩ := Status.hostWrite_keeps_error hv t
      rwa [he, hc]
    | true => exact fun he => absurd ((Status.hostWrite_clears_error hv t).1.symm.trans he) nofun

/-- The effect of a command keeps STATUS legal: it changes HDRV at most. -/
theorem effectOf {s : State} (h : StatusLegal s.status) (i : Instr) : StatusLegal (effectOf i s).status := by
  obtain ⟨-, hst⟩ | hst := effectOf_status i s <;> rw [hst]
  · exact h.establishHeader
  · exact h

end StatusLegal

/-! ## The state -/

/-- No field of a footprint is written but by writes of the operand registers (R65). -/
theorem footprintOfWord_congr {s t : State} (ha : t.addr = s.addr) (hw : t.width = s.width) (hh : t.height = s.height)
    (hs : t.stride = s.stride) (v : Word) : t.footprintOfWord v = s.footprintOfWord v := by
  unfold State.footprintOfWord
  cases decode v with
  | error e => rfl
  | ok i =>
    simp only [State.footprint, State.recordFootprint, State.blockFootprint, State.rasterFootprint, ha, hw, hh, hs]

namespace Inv

variable {s t : State}

/-- What the invariant says of an idle state: nothing of a footprint. -/
theorem of_idle (hst : StatusLegal t.status) (haddr : t.status.err = true → t.status.errCode ≠ 4 → t.errAddr = 0)
    (hmem : Memory.wf t.mem) (hidle : t.status.busy = false) : Inv t :=
  ⟨hst, haddr, hmem, fun hb => absurd hb (by simp [hidle])⟩

/-- The memory a completed command leaves is in canonical form: it writes inside the address space alone (R60, R66). -/
theorem wf_effectOf (h : Memory.wf s.mem) {i : Instr} (hnone : s.commandError i = none) :
    Memory.wf (effectOf i s).complete.mem := by
  rw [mem_of_exec (exec_done hnone)]
  exact Memory.wf_replay h (portWrites_le_topAddress i s)

/-- The engine's step: an error carries an address with BUS alone, and a completion finds no error (R35, R51). -/
theorem perform (h : Inv s) (hb : s.status.busy = true) (hp : perform s = .next t) : Inv t := by
  obtain ⟨e, rfl, haddr⟩ | ⟨i, -, hnone, rfl⟩ := perform_next_cases hp
  · exact of_idle (h.status.finishError hb e.code) (fun _ => haddr) h.memory rfl
  · obtain ⟨hbusy, -⟩ := effectOf_frame i s
    have herr : (effectOf i s).complete.status.err = false :=
      (complete_effectOf_err i s).trans (h.status.busyClear hb).2
    exact of_idle ((h.status.effectOf i).finishDone (hbusy.trans hb)) (fun he => absurd (herr.symm.trans he) nofun)
      (wf_effectOf h.memory hnone) rfl

/-- A host read changes neither STATUS nor a window of a busy block (R50, R196). -/
theorem hostRead (h : Inv s) (r : Reg) : Inv (s.hostRead r) := by
  obtain ⟨d, u, n, hread, rfl | ⟨hidle, -⟩⟩ := hostRead_cases s r <;> rw [hread]
  · exact ⟨h.status, h.errAddr, h.memory, h.exclusive⟩
  · exact of_idle h.status h.errAddr h.memory hidle

/-- A write of STATUS that leaves ERR leaves ERRCODE with it (R52). -/
theorem writeStatus (h : Inv s) (v : Word) : Inv (s.writeStatus v) := by
  refine ⟨h.status.hostWrite v, ?_, h.memory, h.exclusive⟩
  rw [State.writeStatus_status]
  cases hv : v.getLsbD 2 with
  | false =>
    obtain ⟨he, hc⟩ := Status.hostWrite_keeps_error hv s.status
    rw [he, hc]
    exact h.errAddr
  | true => exact fun he => absurd ((Status.hostWrite_clears_error hv s.status).1.symm.trans he) nofun

theorem writeIdle (h : Inv s) (hidle : s.status.busy = false) (v : Word) (r : Reg) : Inv (s.writeIdle v r) := by
  obtain ⟨haddr, hmem, -⟩ := writeIdle_frame s v r
  obtain hst | ⟨-, hst, -⟩ := writeIdle_status s v r
  · exact of_idle (hst ▸ h.status) (by rw [hst, haddr]; exact h.errAddr) (hmem ▸ h.memory) (hst ▸ hidle)
  · exact of_idle (hst ▸ h.status.establishHeader) (by rw [hst, haddr]; exact h.errAddr) (hmem ▸ h.memory)
      (hst ▸ hidle)

/-- Of all host writes the accepted CMD write alone makes a block busy, and it opens the window of its footprint (R51,
R196). -/
theorem hostWrite (h : Inv s) (r : Reg) (v : Word) : Inv (s.hostWrite r v) := by
  obtain hw | hw | ⟨-, hw⟩ | ⟨-, he, hw⟩ | ⟨hidle, hw⟩ := hostWrite_cases s r v <;> rw [hw]
  · exact ⟨h.status.overrun, h.errAddr, h.memory, h.exclusive⟩
  · exact h
  · exact h.writeStatus v
  · refine ⟨h.status.accept he, h.errAddr, h.memory, fun _ => ?_⟩
    exact List.mem_cons.mpr (.inl (footprintOfWord_congr rfl rfl rfl rfl v))
  · exact h.writeIdle hidle v r

theorem wf_interruptedMemory (h : Memory.wf s.mem) : Memory.wf s.interruptedMemory := by
  cases hd : decode s.cmdLatch with
  | error e => rwa [interruptedMemory_of_illegal hd]
  | ok i =>
    rw [interruptedMemory_of_command hd]
    exact Memory.wf_replay h fun w hw => portWrites_le_topAddress i s w (List.mem_filter.mp hw).1

/-- The reset state meets the invariant, and so it does with any memory in canonical form and any surroundings (R40). -/
theorem resetInput (h : Inv s) : Inv s.resetInput := by
  refine of_idle .reset nofun ?_ rfl
  unfold State.resetInput
  split
  · exact wf_interruptedMemory h.memory
  · exact h.memory

/-- What the outside world still has to do does not bear on the invariant. -/
theorem withPending (h : Inv s) (p : List HostInput) : Inv { s with pending := p } :=
  ⟨h.status, h.errAddr, h.memory, h.exclusive⟩

theorem hostStep (h : Inv s) {a : HostAction} (ht : hostStep a s = .next t) : Inv t := by
  obtain ⟨o, -, -, rfl⟩ | ⟨o, v, -, -, rfl⟩ | ⟨x, -, -, rfl⟩ | ⟨x, v, -, -, rfl⟩ | ⟨d, -, -, rfl⟩ | ⟨-, rfl⟩ :=
    hostStep_cases ht
  · exact h.hostRead (regAt o)
  · exact h.hostWrite (regAt o) v
  · exact ⟨h.status, h.errAddr, h.memory, h.exclusive⟩
  · have htop : x.toNat ≤ 0xFFFFFFFF := by omega
    exact ⟨h.status, h.errAddr, Memory.wf_write h.memory htop v, h.exclusive⟩
  · exact ⟨h.status, h.errAddr, h.memory, h.exclusive⟩
  · exact h.resetInput

theorem step (h : Inv s) (ht : step s = .next t) : Inv t := by
  obtain ⟨hm, hp⟩ | rfl | ⟨a, rest, -, ha⟩ := step_next_cases ht
  · exact h.perform (busy_of_engineMoves hm) hp
  · exact h
  · exact (h.withPending rest).hostStep ha

end Inv

end Sys2Proof.Safety
end

section
/-! PROOFS. The obligations about the invariant. -/

namespace Sys2Proof.Proofs

open Sys2Proof.Machine Sys2Proof.Statement

/-- Settles O57, by who takes the step: each of the engine and the outside world's actions keeps the invariant. -/
theorem stepKeepsInvariant : Obligations.StepKeepsInvariant :=
  fun _ _ h ht => h.step ht

/-- Settles O56: the reset state is idle, without an error, and its memory lists nothing. -/
theorem resetMeetsInvariant : Obligations.ResetMeetsInvariant :=
  .of_idle .reset nofun Memory.wf_nil rfl

end Sys2Proof.Proofs
end

section
/-! PROOFS. What a host read returns at each offset, and what a write of an idle block changes in it. -/

namespace Sys2Proof.Machine

open Sys2Proof.Statement

/-! ## Reads -/

/-- A read of an idle block, or of an exact register of a busy one, returns that register's value (R50, R57). -/
theorem readAt_eq {s : State} {offset : Nat} {r : Reg} (h4 : (BitVec.ofNat 12 offset).toNat % 4 = 0)
    (hr : regAt (BitVec.ofNat 12 offset) = r) (h : s.status.busy = false ∨ r.openWhileBusy = false) :
    readAt s offset = some (s.regValue r) := by
  rw [readAt, hostStep_readReg h4, hr]
  exact congrArg some (readData_hostRead h)

theorem readAt_reserved (s : State) {offset : Nat} (h : ReservedOffset offset) : readAt s offset = some 0 := by
  obtain ⟨h4, hr⟩ := regAt_of_reservedOffset h
  exact readAt_eq h4 hr (.inr rfl)

/-- An offset of the window that is a multiple of 4, as the bus carries it. -/
theorem toNat_offset {offset : Nat} (h : offset < 4096) : (BitVec.ofNat 12 offset).toNat = offset :=
  BitVec.toNat_ofNat offset 12 ▸ Nat.mod_eq_of_lt h

theorem offset_mod_four {offset : Nat} (h : offset < 4096) (h4 : offset % 4 = 0) :
    (BitVec.ofNat 12 offset).toNat % 4 = 0 := by
  rwa [toNat_offset h]

/-- The bits of a name word, little-endian (R32). -/
theorem nameWord_eq (n : Vector Byte 20) (j : Fin 5) :
    nameWord n j = BitVec.ofNat 32 ((n[4 * j.val]).toNat + 256 * (n[4 * j.val + 1]).toNat +
      65536 * (n[4 * j.val + 2]).toNat + 16777216 * (n[4 * j.val + 3]).toNat) := by
  apply BitVec.eq_of_toNat_eq
  rw [nameWord, wordOfBytes_toNat, BitVec.toNat_ofNat]
  omega

/-- A ramp entry, TSTART and TEND stand in 34 words without a gap (R31). -/
theorem exists_halfReg_of_recOffset {n i : Nat} (hn : n < 8) (hi : i < 34) :
    ∃ r : Reg, regAt (BitVec.ofNat 12 (0x400 + 0x100 * n + 4 * i)) = r ∧ r.openWhileBusy = true ∧
      r.usedBits = 0x0000FFFF := by
  obtain hi | rfl | rfl : i < 32 ∨ i = 32 ∨ i = 33 := by omega
  · exact ⟨_, regAt_ramp ⟨n, hn⟩ ⟨i, hi⟩, rfl, rfl⟩
  · exact ⟨_, regAt_tstart ⟨n, hn⟩, rfl, rfl⟩
  · exact ⟨_, regAt_tend ⟨n, hn⟩, rfl, rfl⟩

/-- A read that R57 leaves open returns some bits of those the register uses. -/
theorem readAt_open {s : State} (hb : s.status.busy = true) {offset : Nat} {r : Reg}
    (h4 : (BitVec.ofNat 12 offset).toNat % 4 = 0) (hr : regAt (BitVec.ofNat 12 offset) = r)
    (ho : r.openWhileBusy = true) : readAt s offset = some (Config.busyRead s.draws &&& r.usedBits) := by
  rw [readAt, hostStep_readReg h4, hr]
  simp [State.hostRead, hb, ho]

end Sys2Proof.Machine
end

section
/-! PROOFS. The obligations about host reads. -/

namespace Sys2Proof.Proofs

open Sys2Proof.Machine Sys2Proof.Statement

/-- Settles O38, by the register at each offset and its value as a number. -/
theorem registerMapReads : Obligations.RegisterMapReads := by
  intro s hb
  have reads : ∀ {offset : Nat} (r : Reg), offset < 4096 → offset % 4 = 0 → regAt (BitVec.ofNat 12 offset) = r →
      readAt s offset = some (s.regValue r) :=
    fun r hlt h4 hr => readAt_eq (offset_mod_four hlt h4) hr (.inl hb)
  refine ⟨reads .cmd (by decide) rfl rfl, ?_, reads .addr (by decide) rfl rfl, ?_, ?_, ?_,
    reads .opnd (by decide) rfl rfl, reads .result (by decide) rfl rfl, reads .hdr (by decide) rfl rfl,
    reads .errAddr (by decide) rfl rfl, fun n => ?_, fun _ => readAt_reserved s⟩
  · rw [reads .status (by decide) rfl rfl, State.regValue, toWord_eq, hb, Bool.toNat_false, Nat.zero_add]
  · rw [reads .width (by decide) rfl rfl, State.regValue, ← BitVec.ofNat_toNat]
  · rw [reads .height (by decide) rfl rfl, State.regValue, ← BitVec.ofNat_toNat]
  · rw [reads .stride (by decide) rfl rfl, State.regValue, ← BitVec.ofNat_toNat]
  refine ⟨fun i => ?_, ?_, ?_, fun j => ?_⟩
  · rw [reads _ (by omega) (by omega) (regAt_ramp n i), State.regValue, ← BitVec.ofNat_toNat]
    rfl
  · rw [reads _ (by omega) (by omega) (regAt_tstart n), State.regValue, ← BitVec.ofNat_toNat]
    rfl
  · rw [reads _ (by omega) (by omega) (regAt_tend n), State.regValue, ← BitVec.ofNat_toNat]
    rfl
  · rw [reads _ (by omega) (by omega) (regAt_name n j), State.regValue, nameWord_eq]
    rfl

/-- Settles O39, by the two forms of a host read: one that draws a free value and one that does not. -/
theorem hostReadHasNoSideEffect : Obligations.HostReadHasNoSideEffect := by
  intro s t offset h
  obtain ⟨ho, rfl⟩ : offset.toNat % 4 = 0 ∧ t = s.hostRead (regAt offset) := by
    obtain ⟨o, ha, ho, rfl⟩ | ⟨o, v, ha, -⟩ | ⟨x, ha, -⟩ | ⟨x, v, ha, -⟩ | ⟨d, ha, -⟩ | ⟨ha, -⟩ := hostStep_cases h
    · cases ha
      exact ⟨ho, rfl⟩
    all_goals contradiction
  have hdraws := hostRead_draws s (regAt offset)
  obtain ⟨d, u, n, hread, hu⟩ := hostRead_cases s (regAt offset)
  rw [hread] at hdraws ⊢
  exact ⟨rfl, hdraws, hu.imp_right fun ⟨hb, hr, hnil⟩ => ⟨eq_offset_of_regAt ho hr nofun, hb, hnil⟩⟩

/-- Settles O40: the registers that R57 leaves open are masked with the bits they use, and the others are exact. -/
theorem readsWhileBusy : Obligations.ReadsWhileBusy := by
  intro s hb
  have reads : ∀ {offset : Nat} (r : Reg), offset < 4096 → offset % 4 = 0 → regAt (BitVec.ofNat 12 offset) = r →
      r.openWhileBusy = false → readAt s offset = some (s.regValue r) :=
    fun r hlt h4 hr ho => readAt_eq (offset_mod_four hlt h4) hr (.inr ho)
  refine ⟨reads .cmd (by decide) rfl rfl rfl, reads .addr (by decide) rfl rfl rfl, ?_, ?_, ?_, ?_,
    reads .opnd (by decide) rfl rfl rfl, fun _ => readAt_reserved s, fun n hn i hi => ?_⟩
  · rw [reads .status (by decide) rfl rfl rfl, State.regValue, toWord_eq, hb, Bool.toNat_true]
  · rw [reads .width (by decide) rfl rfl rfl, State.regValue, ← BitVec.ofNat_toNat]
  · rw [reads .height (by decide) rfl rfl rfl, State.regValue, ← BitVec.ofNat_toNat]
  · rw [reads .stride (by decide) rfl rfl rfl, State.regValue, ← BitVec.ofNat_toNat]
  · obtain ⟨r, hr, ho, hbits⟩ := exists_halfReg_of_recOffset hn hi
    refine ⟨_, readAt_open hb (offset_mod_four (by omega) (by omega)) hr ho, ?_⟩
    rw [hbits, BitVec.toNat_and]
    exact Nat.lt_of_le_of_lt Nat.and_le_right (by decide)

end Sys2Proof.Proofs
end

section
/-! PROOFS. Reading a register back after a write of an idle block. -/

namespace Sys2Proof.Machine

open Sys2Proof.Statement

/-! ## Name words -/

theorem setNameWord_getElem (n : Vector Byte 20) (j : Fin 5) (v : Word) {k : Nat} (hk : k < 20) :
    (setNameWord n j v)[k] = if k / 4 = j.val then byteOfWord v (k % 4) else n[k] := by
  simp [setNameWord]

/-- A word is put together again from its four bytes (R61). -/
theorem wordOfBytes_byteOfWord (v : Word) :
    wordOfBytes (byteOfWord v 0) (byteOfWord v 1) (byteOfWord v 2) (byteOfWord v 3) = v := by
  have hv := v.isLt
  apply BitVec.eq_of_toNat_eq
  simp only [wordOfBytes_toNat, byteOfWord_toNat]
  omega

/-- Name words are read as written, each from its own four bytes (R32). -/
theorem nameWord_setNameWord (n : Vector Byte 20) (j k : Fin 5) (v : Word) :
    nameWord (setNameWord n j v) k = if k = j then v else nameWord n k := by
  have byte : ∀ c (hc : c < 4), (setNameWord n j v)[4 * k.val + c] =
      if k = j then byteOfWord v c else n[4 * k.val + c] := fun c hc => by
    have hdiv : (4 * k.val + c) / 4 = k.val := by omega
    have hmod : (4 * k.val + c) % 4 = c := by omega
    rw [setNameWord_getElem n j v (by omega), hdiv, hmod]
    simp only [Fin.ext_iff]
  have h0 := byte 0 (by decide)
  simp only [Nat.add_zero] at h0
  rw [nameWord, h0, byte 1 (by decide), byte 2 (by decide), byte 3 (by decide)]
  split
  · exact wordOfBytes_byteOfWord v
  · rfl

/-! ## The registers of a slot -/

/-- The slot a register belongs to (R31). -/
def Reg.slot : Reg → Option Slot
  | .ramp n _ | .tstart n | .tend n | .name n _ => some n
  | .cmd | .status | .addr | .width | .height | .stride | .opnd | .result | .hdr | .errAddr | .reserved => none

/-- The value of a slot's register, of the record in the slot (R31, R32). -/
def Rec.regValue (x : Rec) : Reg → Word
  | .ramp _ i => (x.ramp[i]).setWidth 32
  | .tstart _ => x.tstart.setWidth 32
  | .tend _   => x.tend.setWidth 32
  | .name _ j => nameWord x.name j
  | .cmd | .status | .addr | .width | .height | .stride | .opnd | .result | .hdr | .errAddr | .reserved => 0

theorem regValue_of_slot (s : State) {r : Reg} {n : Slot} (h : r.slot = some n) :
    s.regValue r = (s.slot n).regValue r := by
  cases r with
  | ramp m i | tstart m | tend m | name m j =>
    obtain rfl : m = n := Option.some.inj h
    rfl
  | _ => contradiction

theorem regValue_setSlot_same (s : State) (n : Slot) (x : Rec) {r : Reg} (h : r.slot = some n) :
    (s.setSlot n x).regValue r = x.regValue r := by
  rw [regValue_of_slot _ h, State.setSlot_slot, if_pos rfl]

/-- A new record in a slot changes no register but those of the slot in which the records differ. -/
theorem regValue_setSlot_other (s : State) (n : Slot) (x : Rec) {r : Reg}
    (h : r.slot = some n → x.regValue r = (s.slot n).regValue r) : (s.setSlot n x).regValue r = s.regValue r := by
  cases hr : r.slot with
  | some m =>
    rw [regValue_of_slot _ hr, regValue_of_slot _ hr, State.setSlot_slot]
    split
    · next e => exact e ▸ h (e ▸ hr)
    · rfl
  | none =>
    cases r with
    | ramp m i | tstart m | tend m | name m j => contradiction
    | _ => rfl

/-! ## Read after write -/

/-- How many bits a host write of an idle block sets in a register other than CMD and STATUS (R53 to R55, R59). -/
def Reg.writtenBits : Reg → Nat
  | .addr | .opnd | .hdr | .name _ _ => 32
  | .width | .height | .stride | .ramp _ _ | .tstart _ | .tend _ => 16
  | .cmd | .status | .result | .errAddr | .reserved => 0

theorem setWidth_setWidth_eq_ofNat (v : Word) : (v.setWidth 16).setWidth 32 = BitVec.ofNat 32 (v.toNat % 2 ^ 16) := by
  rw [← BitVec.ofNat_toNat, BitVec.toNat_setWidth]

theorem eq_ofNat_mod (v : Word) : v = BitVec.ofNat 32 (v.toNat % 2 ^ 32) := by
  rw [Nat.mod_eq_of_lt v.isLt, BitVec.ofNat_toNat, BitVec.setWidth_eq]

/-- A register that takes a write holds the written bits it has. -/
theorem regValue_writeIdle_same (s : State) (v : Word) {r : Reg} (hr : r.writtenBits ≠ 0) :
    (s.writeIdle v r).regValue r = BitVec.ofNat 32 (v.toNat % 2 ^ r.writtenBits) := by
  cases r with
  | addr | opnd | hdr => exact eq_ofNat_mod v
  | width | height | stride => exact setWidth_setWidth_eq_ofNat v
  | ramp n i =>
    rw [State.writeIdle, regValue_setSlot_same _ _ _ rfl, Rec.regValue, Fin.getElem_fin, Vector.getElem_set_self]
    exact setWidth_setWidth_eq_ofNat v
  | tstart n | tend n =>
    rw [State.writeIdle, regValue_setSlot_same _ _ _ rfl]
    exact setWidth_setWidth_eq_ofNat v
  | name n j =>
    rw [State.writeIdle, regValue_setSlot_same _ _ _ rfl, Rec.regValue, nameWord_setNameWord, if_pos rfl]
    exact eq_ofNat_mod v
  | cmd | status | result | errAddr | reserved => exact absurd rfl hr

/-- A write of an idle block changes no register but its own and STATUS. -/
theorem regValue_writeIdle_other (s : State) (v : Word) {r r' : Reg} (hne : r' ≠ r) (hs : r' ≠ .status) :
    (s.writeIdle v r).regValue r' = s.regValue r' := by
  cases r with
  | addr =>
    cases r' with
    | addr => exact absurd rfl hne
    | _ => rfl
  | width =>
    cases r' with
    | width => exact absurd rfl hne
    | _ => rfl
  | height =>
    cases r' with
    | height => exact absurd rfl hne
    | _ => rfl
  | stride =>
    cases r' with
    | stride => exact absurd rfl hne
    | _ => rfl
  | opnd =>
    cases r' with
    | opnd => exact absurd rfl hne
    | _ => rfl
  | hdr =>
    cases r' with
    | hdr => exact absurd rfl hne
    | status => exact absurd rfl hs
    | _ => rfl
  | ramp n i =>
    refine regValue_setSlot_other s n _ fun hslot => ?_
    cases r' with
    | ramp m k =>
      obtain rfl : m = n := Option.some.inj hslot
      have hik : i.val ≠ k.val := fun e => hne (by rw [Fin.ext e])
      rw [Rec.regValue, Rec.regValue, Fin.getElem_fin, Fin.getElem_fin, Vector.getElem_set_ne _ _ hik]
    | _ => simp only [Rec.regValue]
  | tstart n =>
    refine regValue_setSlot_other s n _ fun hslot => ?_
    cases r' with
    | tstart m => exact absurd (congrArg Reg.tstart (Option.some.inj hslot)) hne
    | _ => simp only [Rec.regValue]
  | tend n =>
    refine regValue_setSlot_other s n _ fun hslot => ?_
    cases r' with
    | tend m => exact absurd (congrArg Reg.tend (Option.some.inj hslot)) hne
    | _ => simp only [Rec.regValue]
  | name n j =>
    refine regValue_setSlot_other s n _ fun hslot => ?_
    cases r' with
    | name m k =>
      obtain rfl : m = n := Option.some.inj hslot
      have hkj : k ≠ j := fun e => hne (by rw [e])
      rw [Rec.regValue, Rec.regValue, nameWord_setNameWord, if_neg hkj]
    | _ => simp only [Rec.regValue]
  | cmd | status | result | errAddr | reserved => rfl

theorem writeIdle_busy (s : State) (v : Word) (r : Reg) : (s.writeIdle v r).status.busy = s.status.busy := by
  obtain h | ⟨-, h, -⟩ := writeIdle_status s v r <;> rw [h]
  rfl

/-- The register at an offset at which an idle block lets the host set some bits takes just these. -/
theorem writtenBits_of_writableBits {offset bits : Nat} (h : WritableBits offset bits) :
    (regAt (BitVec.ofNat 12 offset)).writtenBits = bits ∧ bits ≠ 0 := by
  obtain ⟨ho, rfl⟩ | ⟨ho, rfl⟩ | ⟨n, hn, i, hi, rfl, rfl⟩ | ⟨n, hn, j, hj, rfl, rfl⟩ := h
  · revert offset
    decide
  · revert offset
    decide
  · obtain hi | rfl | rfl : i < 32 ∨ i = 32 ∨ i = 33 := by omega
    · rw [regAt_ramp ⟨n, hn⟩ ⟨i, hi⟩]
      exact ⟨rfl, by decide⟩
    · rw [regAt_tstart ⟨n, hn⟩]
      exact ⟨rfl, by decide⟩
    · rw [regAt_tend ⟨n, hn⟩]
      exact ⟨rfl, by decide⟩
  · have hbase : 0x488 + 0x100 * n + 4 * j = 0x400 + 0x100 * n + 0x88 + 4 * j := by omega
    rw [hbase, regAt_name ⟨n, hn⟩ ⟨j, hj⟩]
    exact ⟨rfl, by decide⟩

/-- Two offsets of the window do not name one register, unless it is reserved. -/
theorem regAt_ne_of_ne {offset other : Nat} (hlt : offset < 4096) (h4 : offset % 4 = 0) (hlt' : other < 4096)
    (h4' : other % 4 = 0) (hne : other ≠ offset) (hr : regAt (BitVec.ofNat 12 offset) ≠ .reserved) :
    regAt (BitVec.ofNat 12 other) ≠ regAt (BitVec.ofNat 12 offset) := by
  intro h
  have e := eq_offset_of_regAt (offset_mod_four hlt h4) rfl hr
  have e' := eq_offset_of_regAt (offset_mod_four hlt' h4') h hr
  have := congrArg BitVec.toNat (e'.trans e.symm)
  rw [toNat_offset hlt, toNat_offset hlt'] at this
  exact hne this

end Sys2Proof.Machine
end

section
/-! PROOFS. The obligations about host writes of an idle block. -/

namespace Sys2Proof.Proofs

open Sys2Proof.Machine Sys2Proof.Statement

/-- Settles O41, by the two cases of a CMD write. -/
theorem cmdWriteIssuesOrDrops : Obligations.CmdWriteIssuesOrDrops := by
  intro s v
  rw [hostStep_writeCmd]
  exact ⟨fun h => congrArg _ (writeCmd_dropped h v), fun hb he => congrArg _ (writeCmd_accepted hb he v)⟩

/-- Settles O47: an idle write of these registers is the identity. -/
theorem readOnlyWritesDoNothing : Obligations.ReadOnlyWritesDoNothing := by
  rintro s offset v hb (rfl | rfl | h)
  · exact hostStep_writeReg_idle (r := .result) hb (by decide) rfl nofun nofun v
  · exact hostStep_writeReg_idle (r := .errAddr) hb (by decide) rfl nofun nofun v
  · obtain ⟨h4, hr⟩ := regAt_of_reservedOffset h
    exact hostStep_writeReg_idle (r := .reserved) hb h4 hr nofun nofun v

/-- Settles O45: the idle write of each slot register sets its field, and registers at two offsets are two registers. -/
theorem writeThenReadOfTheWindow : Obligations.WriteThenReadOfTheWindow := by
  refine ⟨fun s n v hb => ?_, fun s offset bits v hb hw => ?_⟩
  · intro r base low wr slot
    have hlow : v.setWidth 16 = low := setWidth_eq_ofNat_mod v
    have writes : ∀ {offset : Nat} {q : Reg}, offset < 4096 → offset % 4 = 0 → regAt (BitVec.ofNat 12 offset) = q →
        q ≠ .cmd → q ≠ .status → wr offset = .next (s.writeIdle v q) :=
      fun hlt h4 hq hc hs => hostStep_writeReg_idle hb (offset_mod_four hlt h4) hq hc hs v
    rw [← hlow]
    refine ⟨fun i => writes (by omega) (by omega) (regAt_ramp n i) nofun nofun,
      writes (by omega) (by omega) (regAt_tstart n) nofun nofun,
      writes (by omega) (by omega) (regAt_tend n) nofun nofun,
      fun j => ⟨_, writes (by omega) (by omega) (regAt_name n j) nofun nofun, fun k => ?_⟩⟩
    rw [Fin.getElem_fin, setNameWord_getElem _ _ _ k.isLt]
    split
    · rw [byteOfWord_toNat, Nat.pow_mul]
    · rfl
  · obtain ⟨-, hlt, h4, -⟩ := offset_of_writableBits hw
    obtain ⟨ho, hc, hs, hr⟩ := regAt_of_operand (.inr (.inr ⟨bits, hw⟩))
    obtain ⟨hbits, hpos⟩ := writtenBits_of_writableBits hw
    have hidle := (writeIdle_busy s v (regAt (BitVec.ofNat 12 offset))).trans hb
    refine ⟨_, hostStep_writeReg_idle hb ho rfl hc hs v, ?_, fun other hlt' h4' hne hne4 => ?_⟩
    · rw [readAt_eq ho rfl (.inl hidle), regValue_writeIdle_same _ _ (hbits ▸ hpos), hbits]
    · have ho' : (BitVec.ofNat 12 other).toNat % 4 = 0 := offset_mod_four hlt' h4'
      rw [readAt_eq ho' rfl (.inl hidle), readAt_eq ho' rfl (.inl hb), regValue_writeIdle_other]
      · exact regAt_ne_of_ne (by omega) h4 hlt' h4' hne hr
      · exact regAt_ne_of_ne (offset := 0x004) (by decide) (by decide) hlt' h4' hne4 nofun

end Sys2Proof.Proofs
end

section
/-! PROOFS. Values that are encoded and decoded again, and records that are stored and loaded again. -/

namespace Sys2Proof.Machine

open Sys2Proof.Statement

/-! ## Colors -/

/-- Every level fits in the 5 bits of its field (R101). -/
theorem level_lt {c : Nat} (h : c < 256) : level c < 32 := by
  unfold level
  split <;> omega

/-- Expanding a level, as the formula of R106: the forced level 1 is the larger of the floor and 1. -/
theorem eight_mul_level (c : Nat) : 8 * level c = 8 * max (c * 31 / 255) (if c ≠ 0 then 1 else 0) := by
  unfold level
  split <;> split <;> omega

/-- Expanding a channel's level gives the channel back at 0 and at 8 alone (R106, log entry 10). -/
theorem eight_mul_level_eq_iff {c : Nat} (h : c < 256) : 8 * level c = c ↔ c = 0 ∨ c = 8 := by
  unfold level
  split <;> omega

/-- DEC on the word of ENC expands each of the three levels (R106). -/
theorem decNumber_encNumber (o : Nat) :
    decNumber (encNumber o % 2 ^ 32) = 8 * level (o / 65536 % 256) * 65536 + 8 * level (o / 256 % 256) * 256 +
      8 * level (o % 256) := by
  have hr := level_lt (Nat.mod_lt (o / 65536) (by decide : 256 > 0))
  have hg := level_lt (Nat.mod_lt (o / 256) (by decide : 256 > 0))
  have hb := level_lt (Nat.mod_lt o (by decide : 256 > 0))
  have henc : encNumber o % 2 ^ 32 % 65536 = encNumber o := by unfold encNumber; omega
  have hred : redOf (encNumber o) = level (o / 65536 % 256) := by unfold redOf encNumber; omega
  have hgreen : greenOf (encNumber o) = level (o / 256 % 256) := by unfold greenOf encNumber; omega
  have hblue : blueOf (encNumber o) = level (o % 256) := by unfold blueOf encNumber; omega
  rw [decNumber, henc, hred, hgreen, hblue]

/-! ## A record loaded and then stored -/

/-- RLOAD without error leaves in the slot what the 88 bytes at ADDR decode to (R127). -/
theorem slot_of_rload {n : Slot} {s t : State} (h : exec (.rload n) s = .next t) (ht : t.status.err = false) :
    t.slot n = decodeRecord (Memory.bytesFrom s.mem s.addr.toNat) := by
  rw [eq_complete_of_exec h ht]
  exact (State.setSlot_slot s n n _).trans (if_pos rfl)

/-- RSTORE without error leaves at ADDR the bytes of the slot's record (R130). -/
theorem read_of_rstore {n : Slot} {s t : State} (h : exec (.rstore n) s = .next t) (ht : t.status.err = false) {k : Nat}
    (hk : k < 88) : Memory.read t.mem (s.addr.toNat + k) = recordByte (s.slot n) k := by
  rw [eq_complete_of_exec h ht, read_effect_rstore s n hk]

/-- RLOAD at X and then RSTORE at Y, both without error: the bytes come back as `RecordBack` says. -/
theorem record_back {n : Slot} {s t u : State} {y : Word} (hload : exec (.rload n) s = .next t)
    (ht : t.status.err = false) (hstore : exec (.rstore n) { t with addr := y } = .next u)
    (hu : u.status.err = false) :
    RecordBack (fun k => Memory.read s.mem (s.addr.toNat + k)) fun k => Memory.read u.mem (y.toNat + k) := by
  have hdecoded : DecodedFrom (fun k => Memory.read s.mem (s.addr.toNat + k)) (t.slot n) :=
    slot_of_rload hload ht ▸ decodedFrom_decodeRecord _
  exact recordBack_of_decodedFrom hdecoded (encodedTo_of_recordByte fun k hk => read_of_rstore hstore hu hk)

/-! ## A record stored and then loaded -/

/-- RSTORE and then RLOAD at the same place, both without error, leave in the slot what its own bytes decode to. -/
theorem bank_back {n : Slot} {s t u : State} (hstore : exec (.rstore n) s = .next t) (ht : t.status.err = false)
    (hload : exec (.rload n) t = .next u) (hu : u.status.err = false) :
    u.bank[n.val] = decodeRecord (recordByte (s.bank[n.val])) := by
  have haddr : t.addr = s.addr := by
    rw [eq_complete_of_exec hstore ht, State.complete_addr]
    exact State.setMem_addr ..
  refine (slot_of_rload hload hu).trans (decodeRecord_congr fun k hk => ?_)
  rw [Memory.bytesFrom, haddr]
  exact read_of_rstore hstore ht hk

/-- A color comes back from a store and a load exactly if its bit 15 was set (R104, R105). -/
theorem setMarker_flipMarker_eq_iff (c : Half) : setMarker (flipMarker c) = c ↔ c.getLsbD 15 = true := by
  have hc := c.isLt
  rw [← BitVec.toNat_inj, setMarker_toNat, flipMarker_toNat, BitVec.getLsbD, Nat.testBit_eq_decide_div_mod_eq,
    decide_eq_true_eq]
  omega

/-- A name field as bytes of a record whose colors are all zero. -/
def nameField (n : Vector Byte 20) (k : Nat) : Byte := if k < 68 then 0 else n.toList.getD (k - 68) 0

theorem nameField_name (n : Vector Byte 20) (j : Nat) : nameField n (68 + j) = n.toList.getD j 0 := by
  rw [nameField, if_neg (by omega), Nat.add_sub_cancel_left]

theorem getD_toList_of_lt (n : Vector Byte 20) {j : Nat} (hj : j < 20) : n.toList.getD j 0 = n[j] := by
  rw [List.getD_eq_getElem _ _ (by simpa using hj), Vector.getElem_toList]

/-- A byte of a name that is encoded and decoded again (R123, R124). -/
theorem decodeName_encodeName_getElem (n : Vector Byte 20) {j : Nat} (hj : j < 20) :
    (decodeName (encodeName n))[j] = if j < nameLen n then (if n[j] = 0x0A then 0x20 else n[j]) else 0 := by
  rw [decodeName_getElem _ _ hj, encodeName_getElem _ _ hj]
  simp only [lt_nameLen_encodeName n hj]
  split <;> rfl

theorem lt_nameLen_iff_nameField {n : Vector Byte 20} {j : Nat} (hj : j < 20) :
    j < nameLen n ↔ ∀ l ≤ j, nameField n (68 + l) ≠ 0 := by
  rw [lt_nameLen_iff hj]
  refine forall₂_congr fun l hl => ?_
  rw [nameField_name, getD_toList_of_lt n (by omega)]

/-- A name that is encoded and decoded again comes back as `RecordBack` says of the name of a record. -/
theorem recordBack_nameField (n : Vector Byte 20) :
    RecordBack (nameField n) (nameField (decodeName (encodeName n))) where
  color i hi := by
    have hcolor : ∀ (m : Vector Byte 20), ∀ k < 68, nameField m k = 0 := fun m k hk => if_pos hk
    rw [hcolor _ _ (by omega), hcolor _ _ (by omega), hcolor _ _ (by omega), hcolor _ _ (by omega)]
    rfl
  ended j hj hz := by
    rw [nameField_name, getD_toList_of_lt _ hj, decodeName_encodeName_getElem n hj, if_neg]
    rw [lt_nameLen_iff_nameField hj]
    obtain ⟨l, hl, hzero⟩ := hz
    exact fun h => h l hl hzero
  text j hj hne := by
    rw [nameField_name, nameField_name, getD_toList_of_lt _ hj, getD_toList_of_lt _ hj,
      decodeName_encodeName_getElem n hj, if_pos ((lt_nameLen_iff_nameField hj).mpr hne)]

/-- A name comes back from a store and a load exactly if it is canonical. -/
theorem decodeName_encodeName_eq_iff (n : Vector Byte 20) :
    decodeName (encodeName n) = n ↔ CanonicalName fun j => n.toList.getD j 0 := by
  have hback := (recordBack_nameField n).name_eq_iff
  simp only [nameField_name] at hback
  rw [← hback]
  constructor
  · intro h j _
    rw [h]
  · intro h
    refine Vector.ext fun j hj => ?_
    rw [← getD_toList_of_lt _ hj, ← getD_toList_of_lt _ hj, h j hj]

/-- Two records are equal exactly when their fields are (R30). -/
theorem rec_eq_iff {r r' : Rec} :
    r = r' ↔ (∀ i : Fin 32, r.ramp[i] = r'.ramp[i]) ∧ r.tstart = r'.tstart ∧ r.tend = r'.tend ∧ r.name = r'.name := by
  constructor
  · rintro rfl
    exact ⟨fun _ => rfl, rfl, rfl, rfl⟩
  · rintro ⟨hramp, hstart, hend, hname⟩
    exact Rec.ext_fields (fun i hi => hramp ⟨i, hi⟩) hstart hend fun j _ => by rw [hname]

/-! ## Admission maps -/

/-- A map that denies single addresses admits all others (R8). -/
theorem admits_of_denied_addresses (s : State) (l : List (Word × AccessKind)) (a : Word) (k : AccessKind) :
    State.admits { s with denied := l.map fun d => ⟨d.1, d.1, d.2⟩ } a.toNat k = !decide ((a, k) ∈ l) := by
  have heq : ∀ d : Word × AccessKind,
      (d.2 == k && decide (d.1.toNat ≤ a.toNat) && decide (a.toNat ≤ d.1.toNat)) = true ↔ d = (a, k) := fun d => by
    rw [Prod.ext_iff, ← BitVec.toNat_inj, Bool.and_eq_true, Bool.and_eq_true, beq_iff_eq, decide_eq_true_eq,
      decide_eq_true_eq, and_assoc, ← Nat.le_antisymm_iff, and_comm]
  rw [State.admits, List.any_map, Bool.not_inj_iff, Bool.eq_iff_iff, List.any_eq_true, decide_eq_true_eq]
  simp only [Function.comp_apply, heq, exists_eq_right]

end Sys2Proof.Machine
end

section
/-! PROOFS. The obligations about round trips and about the admission map. -/

namespace Sys2Proof.Proofs

open Sys2Proof.Machine Sys2Proof.Statement

/-- Settles O13, by the level of each channel and its expansion. -/
theorem rgbRoundTrip : Obligations.RgbRoundTrip := by
  refine ⟨fun s => ?_, fun c => ?_⟩
  · intro o back
    rw [computes_enc.feed_eq computes_dec, decNumber_encNumber, eight_mul_level, eight_mul_level, eight_mul_level]
  · rw [← BitVec.toNat_inj, expand8_toNat, scale5_toNat, eight_mul_level_eq_iff c.isLt, ← BitVec.toNat_inj,
      ← BitVec.toNat_inj]
    rfl

/-- Settles O22, byte by byte: the bytes are decoded and encoded again. -/
theorem recordBytesRoundTrip : Obligations.RecordBytesRoundTrip := by
  intro n s t u y _ hload ht hstore hu
  simp only [Nat.add_assoc]
  exact (record_back hload ht hstore hu).eq_iff

/-- Settles O23, field by field: the slot is encoded and decoded again. -/
theorem recordSlotRoundTrip : Obligations.RecordSlotRoundTrip := by
  intro n s t u _ hstore ht hload hu r
  rw [bank_back hstore ht hload hu, rec_eq_iff, decode_recordByte_tstart, decode_recordByte_tend,
    decode_recordByte_name, setMarker_flipMarker_eq_iff, setMarker_flipMarker_eq_iff, decodeName_encodeName_eq_iff]
  refine and_congr_left' (forall_congr' fun i => ?_)
  rw [Fin.getElem_fin, decode_recordByte_ramp _ i.val i.isLt, Fin.getElem_fin]
  exact setMarker_flipMarker_eq_iff _

/-- Settles O37: a map denies finitely many addresses, each of which is a range of its own. -/
theorem admissionMapsAreGeneral : Obligations.AdmissionMapsAreGeneral := by
  intro s p
  obtain ⟨words, -, hwords⟩ := Finite.exists_univ_list Word
  refine ⟨((words.product [.read, .write]).filter fun d => !p d.1 d.2).map fun d => ⟨d.1, d.1, d.2⟩, fun a k => ?_⟩
  have hmem : (a, k) ∈ words.product [.read, .write] := List.mem_product.mpr ⟨hwords a, by cases k <;> decide⟩
  simp only [admits_of_denied_addresses, List.mem_filter, hmem, true_and]
  simp

end Sys2Proof.Proofs
end

section
/-! PROOFS. The host sequences, run. -/

namespace Sys2Proof.Machine

open Sys2Proof.Statement

/-! ## CMD and POLL -/

/-- What the last read of a POLL leaves: STATUS in `readData`, and no window open (R91, R196). -/
def State.polled (s : State) (rest : List HostInput) : State :=
  { s with pending := rest, readData := s.status.toWord, unobserved := [] }

section
variable {i : Instr} {s u : State} (hb : s.status.busy = false) (he : s.status.err = false)
  (hexec : exec i (s.acceptCommand (encode i)) = .next u)
include hb he hexec

/-- `CMD i; POLL`: the word is accepted, the early reads find BUSY = 1, the engine performs `i`, and the last read
returns STATUS as the command left it (R91). -/
theorem runs_issue (waits : Nat) (rest : List HostInput) (d : Word) :
    Runs (waits + 3) (s.outside (HostApi.issue i waits ++ rest) d) (u.polled rest) := by
  have haccept : step (s.outside (HostApi.issue i waits ++ rest) d) =
      .next ((s.acceptCommand (encode i)).outside (HostApi.poll waits ++ rest) d) := by
    rw [← writeCmd_accepted hb he]
    exact step_wr hb (o := 0x000) (by decide) (encode i) (HostApi.poll waits ++ rest) d
  obtain ⟨d', hpolls⟩ :=
    runs_early_polls (s := s.acceptCommand (encode i)) rfl waits (HostApi.rd 0x004 :: rest) d
  have hperform : step ((s.acceptCommand (encode i)).outside (HostApi.rd 0x004 :: rest) d') =
      .next (u.outside (HostApi.rd 0x004 :: rest) d') := by
    have hlatch : ((s.acceptCommand (encode i)).outside (HostApi.rd 0x004 :: rest) d').cmdLatch = encode i := rfl
    rw [HostApi.rd, step_late rfl, perform_eq_exec (hlatch ▸ decode_encode i)]
    exact exec_outside _ d' hexec
  have hread : step (u.outside (HostApi.rd 0x004 :: rest) d') = .next (u.polled rest) := by
    have hr : regAt 0x004 = Reg.status := rfl
    rw [step_rd (busy_of_exec hexec) (by decide), hr, if_pos rfl]
    rfl
  have hsplit : HostApi.poll waits ++ rest =
      List.replicate waits ⟨true, .readReg 0x004 .word⟩ ++ HostApi.rd 0x004 :: rest :=
    List.append_assoc _ _ _
  have hend : Runs 2 ((s.acceptCommand (encode i)).outside (HostApi.rd 0x004 :: rest) d') (u.polled rest) :=
    runs_succ hperform (runs_succ hread (runs_zero _))
  exact runs_succ (hsplit ▸ haccept) (runs_add hpolls hend)

end

/-! ## The writes of a slot -/

/-- An offset in the REC window is a multiple of 4 where its place in the slot is one (R31). -/
theorem recField_mod_four (n : Slot) {off : Nat} (h : off < 0x100) (h4 : off % 4 = 0) :
    (HostApi.recField n off).toNat % 4 = 0 :=
  offset_mod_four (by omega) (by omega)

/-- A write of a register of an idle block's slot, in a sequence (R55). -/
theorem hostWrite_recField {s : State} (hb : s.status.busy = false) {n : Slot} {off : Nat} {r : Reg}
    (hr : regAt (BitVec.ofNat 12 (0x400 + 0x100 * n.val + off)) = r) (hc : r ≠ .cmd) (hs : r ≠ .status) (v : Word) :
    s.hostWrite (regAt (HostApi.recField n off)) v = s.writeIdle v r := by
  rw [HostApi.recField, hr, hostWrite_idle hb hc hs]

/-- A 16-bit value is written as a word and its low 16 bits are kept (R31). -/
theorem setWidth_setWidth_half (v : Half) : (v.setWidth 32).setWidth 16 = v := by
  simp

theorem setSlot_setSlot (s : State) (n : Slot) (x y : Rec) : (s.setSlot n x).setSlot n y = s.setSlot n y := by
  simp [State.setSlot]

/-- Updates of one field of a record, one after the other, are one update of that field. -/
theorem foldl_field {α β : Type} {get : Rec → β} {put : Rec → β → Rec} (hget : ∀ x b, get (put x b) = b)
    (hput : ∀ x b c, put (put x b) c = put x c) (hself : ∀ x, put x (get x) = x) (f : β → α → β) (l : List α)
    (x : Rec) : l.foldl (fun y a => put y (f (get y) a)) x = put x (l.foldl f (get x)) := by
  induction l generalizing x with
  | nil => exact (hself x).symm
  | cons a l ih => rw [List.foldl_cons, ih, hput, hget, List.foldl_cons]

/-- Byte `c` of a name word is the name's (R32). -/
theorem byteOfWord_nameWord (name : Vector Byte 20) (j : Fin 5) {c : Nat} (hc : c < 4) :
    byteOfWord (nameWord name j) c = name[4 * j.val + c] := by
  have h0 := (name[4 * j.val]).isLt
  have h1 := (name[4 * j.val + 1]).isLt
  have h2 := (name[4 * j.val + 2]).isLt
  have h3 := (name[4 * j.val + 3]).isLt
  apply BitVec.eq_of_toNat_eq
  rw [byteOfWord_toNat, nameWord, wordOfBytes_toNat]
  obtain rfl | rfl | rfl | rfl : c = 0 ∨ c = 1 ∨ c = 2 ∨ c = 3 := by omega
  · simp only [Nat.add_zero]
    omega
  all_goals omega

/-- Writing some words of a name puts these words' bytes in place (R32). -/
theorem foldl_setNameWord_getElem (name : Vector Byte 20) (l : List (Fin 5)) (v : Vector Byte 20) {k : Nat}
    (hk : k < 20) : (l.foldl (fun u j => setNameWord u j (nameWord name j)) v)[k] =
      if ⟨k / 4, by omega⟩ ∈ l then name[k] else v[k] := by
  induction l generalizing v with
  | nil => simp
  | cons j l ih =>
    rw [List.foldl_cons, ih, setNameWord_getElem _ _ _ hk, byteOfWord_nameWord _ _ (by omega)]
    by_cases hj : k / 4 = j.val
    · have hat : 4 * j.val + k % 4 = k := by omega
      have hbyte : name[4 * j.val + k % 4] = name[k] := by simp only [hat]
      have heq : (⟨k / 4, by omega⟩ : Fin 5) = j := Fin.ext hj
      rw [if_pos hj, hbyte, heq, ite_self, if_pos List.mem_cons_self]
    · have hne : (⟨k / 4, by omega⟩ : Fin 5) ≠ j := fun e => hj (congrArg Fin.val e)
      simp [hj, hne]

/-- Writing all five words gives the whole name (R32). -/
theorem foldl_setNameWord (name v : Vector Byte 20) :
    (List.finRange 5).foldl (fun u j => setNameWord u j (nameWord name j)) v = name :=
  Vector.ext fun k hk => by rw [foldl_setNameWord_getElem name _ v hk, if_pos (List.mem_finRange _)]

section
variable {s : State} (hb : s.status.busy = false) (n : Slot) (rest : List HostInput) (d : Word)
include hb

/-- The 32 writes of a ramp (R92). -/
theorem runs_writeRamp (ramp : Vector Half 32) :
    Runs 32 (s.outside (HostApi.writeRamp n ramp ++ rest) d)
      ((s.setSlot n { s.slot n with ramp := ramp }).outside rest d) := by
  have h := runs_slotWrites n (List.finRange 32) (fun i => 4 * i.val) (fun i => ramp[i].setWidth 32)
    (fun x i => { x with ramp := x.ramp.set i.val ramp[i] }) (fun i => recField_mod_four n (by omega) (by omega))
    (fun s i hb => by
      rw [hostWrite_recField hb (regAt_ramp n i) nofun nofun, State.writeIdle, setWidth_setWidth_half])
    hb rest d
  have hfold := foldl_field (get := Rec.ramp) (put := fun x w => { x with ramp := w }) (fun _ _ => rfl)
    (fun _ _ _ => rfl) (fun _ => rfl) (fun w (i : Fin 32) => w.set i.val ramp[i]) (List.finRange 32) (s.slot n)
  rw [List.length_finRange, hfold, foldl_set] at h
  exact h

/-- The five writes of a name (R32, R92). -/
theorem runs_writeName (name : Vector Byte 20) :
    Runs 5 (s.outside (HostApi.writeName n name ++ rest) d)
      ((s.setSlot n { s.slot n with name := name }).outside rest d) := by
  have h := runs_slotWrites n (List.finRange 5) (fun j => 0x88 + 4 * j.val) (fun j => nameWord name j)
    (fun x j => { x with name := setNameWord x.name j (nameWord name j) })
    (fun j => recField_mod_four n (by omega) (by omega))
    (fun s j hb => by
      have hr : regAt (BitVec.ofNat 12 (0x400 + 0x100 * n.val + (0x88 + 4 * j.val))) = .name n j := by
        rw [← Nat.add_assoc]
        exact regAt_name n j
      rw [hostWrite_recField hb hr nofun nofun, State.writeIdle])
    hb rest d
  have hfold := foldl_field (get := Rec.name) (put := fun x w => { x with name := w }) (fun _ _ => rfl)
    (fun _ _ _ => rfl) (fun _ => rfl) (fun w j => setNameWord w j (nameWord name j)) (List.finRange 5) (s.slot n)
  rw [List.length_finRange, hfold, foldl_setNameWord] at h
  exact h

/-- The write of one register of a slot, in a sequence (R55). -/
theorem step_writeField {off : Nat} {r : Reg} (hoff : off < 0x100) (h4 : off % 4 = 0)
    (hr : regAt (BitVec.ofNat 12 (0x400 + 0x100 * n.val + off)) = r) (hc : r ≠ .cmd) (hs : r ≠ .status) (v : Word) :
    step (s.outside (HostApi.wr (HostApi.recField n off) v :: rest) d) = .next ((s.writeIdle v r).outside rest d) := by
  rw [step_wr hb (recField_mod_four n hoff h4), hostWrite_recField hb hr hc hs]

/-- The 39 writes of a record: its ramp, TSTART, TEND and its name, one after the other (R92). -/
theorem runs_writeRecord (r : Rec) :
    Runs 39 (s.outside (HostApi.writeRecord n r ++ rest) d) ((s.setSlot n r).outside rest d) := by
  have hsplit : HostApi.writeRecord n r ++ rest = HostApi.writeRamp n r.ramp ++
      HostApi.wr (HostApi.recField n 0x80) (r.tstart.setWidth 32) ::
      HostApi.wr (HostApi.recField n 0x84) (r.tend.setWidth 32) :: (HostApi.writeName n r.name ++ rest) := by
    simp [HostApi.writeRecord]
  have hramp := runs_writeRamp hb n (HostApi.wr (HostApi.recField n 0x80) (r.tstart.setWidth 32) ::
    HostApi.wr (HostApi.recField n 0x84) (r.tend.setWidth 32) :: (HostApi.writeName n r.name ++ rest)) d r.ramp
  have hstart := step_writeField (s := s.setSlot n { s.slot n with ramp := r.ramp }) hb n
    (HostApi.wr (HostApi.recField n 0x84) (r.tend.setWidth 32) :: (HostApi.writeName n r.name ++ rest)) d
    (by decide) (by decide) (regAt_tstart n) nofun nofun (r.tstart.setWidth 32)
  have hend := step_writeField (s := s.setSlot n { s.slot n with ramp := r.ramp, tstart := r.tstart }) hb n
    (HostApi.writeName n r.name ++ rest) d (by decide) (by decide) (regAt_tend n) nofun nofun (r.tend.setWidth 32)
  have hname := runs_writeName (s := s.setSlot n { r with name := (s.slot n).name }) hb n rest d r.name
  simp only [State.writeIdle, setWidth_setWidth_half, State.setSlot_slot, if_true, setSlot_setSlot] at hstart hend hname
  rw [hsplit]
  exact runs_add hramp (runs_succ hstart (runs_succ hend hname))

end

end Sys2Proof.Machine
end

section
/-! PROOFS. The color calls, run. -/

namespace Sys2Proof.Machine

open Sys2Proof.Statement

theorem expand8_eq (f : BitVec 5) : expand8 f = BitVec.ofNat 8 (8 * f.toNat) := by
  rw [← expand8_toNat, BitVec.ofNat_toNat, BitVec.setWidth_eq]

/-- The sequence of a color call: the operand is written, the command is issued and polled, and RESULT is read; nothing
of memory, of the bank or of HDR changes (R92). -/
theorem runs_colorCall {i : Instr} {f : Nat → Nat} (h : Computes i f) {s : State} (hb : s.status.busy = false)
    (he : s.status.err = false) (v : Word) (waits : Nat) (rest : List HostInput) (d : Word) :
    ∃ t, Runs (waits + 5) (s.outside (HostApi.wr 0x018 v :: HostApi.issue i waits ++ [HostApi.rd 0x01C] ++ rest) d) t ∧
      t.readData = BitVec.ofNat 32 (f v.toNat) ∧ t.pending = rest ∧ t.mem = s.mem ∧ t.bank = s.bank ∧
      t.hdr = s.hdr := by
  have hsplit : HostApi.wr 0x018 v :: HostApi.issue i waits ++ [HostApi.rd 0x01C] ++ rest =
      HostApi.wr 0x018 v :: (HostApi.issue i waits ++ HostApi.rd 0x01C :: rest) := by simp
  have hwrite : step (s.outside (HostApi.wr 0x018 v :: (HostApi.issue i waits ++ HostApi.rd 0x01C :: rest)) d) =
      .next (State.outside { s with opnd := v } (HostApi.issue i waits ++ HostApi.rd 0x01C :: rest) d) := by
    have hr : regAt 0x018 = Reg.opnd := rfl
    rw [step_wr hb (by decide), hr, hostWrite_idle hb (by decide) (by decide)]
    rfl
  obtain ⟨u, hexec, hresult, hkept⟩ : ∃ u, exec i (State.acceptCommand { s with opnd := v } (encode i)) = .next u ∧
      u.result = BitVec.ofNat 32 (f v.toNat) ∧ u.mem = s.mem ∧ u.bank = s.bank ∧ u.hdr = s.hdr :=
    ⟨_, h _, rfl, rfl, rfl, rfl⟩
  have hissue := runs_issue (s := { s with opnd := v }) hb he hexec waits (HostApi.rd 0x01C :: rest) d
  have hread : step (u.polled (HostApi.rd 0x01C :: rest)) =
      .next (State.outside { u with unobserved := [] } rest u.result) := by
    have hr : regAt 0x01C = Reg.result := rfl
    have hidle : u.status.busy = false := busy_of_exec hexec
    refine (step_rd (s := { u with unobserved := [] }) hidle (by decide) rest u.status.toWord).trans ?_
    rw [hr]
    rfl
  have hruns := runs_succ hwrite (runs_add hissue (runs_succ hread (runs_zero _)))
  rw [hsplit]
  exact ⟨_, hruns, hresult, rfl, hkept⟩

end Sys2Proof.Machine
end

section
/-! PROOFS. The obligations about the host sequences. -/

namespace Sys2Proof.Proofs

open Sys2Proof.Machine Sys2Proof.Statement

/-- Settles O58, by the steps of CMD and POLL: acceptance, the early reads, the engine's step and the last read. -/
theorem issuedCommandRuns : Obligations.IssuedCommandRuns := by
  intro i s waits rest hb he
  obtain ⟨u, hexec⟩ := exists_exec i (s.acceptCommand (encode i))
  exact ⟨u, hexec, busy_of_exec hexec, runs_issue hb he hexec waits rest s.readData⟩

/-- Settles O59, write by write: each sets its own field of the slot. -/
theorem slotWritesFillTheSlot : Obligations.SlotWritesFillTheSlot :=
  fun n r s rest hb => ⟨runs_writeRamp hb n rest s.readData r.ramp, runs_writeRecord hb n rest s.readData r⟩

/-- Settles O60, by the number ENC and DEC compute, which the last read returns. -/
theorem colorCallsReturnTheirValue : Obligations.ColorCallsReturnTheirValue := by
  intro s waits rest hb he kept
  refine ⟨fun r g b => ?_, fun c => ?_⟩
  · obtain ⟨t, hrun, hread, hkept⟩ := runs_colorCall computes_enc hb he (resultOfRgb r g b) waits rest s.readData
    refine ⟨t, hrun, ?_, hkept⟩
    rw [hread, ← resultOfHalf_encodeColor, HostApi.hueColorOf, resultOfHalf, setWidth_setWidth_half, encodeColor,
      operandRed_resultOfRgb, operandGreen_resultOfRgb, operandBlue_resultOfRgb, pack555_toNat, scale5_toNat,
      scale5_toNat, scale5_toNat]
  · obtain ⟨t, hrun, hread, hkept⟩ := runs_colorCall computes_dec hb he (c.setWidth 32) waits rest s.readData
    refine ⟨t, hrun, ?_, hkept⟩
    rw [hread, ← decodeColor_operandColor, operandColor_setWidth, decodeColor, HostApi.rgbOf, operandRed_resultOfRgb,
      operandGreen_resultOfRgb, operandBlue_resultOfRgb, expand8_eq, expand8_eq, expand8_eq, red5_toNat, green5_toNat,
      blue5_toNat]
    rfl

end Sys2Proof.Proofs
end
